-- ==== Sys2Proof/Word.lean ====
section
/-! DEFINITION. The words of the machine: a Word is "a fixed-width (32-bit) unsigned integer; the universal unit of
address, data, and register value" (spec 00_scope.md glossary and R13). -/

namespace Sys2Proof

/-- A Word: 32 bits, arithmetic modulo 2^32 (R13, R193). -/
abbrev Word := BitVec 32

/-- One byte of the memory image (R60). -/
abbrev Byte := BitVec 8

/-- A general register's number, `x0` to `x31` (R24). -/
abbrev RegId := Fin 32

/-- A CSR's number, 12 bits, 0x000 to 0xFFF (R96, R264). -/
abbrev CsrId := BitVec 12

end Sys2Proof
end

