-- ==== Sys2Proof/Config.lean ====
section
/-! DEFINITION. The implementation parameters of 00_scope.md R10: what is fixed when a core is constructed. They are
plain data, so that a state can carry the parameters its core was built with. The parameters that the table fixes
(WORD_BITS, LINE_BYTES, LINE_WORDS, ICACHE_HIT_LATENCY; R11) are not fields, nor is NUM_REGS: a record's register
identifiers are 0 to 31 (R24, R80). DECODER, the register file and CSR_FILE are functions, so they are no data of a
state: they are `Collaborators` (Machine/Contracts.lean). -/

namespace Sys2Proof

/-- Which memory component serves the CPU Controller (R39, parameter MEM_MODEL). -/
inductive MemModel where
  | cached
  | uncached
  deriving DecidableEq, Repr

/-- LINE_WORDS, fixed at 16 (R10, R11). -/
abbrev lineWords : Nat := 16

/-- LINE_BYTES, fixed at 64 (R10, R11). -/
abbrev lineBytes : Nat := 64

/-- The free parameters of R10. -/
structure Params where
  /-- ICACHE_LINES: capacity of the instruction cache in lines. -/
  icacheLines : Nat
  /-- DCACHE_LINES: capacity of the data cache in lines. -/
  dcacheLines : Nat
  /-- LINE_LATENCY: wait cycles charged by a cache miss. -/
  lineLatency : Nat
  /-- DHIT_PENALTY: wait cycles added by a data-cache hit. -/
  dhitPenalty : Nat
  /-- UNCACHED_LATENCY: wait cycles of every uncached fetch, load or store. -/
  uncachedLatency : Nat
  /-- MEM_MODEL. -/
  memModel : MemModel
  /-- MEM_BYTES: size of the BackingStore in bytes. -/
  memBytes : Nat
  /-- RESET_IP: instruction pointer loaded by reset. -/
  resetIp : Word
  /-- EVICT_ON_REACH: the eviction-threshold reading (R145, R159). -/
  evictOnReach : Bool
  /-- REG_INIT: launch values of the general registers; `none` is a register that holds no value (R26). -/
  regInit : Vector (Option Word) 32
  /-- CYCLE_CSR: the CSR that counts clock edges (R266). -/
  cycleCsr : CsrId
  /-- INSTRET_CSR: the CSR that counts retirements (R267). -/
  instretCsr : CsrId
  /-- HOST_CSR: the CSR whose non-zero write raises the host message (R268). -/
  hostCsr : CsrId
  deriving DecidableEq, Repr

/-- The legal ranges of the free parameters (R12), the capacities that the EVICT_ON_REACH variant needs (R159) and
the distinctness of the three distinguished CSR numbers (R264). -/
abbrev Params.Legal (p : Params) : Prop :=
  1 ≤ p.icacheLines ∧ 1 ≤ p.dcacheLines ∧
  (p.evictOnReach = true → 2 ≤ p.icacheLines ∧ 2 ≤ p.dcacheLines) ∧
  p.memBytes % lineBytes = 0 ∧ lineBytes ≤ p.memBytes ∧ p.memBytes ≤ 2 ^ 32 ∧
  p.resetIp.toNat < p.memBytes ∧
  p.cycleCsr ≠ p.instretCsr ∧ p.hostCsr ≠ p.cycleCsr ∧ p.hostCsr ≠ p.instretCsr

/-- The reference values of R10. For the parameters R10 leaves OPEN the values are those that 92_eei_decisions.md
("Named parameters left open") gives for the test vectors: MEM_BYTES 0x4000, RESET_IP 0, REG_INIT every register 0,
HOST_CSR 0x780. DESIGN CHOICE, unsafe (notes/assumptions 1 and 2): the spec leaves these four open. -/
def Params.reference : Params where
  icacheLines := 8
  dcacheLines := 64
  lineLatency := 136
  dhitPenalty := 3
  uncachedLatency := 120
  memModel := .cached
  memBytes := 0x4000
  resetIp := 0
  evictOnReach := false
  regInit := Vector.replicate 32 (some 0)
  cycleCsr := 0xC00
  instretCsr := 0xC02
  hostCsr := 0x780

end Sys2Proof
end

