-- ==== Sys2Proof/Syntax.lean ====
section
/-! DEFINITION. The instructions: `Instr`, one constructor per row of spec/opcode_table.json (R98), and the decoded
instruction record of R80, which is what the core itself consumes. -/

namespace Sys2Proof

/-- The instructions of the reference decoder (R98), in the table's order. A register operand is its number; `imm` is
the immediate as the decoder delivers it, already extended and shifted to 32 bits (R90 to R95). CSRRS is admitted only
with rs1 = x0 (`csrr rd, csr`) and CSRRW only with rd = x0 (`csrw csr, rs1`), so those operands are not fields. -/
inductive Instr where
  | add (rd rs1 rs2 : RegId)
  | sub (rd rs1 rs2 : RegId)
  | sll (rd rs1 rs2 : RegId)
  | slt (rd rs1 rs2 : RegId)
  | sltu (rd rs1 rs2 : RegId)
  | xor (rd rs1 rs2 : RegId)
  | srl (rd rs1 rs2 : RegId)
  | sra (rd rs1 rs2 : RegId)
  | or (rd rs1 rs2 : RegId)
  | and (rd rs1 rs2 : RegId)
  | addi (rd rs1 : RegId) (imm : Word)
  | slti (rd rs1 : RegId) (imm : Word)
  | sltiu (rd rs1 : RegId) (imm : Word)
  | xori (rd rs1 : RegId) (imm : Word)
  | ori (rd rs1 : RegId) (imm : Word)
  | andi (rd rs1 : RegId) (imm : Word)
  | slli (rd rs1 : RegId) (shamt : Word)
  | srli (rd rs1 : RegId) (shamt : Word)
  | srai (rd rs1 : RegId) (shamt : Word)
  | lui (rd : RegId) (imm : Word)
  | auipc (rd : RegId) (imm : Word)
  | jal (rd : RegId) (imm : Word)
  | jalr (rd rs1 : RegId) (imm : Word)
  | beq (rs1 rs2 : RegId) (imm : Word)
  | bne (rs1 rs2 : RegId) (imm : Word)
  | blt (rs1 rs2 : RegId) (imm : Word)
  | bge (rs1 rs2 : RegId) (imm : Word)
  | bltu (rs1 rs2 : RegId) (imm : Word)
  | bgeu (rs1 rs2 : RegId) (imm : Word)
  | lw (rd rs1 : RegId) (imm : Word)
  | sw (rs1 rs2 : RegId) (imm : Word)
  | csrrs (rd : RegId) (csr : CsrId)
  | csrrw (csr : CsrId) (rs1 : RegId)
  deriving DecidableEq, Repr

/-- The nine instruction kinds of the Executor, in the source's order (R81). -/
inductive Kind where
  | alu | ld | st | csrw | csrr | j | br | jr | auipc
  deriving DecidableEq, Repr

/-- The ALU functions, in the source's order (R82). -/
inductive AluOp where
  | add | sll | slt | sltu | xor | and | or | sub | sra | srl
  deriving DecidableEq, Repr

/-- The comparison functions, in the order of R82; `at` of the spec (always true) is `always`, `nt` (always false) is
`never`. -/
inductive BrOp where
  | eq | ne | lt | ltu | ge | geu | always | never
  deriving DecidableEq, Repr

/-- The operation kind the data protocol receives (R84). -/
inductive OpKind where
  | load | store | other
  deriving DecidableEq, Repr

/-- The decoded instruction record (R80). The first group is the decoder's; the second group (`v1` on) is filled by
the core. The defaults are the values of absent fields: `none`, and 0 (D27). -/
structure Record where
  kind : Kind
  rs1 : Option RegId := none
  rs2 : Option RegId := none
  rd : Option RegId := none
  imm : Option Word := none
  aluOp : AluOp := .add
  brOp : BrOp := .eq
  csr : Option CsrId := none
  v1 : Word := 0
  v2 : Word := 0
  csrVal : Word := 0
  addr : Word := 0
  data : Word := 0
  nextIp : Word := 0
  deriving DecidableEq, Repr

/-- The numeric codes of the kinds (R81). -/
def Kind.code : Kind → Nat
  | .alu => 0 | .ld => 1 | .st => 2 | .csrw => 3 | .csrr => 4 | .j => 5 | .br => 6 | .jr => 7 | .auipc => 8

/-- The numeric codes of the ALU functions (R82). -/
def AluOp.code : AluOp → Nat
  | .add => 0 | .sll => 1 | .slt => 2 | .sltu => 3 | .xor => 4 | .and => 5 | .or => 6 | .sub => 7 | .sra => 8
  | .srl => 9

/-- The numeric codes of the comparison functions (R82). -/
def BrOp.code : BrOp → Nat
  | .eq => 0 | .ne => 1 | .lt => 2 | .ltu => 3 | .ge => 4 | .geu => 5 | .always => 6 | .never => 7

/-- The numeric codes of the operation kinds (R84). -/
def OpKind.code : OpKind → Nat
  | .load => 0 | .store => 1 | .other => 2

/-- The operation kind of a record's kind: LD gives Load, ST gives Store, every other kind gives Other (R84). -/
def Kind.opKind : Kind → OpKind
  | .ld => .load
  | .st => .store
  | .alu | .csrw | .csrr | .j | .br | .jr | .auipc => .other

end Sys2Proof
end

