-- ==== Sys2Proof/Machine/State.lean ====
section
/-! DEFINITION. The whole state of the machine, as 10_state.md gives it: `State = { cpu, regs, csr, memc, fault }`, with
the construction parameters of 00_scope.md R10 beside it. Plain data throughout. -/

namespace Sys2Proof.Machine

/-- The faults (R250): contract violations that stop the model. All of them are SAFE: the machine stops and nothing
is claimed of what follows. -/
inductive Fault where
  /-- F_ADDR: a memory access at an address at or above MEM_BYTES. Raised by a fetch request, a load or store data
  request, and the BackingStore primitives (R57, R58, R251). -/
  | addr (a : Word)
  /-- F_POLL: a poll that matches no earlier request of its side. Raised by pollFetch and pollData (R131, R252). -/
  | poll
  /-- F_DECODE: the decoder refuses the fetched word. Raised by the DecodeExecute edge (R99, R253). -/
  | decode (w : Word)
  /-- F_RECORD: the decoder returns a record that is not well formed. Raised by the DecodeExecute edge (R83, R254);
  the reference decoder never causes it. -/
  | record (w : Word)
  /-- F_UNINIT: a read of a register that holds no value. Raised by the DecodeExecute edge (R26, R255). -/
  | uninit (i : RegId)
  /-- Not a fault of the spec: the state is not one of this hardware. Raised where the spec's pseudocode looks up what
  it derives to be always there (a resident line at a poll R147 R155, a victim R144, the in-flight record R235) and
  the state lacks it. No state that meets `Safety.Inv` raises it. DESIGN CHOICE, safe (notes/assumptions 5). -/
  | impossible
  deriving DecidableEq, Repr

/-- The fault codes of R250; `impossible` has none. -/
def Fault.code : Fault → Option Nat
  | .addr _ => some 1
  | .poll => some 2
  | .decode _ => some 3
  | .record _ => some 4
  | .uninit _ => some 5
  | .impossible => none

/-- The refusals. Every instruction has its meaning, so no arm of `exec` answers one. SAFE. -/
inductive Refusal where
  /-- Raised by an arm of `exec` whose instruction has no meaning yet (none is left). -/
  | notModelled (mnemonic : String)
  deriving DecidableEq, Repr

/-- The controller's phase (R21). The code 3 of a two-bit encoding has no value here: it is not a state. -/
inductive Phase where
  | fetch
  | decodeExecute
  | writeback
  deriving DecidableEq, Repr

/-- The source's numeric codes of the phases (R21). -/
def Phase.code : Phase → Nat
  | .fetch => 0
  | .decodeExecute => 1
  | .writeback => 2

/-- The BackingStore's contents, one entry a byte that is not 0, addresses strictly rising (R31, R60, D38). -/
abbrev Memory := List Host.Cell

/-- A line: 16 Words, indexed by line offset (R32). -/
abbrev Line := Vector Word lineWords

/-- A cache: the resident set (tags strictly rising), the recency list (most recently used first) and the capacity
in lines (R32). A tag, "itself an address, a multiple of 64" (R53), is a key, so it is held as a natural number. -/
structure Cache where
  resident : List (Nat × Line)
  recency : List Nat
  capacity : Nat
  deriving DecidableEq, Repr

/-- What stands in front of the BackingStore: the two caches of the Cached component (R33), or nothing in the
Uncached component (R38). -/
inductive Front where
  | cached (icache dcache : Cache)
  | uncached
  deriving DecidableEq, Repr

/-- A memory component (R31, R34 to R38). -/
structure MemComponent where
  /-- `mem`, the BackingStore (R31). -/
  mem : Memory
  /-- `wait`, the wait counter (R34): an unbounded natural number (D31). -/
  wait : Nat
  /-- `fetchAddr`, the latched fetch address (R35). -/
  fetchAddr : Option Word
  /-- `dataReq`, the latched data request (R36). -/
  dataReq : Option (Word × OpKind)
  /-- `noMem`, the no-memory-operation flag (R37). -/
  noMem : Bool
  /-- The caches, or none (R33, R38, R39). -/
  front : Front
  deriving DecidableEq, Repr

/-- The reference CSR file (R264): one Word for each of 4096 numbers, held as the list of those that are not 0,
numbers strictly rising, and the pending host message. -/
structure CsrFile where
  words : List (Nat × Word)
  msg : Option Word
  deriving DecidableEq, Repr

/-- The reference register file (R24): 32 registers of 32 bits. The cells of `x0` are never read or written (R25). -/
structure RegFile where
  /-- What each register holds. -/
  cells : Vector Word 32
  /-- Which registers hold no value (R26). None does after `State.reset`. -/
  noValue : Vector Bool 32
  deriving DecidableEq, Repr

/-- The whole state. The register file and the CSR file are external collaborators that a model takes as parameters
(R6, R10), so their states are parameters of the type; without them, `State` is the state of the machine with the
reference register file and the reference CSR file. -/
structure State (ρ : Type := RegFile) (κ : Type := CsrFile) where
  /-- The parameters the core was constructed with (R10); no step writes them. -/
  params : Params
  /-- `ip`, the instruction pointer (R20, R23). -/
  ip : Word
  /-- `phase` (R21). -/
  phase : Phase
  /-- `instr`, the in-flight instruction (R22). -/
  instr : Option Record
  /-- The register file (R24). -/
  regs : ρ
  /-- The CSR file (R29, R264). -/
  csr : κ
  /-- The memory component that serves the controller (R39). -/
  memc : MemComponent
  /-- `fault`, the recorded fault (R250). -/
  fault : Option Fault
  deriving DecidableEq, Repr

/-- The CSR file's reset state: every Word 0, no message (R269). -/
def CsrFile.reset : CsrFile where
  words := []
  msg := none

/-- An empty cache of a given capacity ("caches are created empty", R44, R281). -/
def Cache.empty (capacity : Nat) : Cache where
  resident := []
  recency := []
  capacity := capacity

/-- The caches a core is created with (R33, R38, R39). -/
def Front.create (p : Params) : Front :=
  match p.memModel with
  | .cached => .cached (Cache.empty p.icacheLines) (Cache.empty p.dcacheLines)
  | .uncached => .uncached

/-- The memory component at power-on, before an image is loaded: the BackingStore all zero, `wait` 0, no latch,
`noMem` false (R44, R281). -/
def MemComponent.create (p : Params) : MemComponent where
  mem := []
  wait := 0
  fetchAddr := none
  dataReq := none
  noMem := false
  front := Front.create p

/-- The reference register file as it is created: the launch values REG_INIT (R26), and 0 in `x0` (R25). -/
def RegFile.launch (p : Params) : RegFile where
  cells := Vector.set ⟨(p.regInit.toList.map (·.getD 0)).toArray, by simp⟩ 0 0
  noValue := Vector.set ⟨(p.regInit.toList.map Option.isNone).toArray, by simp⟩ 0 false

/-- The core as it is created around a register file and a CSR file, with no image (R44 "power-on value", R281). `ip`
holds RESET_IP, as the table of R44 has it. -/
def State.create {ρ κ : Type} (p : Params) (regs : ρ) (csr : κ) : State ρ κ where
  params := p
  ip := p.resetIp
  phase := .fetch
  instr := none
  regs := regs
  csr := csr
  memc := MemComponent.create p
  fault := none

/-- The core as it is created with the reference files (R26, R44, R269, R281). -/
def State.powerOn (p : Params) : State := State.create p (RegFile.launch p) CsrFile.reset

/-- The machine right after reset: the core of the reference parameters, at power-on, after `Reset(RESET_IP)`
(R280 to R282), with no image loaded. -/
def State.reset : State := State.powerOn Params.reference

end Sys2Proof.Machine
end

