-- ==== Sys2Proof/Machine/Flags.lean ====
section
/-! DEFINITION. The comparison functions. The core has no status flags, condition codes or predicate registers (R28):
a conditional branch evaluates its comparison function on its two operand values. -/

namespace Sys2Proof.Machine

/-- `BrFn` (R200): signed comparisons read both operands as two's complement. -/
def brFn : BrOp → Word → Word → Bool
  | .eq, a, b => a == b
  | .ne, a, b => a != b
  | .lt, a, b => decide (a.toInt < b.toInt)
  | .ltu, a, b => decide (a.toNat < b.toNat)
  | .ge, a, b => decide (b.toInt ≤ a.toInt)
  | .geu, a, b => decide (b.toNat ≤ a.toNat)
  | .always, _, _ => true
  | .never, _, _ => false

end Sys2Proof.Machine
end

