-- ==== Sys2Proof/WellFormed.lean ====
section
/-! DEFINITION. Well-formedness: of an instruction (its immediate is one its encoding can hold, R90 to R95), and of a
decoded record (exactly the fields its kind declares, R83). -/

namespace Sys2Proof

/-- An I- or S-immediate: the sign extension of a 12-bit value, -2048 .. 2047 (R90, R91). -/
def isImm12 (v : Word) : Bool := v == (v.setWidth 12).signExtend 32

/-- A B-immediate: even, the sign extension of a 13-bit value, -4096 .. 4094 (R92). -/
def isImm13Even (v : Word) : Bool := v == (v.setWidth 13).signExtend 32 && !v.getLsbD 0

/-- A U-immediate: the low 12 bits are zero (R93). -/
def isImmUpper (v : Word) : Bool := v.setWidth 12 == 0

/-- A J-immediate: even, the sign extension of a 21-bit value, -1048576 .. 1048574 (R94). -/
def isImm21Even (v : Word) : Bool := v == (v.setWidth 21).signExtend 32 && !v.getLsbD 0

/-- A shift amount, 0 .. 31 (R95). -/
def isShamt (v : Word) : Bool := decide (v.toNat < 32)

/-- An instruction is well formed when its immediate is one that its encoding can hold. Register and CSR numbers are
in range by their types. -/
def Instr.wellFormed : Instr → Bool
  | .add _ _ _ | .sub _ _ _ | .sll _ _ _ | .slt _ _ _ | .sltu _ _ _ => true
  | .xor _ _ _ | .srl _ _ _ | .sra _ _ _ | .or _ _ _ | .and _ _ _ => true
  | .addi _ _ imm | .slti _ _ imm | .sltiu _ _ imm | .xori _ _ imm | .ori _ _ imm | .andi _ _ imm => isImm12 imm
  | .slli _ _ sh | .srli _ _ sh | .srai _ _ sh => isShamt sh
  | .lui _ imm | .auipc _ imm => isImmUpper imm
  | .jal _ imm => isImm21Even imm
  | .jalr _ _ imm => isImm12 imm
  | .beq _ _ imm | .bne _ _ imm | .blt _ _ imm | .bge _ _ imm | .bltu _ _ imm | .bgeu _ _ imm => isImm13Even imm
  | .lw _ _ imm => isImm12 imm
  | .sw _ _ imm => isImm12 imm
  | .csrrs _ _ => true
  | .csrrw _ _ => true

/-- The record shape of each kind (R83): exactly the fields its row marks "yes" and no others. The function selectors
`aluOp` and `brOp` are never absent (R80), so the rows' "aluOp used" and "brOp used" columns ask nothing more. -/
def Record.wellFormed (r : Record) : Bool :=
  match r.kind with
  | .alu => r.rs1.isSome && (r.rs2.isSome != r.imm.isSome) && r.rd.isSome && r.csr.isNone
  | .ld => r.rs1.isSome && r.rs2.isNone && r.rd.isSome && r.imm.isSome && r.csr.isNone
  | .st => r.rs1.isSome && r.rs2.isSome && r.rd.isNone && r.imm.isSome && r.csr.isNone
  | .csrw => r.rs1.isSome && r.rs2.isNone && r.rd.isNone && r.imm.isNone && r.csr.isSome
  | .csrr => r.rs1.isNone && r.rs2.isNone && r.rd.isSome && r.imm.isNone && r.csr.isSome
  | .j => r.rs1.isNone && r.rs2.isNone && r.rd.isSome && r.imm.isSome && r.csr.isNone
  | .br => r.rs1.isSome && r.rs2.isSome && r.rd.isNone && r.imm.isSome && r.csr.isNone
  | .jr => r.rs1.isSome && r.rs2.isNone && r.rd.isSome && r.imm.isSome && r.csr.isNone
  | .auipc => r.rs1.isNone && r.rs2.isNone && r.rd.isSome && r.imm.isSome && r.csr.isNone

end Sys2Proof
end

