-- ==== Sys2Proof/Decode.lean ====
section
/-! DEFINITION. The reference decoder (30_encoding.md R86 to R101) and, after it, the encoder, both written from the
encoding tables of R88 to R98. Decoding is total: every word is an instruction or is rejected by name. -/

namespace Sys2Proof

/-- Why a word spells no instruction of this core (R99). -/
inductive Reject where
  /-- `w[1:0]` is not 11: the compressed space (R87). -/
  | compressedSpace
  /-- FENCE and FENCE.I, opcode 0x0F (R72, R99). -/
  | fence
  /-- RV32A, opcode 0x2F (R76, R99). -/
  | atomic
  /-- Every other opcode outside R97. -/
  | opcode
  /-- OP with a funct7 and funct3 of no row, all of RV32M among them. -/
  | opFunct7
  /-- A shift by immediate whose `w[31:25]` is of no row. -/
  | shiftFunct7
  /-- JALR with funct3 not 000. -/
  | jalrFunct3
  /-- BRANCH with funct3 010 or 011. -/
  | branchFunct3
  /-- LOAD with funct3 not 010: LB, LH, LBU, LHU and the rest. -/
  | loadFunct3
  /-- STORE with funct3 not 010: SB, SH and the rest. -/
  | storeFunct3
  /-- SYSTEM with funct3 000: ECALL, EBREAK, MRET, SRET, WFI and the rest. -/
  | systemCall
  /-- CSRRS with rs1 not x0. -/
  | csrrsRs1
  /-- CSRRW with rd not x0. -/
  | csrrwRd
  /-- CSRRC, CSRRWI, CSRRSI, CSRRCI and SYSTEM with funct3 100. -/
  | csrForm
  deriving DecidableEq, Repr

/-! ## Fields (R88, R89) -/

/-- The register a 5-bit field names: `x0` to `x31` directly (R89). -/
def regOfBits (b : BitVec 5) : RegId := b.toFin

/-- The 5-bit field that names a register. -/
def regBits (r : RegId) : BitVec 5 := BitVec.ofFin r

/-- `opcode = w[6:0]`. -/
def fOpcode (w : Word) : BitVec 7 := w.extractLsb' 0 7

/-- `rd = w[11:7]`. -/
def fRd (w : Word) : RegId := regOfBits (w.extractLsb' 7 5)

/-- `funct3 = w[14:12]`. -/
def fFunct3 (w : Word) : BitVec 3 := w.extractLsb' 12 3

/-- `rs1 = w[19:15]`. -/
def fRs1 (w : Word) : RegId := regOfBits (w.extractLsb' 15 5)

/-- `rs2 = w[24:20]`. -/
def fRs2 (w : Word) : RegId := regOfBits (w.extractLsb' 20 5)

/-- `funct7 = w[31:25]`. -/
def fFunct7 (w : Word) : BitVec 7 := w.extractLsb' 25 7

/-- `csr = w[31:20]` (R96). -/
def fCsr (w : Word) : CsrId := w.extractLsb' 20 12

/-! ## Immediates (R90 to R95) -/

/-- `immI(w) = sext_12(w[31:20])` (R90). -/
def immI (w : Word) : Word := (w.extractLsb' 20 12).signExtend 32

/-- `immS(w) = sext_12({w[31:25], w[11:7]})` (R91). -/
def immS (w : Word) : Word := (w.extractLsb' 25 7 ++ w.extractLsb' 7 5 : BitVec 12).signExtend 32

/-- `immB(w) = sext_13({w[31], w[7], w[30:25], w[11:8], 0})` (R92). -/
def immB (w : Word) : Word :=
  (w.extractLsb' 31 1 ++ w.extractLsb' 7 1 ++ w.extractLsb' 25 6 ++ w.extractLsb' 8 4 ++ 0#1 : BitVec 13).signExtend 32

/-- `immU(w) = {w[31:12], 0x000}` (R93). -/
def immU (w : Word) : Word := (w.extractLsb' 12 20 ++ 0#12 : BitVec 32)

/-- `immJ(w) = sext_21({w[31], w[19:12], w[20], w[30:21], 0})` (R94). -/
def immJ (w : Word) : Word :=
  (w.extractLsb' 31 1 ++ w.extractLsb' 12 8 ++ w.extractLsb' 20 1 ++ w.extractLsb' 21 10 ++ 0#1
    : BitVec 21).signExtend 32

/-- `imm = zext_5(w[24:20])`, the shift amount (R95). -/
def immShamt (w : Word) : Word := (w.extractLsb' 20 5).setWidth 32

/-! ## The decoder (R97, R98, R99) -/

/-- OP, opcode 0x33. -/
def decodeOp (w : Word) : Except Reject Instr :=
  if fFunct7 w = 0x00#7 then
    if fFunct3 w = 0b000#3 then .ok (.add (fRd w) (fRs1 w) (fRs2 w))
    else if fFunct3 w = 0b001#3 then .ok (.sll (fRd w) (fRs1 w) (fRs2 w))
    else if fFunct3 w = 0b010#3 then .ok (.slt (fRd w) (fRs1 w) (fRs2 w))
    else if fFunct3 w = 0b011#3 then .ok (.sltu (fRd w) (fRs1 w) (fRs2 w))
    else if fFunct3 w = 0b100#3 then .ok (.xor (fRd w) (fRs1 w) (fRs2 w))
    else if fFunct3 w = 0b101#3 then .ok (.srl (fRd w) (fRs1 w) (fRs2 w))
    else if fFunct3 w = 0b110#3 then .ok (.or (fRd w) (fRs1 w) (fRs2 w))
    else .ok (.and (fRd w) (fRs1 w) (fRs2 w))
  else if fFunct7 w = 0x20#7 then
    if fFunct3 w = 0b000#3 then .ok (.sub (fRd w) (fRs1 w) (fRs2 w))
    else if fFunct3 w = 0b101#3 then .ok (.sra (fRd w) (fRs1 w) (fRs2 w))
    else .error .opFunct7
  else .error .opFunct7

/-- OP-IMM, opcode 0x13. -/
def decodeOpImm (w : Word) : Except Reject Instr :=
  if fFunct3 w = 0b000#3 then .ok (.addi (fRd w) (fRs1 w) (immI w))
  else if fFunct3 w = 0b010#3 then .ok (.slti (fRd w) (fRs1 w) (immI w))
  else if fFunct3 w = 0b011#3 then .ok (.sltiu (fRd w) (fRs1 w) (immI w))
  else if fFunct3 w = 0b100#3 then .ok (.xori (fRd w) (fRs1 w) (immI w))
  else if fFunct3 w = 0b110#3 then .ok (.ori (fRd w) (fRs1 w) (immI w))
  else if fFunct3 w = 0b111#3 then .ok (.andi (fRd w) (fRs1 w) (immI w))
  else if fFunct3 w = 0b001#3 then
    if fFunct7 w = 0x00#7 then .ok (.slli (fRd w) (fRs1 w) (immShamt w)) else .error .shiftFunct7
  else
    if fFunct7 w = 0x00#7 then .ok (.srli (fRd w) (fRs1 w) (immShamt w))
    else if fFunct7 w = 0x20#7 then .ok (.srai (fRd w) (fRs1 w) (immShamt w))
    else .error .shiftFunct7

/-- BRANCH, opcode 0x63. -/
def decodeBranch (w : Word) : Except Reject Instr :=
  if fFunct3 w = 0b000#3 then .ok (.beq (fRs1 w) (fRs2 w) (immB w))
  else if fFunct3 w = 0b001#3 then .ok (.bne (fRs1 w) (fRs2 w) (immB w))
  else if fFunct3 w = 0b100#3 then .ok (.blt (fRs1 w) (fRs2 w) (immB w))
  else if fFunct3 w = 0b101#3 then .ok (.bge (fRs1 w) (fRs2 w) (immB w))
  else if fFunct3 w = 0b110#3 then .ok (.bltu (fRs1 w) (fRs2 w) (immB w))
  else if fFunct3 w = 0b111#3 then .ok (.bgeu (fRs1 w) (fRs2 w) (immB w))
  else .error .branchFunct3

/-- SYSTEM, opcode 0x73: CSRRS with rs1 = x0 and CSRRW with rd = x0 only. -/
def decodeSystem (w : Word) : Except Reject Instr :=
  if fFunct3 w = 0b010#3 then
    if fRs1 w = 0 then .ok (.csrrs (fRd w) (fCsr w)) else .error .csrrsRs1
  else if fFunct3 w = 0b001#3 then
    if fRd w = 0 then .ok (.csrrw (fCsr w) (fRs1 w)) else .error .csrrwRd
  else if fFunct3 w = 0b000#3 then .error .systemCall
  else .error .csrForm

/-- The word decoder: which instruction a word spells, or why it spells none (R87, R97 to R99). -/
def decode (w : Word) : Except Reject Instr :=
  if fOpcode w = 0x33#7 then decodeOp w
  else if fOpcode w = 0x13#7 then decodeOpImm w
  else if fOpcode w = 0x37#7 then .ok (.lui (fRd w) (immU w))
  else if fOpcode w = 0x17#7 then .ok (.auipc (fRd w) (immU w))
  else if fOpcode w = 0x6F#7 then .ok (.jal (fRd w) (immJ w))
  else if fOpcode w = 0x67#7 then
    if fFunct3 w = 0b000#3 then .ok (.jalr (fRd w) (fRs1 w) (immI w)) else .error .jalrFunct3
  else if fOpcode w = 0x63#7 then decodeBranch w
  else if fOpcode w = 0x03#7 then
    if fFunct3 w = 0b010#3 then .ok (.lw (fRd w) (fRs1 w) (immI w)) else .error .loadFunct3
  else if fOpcode w = 0x23#7 then
    if fFunct3 w = 0b010#3 then .ok (.sw (fRs1 w) (fRs2 w) (immS w)) else .error .storeFunct3
  else if fOpcode w = 0x73#7 then decodeSystem w
  else if fOpcode w = 0x0F#7 then .error .fence
  else if fOpcode w = 0x2F#7 then .error .atomic
  else if w.extractLsb' 0 2 = 0b11#2 then .error .opcode
  else .error .compressedSpace

/-! ## The records (R98, column "record") -/

/-- Record: ALU, aluOp, rs1, rs2, rd. -/
def recAluReg (op : AluOp) (rd rs1 rs2 : RegId) : Record :=
  { kind := .alu, aluOp := op, rs1 := some rs1, rs2 := some rs2, rd := some rd }

/-- Record: ALU, aluOp, rs1, imm, rd. -/
def recAluImm (op : AluOp) (rd rs1 : RegId) (imm : Word) : Record :=
  { kind := .alu, aluOp := op, rs1 := some rs1, imm := some imm, rd := some rd }

/-- Record: AUIPC, imm, rd. -/
def recAuipc (rd : RegId) (imm : Word) : Record :=
  { kind := .auipc, imm := some imm, rd := some rd }

/-- Record: J, brOp at, imm, rd. -/
def recJump (rd : RegId) (imm : Word) : Record :=
  { kind := .j, brOp := .always, imm := some imm, rd := some rd }

/-- Record: JR, brOp at, rs1, imm, rd. -/
def recJumpReg (rd rs1 : RegId) (imm : Word) : Record :=
  { kind := .jr, brOp := .always, rs1 := some rs1, imm := some imm, rd := some rd }

/-- Record: BR, brOp, rs1, rs2, imm. -/
def recBranch (op : BrOp) (rs1 rs2 : RegId) (imm : Word) : Record :=
  { kind := .br, brOp := op, rs1 := some rs1, rs2 := some rs2, imm := some imm }

/-- Record: LD, aluOp add, rs1, imm, rd. -/
def recLoad (rd rs1 : RegId) (imm : Word) : Record :=
  { kind := .ld, aluOp := .add, rs1 := some rs1, imm := some imm, rd := some rd }

/-- Record: ST, aluOp add, rs1, rs2, imm. -/
def recStore (rs1 rs2 : RegId) (imm : Word) : Record :=
  { kind := .st, aluOp := .add, rs1 := some rs1, rs2 := some rs2, imm := some imm }

/-- Record: CSRR, csr, rd. -/
def recCsrRead (rd : RegId) (csr : CsrId) : Record :=
  { kind := .csrr, csr := some csr, rd := some rd }

/-- Record: CSRW, rs1, csr. -/
def recCsrWrite (csr : CsrId) (rs1 : RegId) : Record :=
  { kind := .csrw, rs1 := some rs1, csr := some csr }

/-- The record of each instruction (R98). LUI is an ALU add of the immediate to `x0` (R192). -/
def Instr.toRecord : Instr → Record
  | .add rd rs1 rs2 => recAluReg .add rd rs1 rs2
  | .sub rd rs1 rs2 => recAluReg .sub rd rs1 rs2
  | .sll rd rs1 rs2 => recAluReg .sll rd rs1 rs2
  | .slt rd rs1 rs2 => recAluReg .slt rd rs1 rs2
  | .sltu rd rs1 rs2 => recAluReg .sltu rd rs1 rs2
  | .xor rd rs1 rs2 => recAluReg .xor rd rs1 rs2
  | .srl rd rs1 rs2 => recAluReg .srl rd rs1 rs2
  | .sra rd rs1 rs2 => recAluReg .sra rd rs1 rs2
  | .or rd rs1 rs2 => recAluReg .or rd rs1 rs2
  | .and rd rs1 rs2 => recAluReg .and rd rs1 rs2
  | .addi rd rs1 imm => recAluImm .add rd rs1 imm
  | .slti rd rs1 imm => recAluImm .slt rd rs1 imm
  | .sltiu rd rs1 imm => recAluImm .sltu rd rs1 imm
  | .xori rd rs1 imm => recAluImm .xor rd rs1 imm
  | .ori rd rs1 imm => recAluImm .or rd rs1 imm
  | .andi rd rs1 imm => recAluImm .and rd rs1 imm
  | .slli rd rs1 sh => recAluImm .sll rd rs1 sh
  | .srli rd rs1 sh => recAluImm .srl rd rs1 sh
  | .srai rd rs1 sh => recAluImm .sra rd rs1 sh
  | .lui rd imm => recAluImm .add rd 0 imm
  | .auipc rd imm => recAuipc rd imm
  | .jal rd imm => recJump rd imm
  | .jalr rd rs1 imm => recJumpReg rd rs1 imm
  | .beq rs1 rs2 imm => recBranch .eq rs1 rs2 imm
  | .bne rs1 rs2 imm => recBranch .ne rs1 rs2 imm
  | .blt rs1 rs2 imm => recBranch .lt rs1 rs2 imm
  | .bge rs1 rs2 imm => recBranch .ge rs1 rs2 imm
  | .bltu rs1 rs2 imm => recBranch .ltu rs1 rs2 imm
  | .bgeu rs1 rs2 imm => recBranch .geu rs1 rs2 imm
  | .lw rd rs1 imm => recLoad rd rs1 imm
  | .sw rs1 rs2 imm => recStore rs1 rs2 imm
  | .csrrs rd csr => recCsrRead rd csr
  | .csrrw csr rs1 => recCsrWrite csr rs1

/-- The reference decoder, the parameter DECODER's reference realisation: a word to a record, or a refusal (R86). -/
def referenceDecoder (w : Word) : Option Record := (decode w).toOption.map Instr.toRecord

/-! ## The table of R98, as it stands

A second reading of the same rule, kept beside the decoder so that the two can be compared. -/

/-- One row of the table of R98. -/
structure TableRow where
  mnemonic : String
  bits : Word
  mask : Word
  record : Word → Record

/-- The rows for opcodes 0x33 (OP). -/
def tableOp : List TableRow :=
  [⟨"ADD", 0x00000033, 0xFE00707F, fun w => recAluReg .add (fRd w) (fRs1 w) (fRs2 w)⟩,
   ⟨"SUB", 0x40000033, 0xFE00707F, fun w => recAluReg .sub (fRd w) (fRs1 w) (fRs2 w)⟩,
   ⟨"SLL", 0x00001033, 0xFE00707F, fun w => recAluReg .sll (fRd w) (fRs1 w) (fRs2 w)⟩,
   ⟨"SLT", 0x00002033, 0xFE00707F, fun w => recAluReg .slt (fRd w) (fRs1 w) (fRs2 w)⟩,
   ⟨"SLTU", 0x00003033, 0xFE00707F, fun w => recAluReg .sltu (fRd w) (fRs1 w) (fRs2 w)⟩,
   ⟨"XOR", 0x00004033, 0xFE00707F, fun w => recAluReg .xor (fRd w) (fRs1 w) (fRs2 w)⟩,
   ⟨"SRL", 0x00005033, 0xFE00707F, fun w => recAluReg .srl (fRd w) (fRs1 w) (fRs2 w)⟩,
   ⟨"SRA", 0x40005033, 0xFE00707F, fun w => recAluReg .sra (fRd w) (fRs1 w) (fRs2 w)⟩,
   ⟨"OR", 0x00006033, 0xFE00707F, fun w => recAluReg .or (fRd w) (fRs1 w) (fRs2 w)⟩,
   ⟨"AND", 0x00007033, 0xFE00707F, fun w => recAluReg .and (fRd w) (fRs1 w) (fRs2 w)⟩]

/-- The rows for opcode 0x13 (OP-IMM), LUI and AUIPC. -/
def tableImm : List TableRow :=
  [⟨"ADDI", 0x00000013, 0x0000707F, fun w => recAluImm .add (fRd w) (fRs1 w) (immI w)⟩,
   ⟨"SLTI", 0x00002013, 0x0000707F, fun w => recAluImm .slt (fRd w) (fRs1 w) (immI w)⟩,
   ⟨"SLTIU", 0x00003013, 0x0000707F, fun w => recAluImm .sltu (fRd w) (fRs1 w) (immI w)⟩,
   ⟨"XORI", 0x00004013, 0x0000707F, fun w => recAluImm .xor (fRd w) (fRs1 w) (immI w)⟩,
   ⟨"ORI", 0x00006013, 0x0000707F, fun w => recAluImm .or (fRd w) (fRs1 w) (immI w)⟩,
   ⟨"ANDI", 0x00007013, 0x0000707F, fun w => recAluImm .and (fRd w) (fRs1 w) (immI w)⟩,
   ⟨"SLLI", 0x00001013, 0xFE00707F, fun w => recAluImm .sll (fRd w) (fRs1 w) (immShamt w)⟩,
   ⟨"SRLI", 0x00005013, 0xFE00707F, fun w => recAluImm .srl (fRd w) (fRs1 w) (immShamt w)⟩,
   ⟨"SRAI", 0x40005013, 0xFE00707F, fun w => recAluImm .sra (fRd w) (fRs1 w) (immShamt w)⟩,
   ⟨"LUI", 0x00000037, 0x0000007F, fun w => recAluImm .add (fRd w) 0 (immU w)⟩,
   ⟨"AUIPC", 0x00000017, 0x0000007F, fun w => recAuipc (fRd w) (immU w)⟩]

/-- The rows for the jumps, branches, loads, stores and CSR accesses. -/
def tableRest : List TableRow :=
  [⟨"JAL", 0x0000006F, 0x0000007F, fun w => recJump (fRd w) (immJ w)⟩,
   ⟨"JALR", 0x00000067, 0x0000707F, fun w => recJumpReg (fRd w) (fRs1 w) (immI w)⟩,
   ⟨"BEQ", 0x00000063, 0x0000707F, fun w => recBranch .eq (fRs1 w) (fRs2 w) (immB w)⟩,
   ⟨"BNE", 0x00001063, 0x0000707F, fun w => recBranch .ne (fRs1 w) (fRs2 w) (immB w)⟩,
   ⟨"BLT", 0x00004063, 0x0000707F, fun w => recBranch .lt (fRs1 w) (fRs2 w) (immB w)⟩,
   ⟨"BGE", 0x00005063, 0x0000707F, fun w => recBranch .ge (fRs1 w) (fRs2 w) (immB w)⟩,
   ⟨"BLTU", 0x00006063, 0x0000707F, fun w => recBranch .ltu (fRs1 w) (fRs2 w) (immB w)⟩,
   ⟨"BGEU", 0x00007063, 0x0000707F, fun w => recBranch .geu (fRs1 w) (fRs2 w) (immB w)⟩,
   ⟨"LW", 0x00002003, 0x0000707F, fun w => recLoad (fRd w) (fRs1 w) (immI w)⟩,
   ⟨"SW", 0x00002023, 0x0000707F, fun w => recStore (fRs1 w) (fRs2 w) (immS w)⟩,
   ⟨"CSRRS", 0x00002073, 0x000FF07F, fun w => recCsrRead (fRd w) (fCsr w)⟩,
   ⟨"CSRRW", 0x00001073, 0x00007FFF, fun w => recCsrWrite (fCsr w) (fRs1 w)⟩]

/-- The table of R98, in its order. -/
def decoderTable : List TableRow := tableOp ++ tableImm ++ tableRest

/-- "Maps a word `w` to a record by the first row of this table whose `(w & mask) = match`" (R98). -/
def tableDecoder (w : Word) : Option Record :=
  (decoderTable.find? fun r => w &&& r.mask == r.bits).map fun r => r.record w

/-! ## The encoder -/

/-- R format (R88). -/
def encR (f7 : BitVec 7) (rs2 rs1 : RegId) (f3 : BitVec 3) (rd : RegId) (op : BitVec 7) : Word :=
  (f7 ++ regBits rs2 ++ regBits rs1 ++ f3 ++ regBits rd ++ op : BitVec 32)

/-- I format (R88, R90). -/
def encI (imm : Word) (rs1 : RegId) (f3 : BitVec 3) (rd : RegId) (op : BitVec 7) : Word :=
  (imm.extractLsb' 0 12 ++ regBits rs1 ++ f3 ++ regBits rd ++ op : BitVec 32)

/-- I-shift format (R88, R95). -/
def encShift (f7 : BitVec 7) (sh : Word) (rs1 : RegId) (f3 : BitVec 3) (rd : RegId) (op : BitVec 7) : Word :=
  (f7 ++ sh.extractLsb' 0 5 ++ regBits rs1 ++ f3 ++ regBits rd ++ op : BitVec 32)

/-- S format (R88, R91). -/
def encS (imm : Word) (rs2 rs1 : RegId) (f3 : BitVec 3) (op : BitVec 7) : Word :=
  (imm.extractLsb' 5 7 ++ regBits rs2 ++ regBits rs1 ++ f3 ++ imm.extractLsb' 0 5 ++ op : BitVec 32)

/-- B format (R88, R92). -/
def encB (imm : Word) (rs2 rs1 : RegId) (f3 : BitVec 3) (op : BitVec 7) : Word :=
  (imm.extractLsb' 12 1 ++ imm.extractLsb' 5 6 ++ regBits rs2 ++ regBits rs1 ++ f3 ++ imm.extractLsb' 1 4
    ++ imm.extractLsb' 11 1 ++ op : BitVec 32)

/-- U format (R88, R93). -/
def encU (imm : Word) (rd : RegId) (op : BitVec 7) : Word :=
  (imm.extractLsb' 12 20 ++ regBits rd ++ op : BitVec 32)

/-- J format (R88, R94). -/
def encJ (imm : Word) (rd : RegId) (op : BitVec 7) : Word :=
  (imm.extractLsb' 20 1 ++ imm.extractLsb' 1 10 ++ imm.extractLsb' 11 1 ++ imm.extractLsb' 12 8 ++ regBits rd ++ op
    : BitVec 32)

/-- I-csr format (R88, R96). -/
def encCsr (csr : CsrId) (rs1 : RegId) (f3 : BitVec 3) (rd : RegId) (op : BitVec 7) : Word :=
  (csr ++ regBits rs1 ++ f3 ++ regBits rd ++ op : BitVec 32)

/-- The word of a well-formed instruction (R88 to R98). -/
def encode : Instr → Word
  | .add rd rs1 rs2 => encR 0x00 rs2 rs1 0b000 rd 0x33
  | .sub rd rs1 rs2 => encR 0x20 rs2 rs1 0b000 rd 0x33
  | .sll rd rs1 rs2 => encR 0x00 rs2 rs1 0b001 rd 0x33
  | .slt rd rs1 rs2 => encR 0x00 rs2 rs1 0b010 rd 0x33
  | .sltu rd rs1 rs2 => encR 0x00 rs2 rs1 0b011 rd 0x33
  | .xor rd rs1 rs2 => encR 0x00 rs2 rs1 0b100 rd 0x33
  | .srl rd rs1 rs2 => encR 0x00 rs2 rs1 0b101 rd 0x33
  | .sra rd rs1 rs2 => encR 0x20 rs2 rs1 0b101 rd 0x33
  | .or rd rs1 rs2 => encR 0x00 rs2 rs1 0b110 rd 0x33
  | .and rd rs1 rs2 => encR 0x00 rs2 rs1 0b111 rd 0x33
  | .addi rd rs1 imm => encI imm rs1 0b000 rd 0x13
  | .slti rd rs1 imm => encI imm rs1 0b010 rd 0x13
  | .sltiu rd rs1 imm => encI imm rs1 0b011 rd 0x13
  | .xori rd rs1 imm => encI imm rs1 0b100 rd 0x13
  | .ori rd rs1 imm => encI imm rs1 0b110 rd 0x13
  | .andi rd rs1 imm => encI imm rs1 0b111 rd 0x13
  | .slli rd rs1 sh => encShift 0x00 sh rs1 0b001 rd 0x13
  | .srli rd rs1 sh => encShift 0x00 sh rs1 0b101 rd 0x13
  | .srai rd rs1 sh => encShift 0x20 sh rs1 0b101 rd 0x13
  | .lui rd imm => encU imm rd 0x37
  | .auipc rd imm => encU imm rd 0x17
  | .jal rd imm => encJ imm rd 0x6F
  | .jalr rd rs1 imm => encI imm rs1 0b000 rd 0x67
  | .beq rs1 rs2 imm => encB imm rs2 rs1 0b000 0x63
  | .bne rs1 rs2 imm => encB imm rs2 rs1 0b001 0x63
  | .blt rs1 rs2 imm => encB imm rs2 rs1 0b100 0x63
  | .bge rs1 rs2 imm => encB imm rs2 rs1 0b101 0x63
  | .bltu rs1 rs2 imm => encB imm rs2 rs1 0b110 0x63
  | .bgeu rs1 rs2 imm => encB imm rs2 rs1 0b111 0x63
  | .lw rd rs1 imm => encI imm rs1 0b010 rd 0x03
  | .sw rs1 rs2 imm => encS imm rs2 rs1 0b010 0x23
  | .csrrs rd csr => encCsr csr 0 0b010 rd 0x73
  | .csrrw csr rs1 => encCsr csr rs1 0b001 0 0x73

/-- The host's question to the decoder: the instruction of the table word `w`, of which the low `nbits` count.
Every instruction is one Word (R87), so the bits above `nbits` are zeros of that Word. -/
def decodeTableWord (nbits w : Nat) : Option Instr := (decode (BitVec.ofNat 32 (w % 2 ^ nbits))).toOption

end Sys2Proof
end

