-- ==== Sys2Proof/Machine/Assoc.lean ====
section
/-! DEFINITION. Sparse maps as lists of key and value pairs: the one realisation of memory (R31), the CSR file's Words
(R264) and a cache's resident set (R32). In canonical form the keys rise strictly. -/

namespace Sys2Proof.Machine

/-- The value at a key, if the map has the key. -/
def Assoc.find? {α : Type} : List (Nat × α) → Nat → Option α
  | [], _ => none
  | (k', v) :: m, k => if k = k' then some v else Assoc.find? m k

/-- The map with `k` mapped to `v`; the order of the keys is kept. -/
def Assoc.insert {α : Type} : List (Nat × α) → Nat → α → List (Nat × α)
  | [], k, v => [(k, v)]
  | (k', v') :: m, k, v =>
    if k < k' then (k, v) :: (k', v') :: m
    else if k = k' then (k, v) :: m
    else (k', v') :: Assoc.insert m k v

/-- The map without the key `k`. -/
def Assoc.erase {α : Type} (m : List (Nat × α)) (k : Nat) : List (Nat × α) := m.filter fun e => e.1 != k

/-- The keys of a map, in its order. -/
def Assoc.keys {α : Type} (m : List (Nat × α)) : List Nat := m.map Prod.fst

/-- The canonical order: keys strictly rising, so no key stands twice. -/
abbrev Assoc.Sorted {α : Type} (m : List (Nat × α)) : Prop := (Assoc.keys m).Pairwise (· < ·)

/-- The bits at a key of a sparse map whose unlisted keys read as `d`. -/
def Sparse.get {w : Nat} (d : BitVec w) (m : List (Nat × BitVec w)) (k : Nat) : BitVec w := (Assoc.find? m k).getD d

/-- The sparse map with `k` reading as `v`: a key that reads as `d` is not listed. -/
def Sparse.set {w : Nat} (d : BitVec w) (m : List (Nat × BitVec w)) (k : Nat) (v : BitVec w) : List (Nat × BitVec w) :=
  if v = d then Assoc.erase m k else Assoc.insert m k v

/-- The canonical form of a sparse map: keys strictly rising, no entry equal to what an unlisted key reads as. -/
def Sparse.wf {w : Nat} (d : BitVec w) (m : List (Nat × BitVec w)) : Bool :=
  decide (Assoc.Sorted m) && m.all fun e => e.2 != d

end Sys2Proof.Machine
end

