-- ==== Sys2Proof/Machine/Csr.lean ====
section
/-! DEFINITION. The reference CSR file (60_exceptions.md section 6, R264 to R269). -/

namespace Sys2Proof.Machine

/-- What a CSR that no entry lists holds: 0, its reset value (R264, R269). -/
def CsrFile.unlisted : Word := 0

/-- `read(c)`: the stored Word (R265). -/
def CsrFile.read (f : CsrFile) (c : CsrId) : Word := Sparse.get CsrFile.unlisted f.words c.toNat

/-- The stored Word of one CSR replaced, with no side effect. -/
def CsrFile.store (f : CsrFile) (c : CsrId) (v : Word) : CsrFile :=
  { f with words := Sparse.set CsrFile.unlisted f.words c.toNat v }

/-- `write(c, v)`: stores `v`; a non-zero write to HOST_CSR also raises the host message (R265, R268). -/
def CsrFile.write (p : Params) (f : CsrFile) (c : CsrId) (v : Word) : CsrFile :=
  if c = p.hostCsr ∧ v ≠ 0 then { f.store c v with msg := some v } else f.store c v

/-- `clockTick()`: CYCLE_CSR + 1 modulo 2^32 (R266). -/
def CsrFile.clockTick (p : Params) (f : CsrFile) : CsrFile := f.store p.cycleCsr (f.read p.cycleCsr + 1)

/-- `instructionRetired()`: INSTRET_CSR + 1 modulo 2^32 (R267). -/
def CsrFile.instructionRetired (p : Params) (f : CsrFile) : CsrFile := f.store p.instretCsr (f.read p.instretCsr + 1)

/-- `getPendingHostMessage()`: the message, which reading does not clear (R262, R268). -/
def CsrFile.getPendingHostMessage (f : CsrFile) : Option Word := f.msg

/-- The canonical form of the CSR file's Words, all of numbers below 4096. -/
def CsrFile.wf (f : CsrFile) : Bool := Sparse.wf CsrFile.unlisted f.words && f.words.all fun e => decide (e.1 < 4096)

end Sys2Proof.Machine
end

