-- ==== Sys2Proof/Machine/Regs.lean ====
section
/-! DEFINITION. The reference register file (10_state.md section 2, R24 to R26). -/

namespace Sys2Proof.Machine

/-- What register `i` holds: 0 for `x0` always (R25); `none` for a register that holds no value (R26). -/
def RegFile.read (f : RegFile) (i : RegId) : Option Word :=
  if i = 0 then some 0 else if f.noValue[i] then none else some f.cells[i]

/-- `x[i] <- v`: no effect on `x0` (R25); any other register holds `v` from now on. -/
def RegFile.write (f : RegFile) (i : RegId) (v : Word) : RegFile :=
  if i = 0 then f else { cells := f.cells.set i v, noValue := f.noValue.set i false }

end Sys2Proof.Machine
end

