-- ==== Sys2Proof/Machine/Contracts.lean ====
section
/-! DEFINITION. The external collaborators (00_scope.md R6): the contract by which the core consumes each, and the
reference realisation of each. "A model takes each as a parameter and may replace the reference": the controller
(Machine/Controller.lean) is written for any collaborators, with states of their own. The image loader is a parameter of
`bootWith` (Machine/Image.lean). -/

namespace Sys2Proof.Machine

/-- The contract of a register file with state `ρ` (R24, R27): zero-latency reads of the source registers that a record
declares, and the write of the destination register it declares. A read answers `none` for a register that holds no
value (R26). -/
structure RegisterFile (ρ : Type) where
  /-- The file as it is created (REG_INIT, R26). -/
  launch : ρ
  read : ρ → RegId → Option Word
  write : ρ → RegId → Word → ρ

/-- The contract of a CSR file with state `κ`, the parameter CSR_FILE (R10, R29, R262): `read`, `write`, `clock-tick`,
`instructionRetired`, `reset` and `getPendingHostMessage`. The two that answer change nothing. -/
structure ControlFile (κ : Type) where
  /-- The file as it is created. -/
  launch : κ
  read : κ → CsrId → Word
  write : κ → CsrId → Word → κ
  clockTick : κ → κ
  instructionRetired : κ → κ
  reset : κ → κ
  getPendingHostMessage : κ → Option Word

/-- What the core is built with beside its parameters: a decoder (the parameter DECODER, "a pure function with no
latency", R86; `none` is a refused word), a register file and a CSR file. -/
structure Collaborators (ρ κ : Type) where
  decoder : Word → Option Record
  regs : RegisterFile ρ
  csrs : ControlFile κ

/-- The reference register file (R24 to R26). -/
def RegisterFile.reference (p : Params) : RegisterFile RegFile where
  launch := RegFile.launch p
  read := RegFile.read
  write := RegFile.write

/-- The reference CSR file (R264 to R269). -/
def ControlFile.reference (p : Params) : ControlFile CsrFile where
  launch := CsrFile.reset
  read := CsrFile.read
  write := CsrFile.write p
  clockTick := CsrFile.clockTick p
  instructionRetired := CsrFile.instructionRetired p
  reset := fun _ => CsrFile.reset
  getPendingHostMessage := CsrFile.getPendingHostMessage

/-- The reference collaborators of a core with given parameters (R6, R10). -/
def Collaborators.reference (p : Params) : Collaborators RegFile CsrFile where
  decoder := referenceDecoder
  regs := RegisterFile.reference p
  csrs := ControlFile.reference p

end Sys2Proof.Machine
end

