-- ==== Sys2Proof/Machine/Memory.lean ====
section
/-! DEFINITION. The BackingStore (20_memory.md): address decomposition, bytes, Words and the two access primitives. -/

namespace Sys2Proof.Machine

/-! ## Address decomposition (R52 to R56) -/

/-- `wordOffset(a) = a >> 2` (R52). -/
def wordOffset (a : Word) : Word := a >>> 2

/-- `lineTag(a) = a & ~0x3F` (R53). -/
def lineTag (a : Word) : Word := a &&& 0xFFFFFFC0

/-- `lineOffset(a) = a[5:2]`, in 0 .. 15 (R54). -/
def lineOffset (a : Word) : Fin 16 := (a.extractLsb' 2 4).toFin

/-- The line tag as the key of a cache. -/
def tagOf (a : Word) : Nat := (lineTag a).toNat

/-- The BackingStore word index of an address: `a >> 2`, as a natural number (R57). -/
def wordIndex (a : Word) : Nat := (wordOffset a).toNat

/-! ## Bytes and Words (R31, R60) -/

/-- What a byte that no entry lists reads as: 0 (D38, R66, R281). -/
def Memory.unlisted : Byte := 0

/-- The byte at an address. -/
def Memory.read (m : Memory) (a : Nat) : Byte := Sparse.get Memory.unlisted m a

/-- The memory with one byte written. -/
def Memory.write (m : Memory) (a : Nat) (b : Byte) : Memory := Sparse.set Memory.unlisted m a b

/-- The canonical form of memory. -/
def Memory.wf (m : Memory) : Bool := Sparse.wf Memory.unlisted m

/-- `mem[w]`, the Word at word index `w`: `b[4w] | b[4w+1] << 8 | b[4w+2] << 16 | b[4w+3] << 24` (R60). -/
def Memory.word (m : Memory) (w : Nat) : Word :=
  (m.read (4 * w + 3) ++ m.read (4 * w + 2) ++ m.read (4 * w + 1) ++ m.read (4 * w) : BitVec 32)

/-- `mem[w] <- v` (R58, R60). -/
def Memory.setWord (m : Memory) (w : Nat) (v : Word) : Memory :=
  (((m.write (4 * w) (v.extractLsb' 0 8)).write (4 * w + 1) (v.extractLsb' 8 8)).write (4 * w + 2)
    (v.extractLsb' 16 8)).write (4 * w + 3) (v.extractLsb' 24 8)

/-- Consecutive Words written from word index `w` on, in ascending order (R152, D21). -/
def Memory.setWords (m : Memory) (w : Nat) : List Word → Memory
  | [] => m
  | v :: vs => Memory.setWords (m.setWord w v) (w + 1) vs

/-! ## The access primitives (R57, R58) -/

/-- `BackingRead(a)` (R57). -/
def backingRead (memBytes : Nat) (m : Memory) (a : Word) : Except Fault Word :=
  if memBytes ≤ a.toNat then .error (.addr a) else .ok (m.word (wordIndex a))

/-- `BackingWrite(a, v)` (R58). -/
def backingWrite (memBytes : Nat) (m : Memory) (a v : Word) : Except Fault Memory :=
  if memBytes ≤ a.toNat then .error (.addr a) else .ok (m.setWord (wordIndex a) v)

end Sys2Proof.Machine
end

