-- ==== Sys2Proof/Machine/Cache.lean ====
section
/-! DEFINITION. The LRU engine and the line allocator (41_cache_engine.md section 2). -/

namespace Sys2Proof.Machine

/-- `Hit(c, t)`: the tag is in the recency list (R141). -/
def Cache.hit (c : Cache) (t : Nat) : Bool := c.recency.contains t

/-- The resident line of a tag. -/
def Cache.line? (c : Cache) (t : Nat) : Option Line := Assoc.find? c.resident t

/-- `Remove(l, t)` of the recency list (R142). -/
def Cache.remove (c : Cache) (t : Nat) : Cache := { c with recency := c.recency.erase t }

/-- `PushFront(c, t)` (R142). -/
def Cache.pushFront (c : Cache) (t : Nat) : Cache := { c with recency := t :: c.recency }

/-- `Victim(c)`: the tail of the recency list, the least recently used tag (R144). -/
def Cache.victim? (c : Cache) : Option Nat := c.recency.getLast?

/-- `FillLine(t)`: a fresh line of the 16 Words `mem[(t >> 2) + i]` (R143, R56, R286). No read of it can be out of
range once the request's address is in range, so it raises nothing (R143, R251). -/
def fillLine (m : Memory) (t : Nat) : Line :=
  ⟨((List.range lineWords).map fun i => m.word (t / 4 + i)).toArray, by simp⟩

/-- `WriteBackLine(v, line)`: all 16 Words, at offsets 0 to 15 in ascending order (R152, R153). It raises nothing
(R251). -/
def writeBackLine (m : Memory) (v : Nat) (line : Line) : Memory := m.setWords (v / 4) line.toList

/-- The capacity test of R145 on the number of resident lines after the insertion: more than the capacity, or, with
EVICT_ON_REACH, equal to it. -/
def overCapacity (evictOnReach : Bool) (lines capacity : Nat) : Bool :=
  if evictOnReach then lines == capacity else decide (capacity < lines)

/-- The victim's removal from the recency list and from the resident set (R145). -/
def Cache.evict (c : Cache) (v : Nat) : Cache :=
  { c with recency := c.recency.erase v, resident := Assoc.erase c.resident v }

/-- `Allocate(c, t, line, isData)` (R145): the cache after the insertion and any eviction, and the evicted tag with its
line, which the data path writes back and the instruction path discards. `none` where the pseudocode needs a victim
and the cache, which is then no cache of this hardware, has none. -/
def Cache.allocate (c : Cache) (evictOnReach : Bool) (t : Nat) (line : Line) : Option (Cache × Option (Nat × Line)) :=
  let c1 := { c with resident := Assoc.insert c.resident t line }
  if overCapacity evictOnReach c1.resident.length c.capacity then
    match c1.victim? with
    | none => none
    | some v =>
      match c1.line? v with
      | none => none
      | some old => some (c1.evict v, some (v, old))
  else some (c1, none)

/-- The eviction write-back of the data path: nothing when nothing was evicted (R145, R152). -/
def writeBackVictim (m : Memory) : Option (Nat × Line) → Memory
  | none => m
  | some (v, line) => writeBackLine m v line

/-- The cache with one Word of a resident line replaced (R155, store). -/
def Cache.storeWord (c : Cache) (t : Nat) (line : Line) (o : Fin 16) (d : Word) : Cache :=
  { c with resident := Assoc.insert c.resident t (line.set o d) }

end Sys2Proof.Machine
end

