-- ==== Sys2Proof/Machine/Protocol.lean ====
section
/-! DEFINITION. The memory protocol, R130: requestFetch, pollFetch, requestData, pollData and advanceCycle, on the
Uncached Memory Port (40_uncached_port.md) and on the Cache Engine (41_cache_engine.md). -/

namespace Sys2Proof.Machine

/-- The end of an operation that changes a state: done, or a fault raised, with the effects of the statements that ran
before the raise (R250). -/
inductive Result (σ : Type) where
  | done (s : σ)
  | raised (f : Fault) (s : σ)
  deriving DecidableEq, Repr

/-- `requestFetch(a)` on the Uncached port (R132). -/
def requestFetchU (p : Params) (a : Word) (m : MemComponent) : Result MemComponent :=
  if p.memBytes ≤ a.toNat then .raised (.addr a) m
  else .done { m with fetchAddr := some a, wait := p.uncachedLatency }

/-- `requestFetch(a)` on the Cache Engine (R146). A hit leaves `wait` as it is; a miss sets it to LINE_LATENCY. An
evicted instruction line is discarded. -/
def requestFetchC (p : Params) (a : Word) (m : MemComponent) (ic dc : Cache) : Result MemComponent :=
  if p.memBytes ≤ a.toNat then .raised (.addr a) m
  else if ic.hit (tagOf a) then
    .done { m with fetchAddr := some a, front := .cached ((ic.remove (tagOf a)).pushFront (tagOf a)) dc }
  else
    match ic.allocate p.evictOnReach (tagOf a) (fillLine m.mem (tagOf a)) with
    | none => .raised .impossible m
    | some (ic', _) =>
      .done { m with fetchAddr := some a, wait := p.lineLatency, front := .cached (ic'.pushFront (tagOf a)) dc }

/-- `requestFetch(a)` (R130, R39). -/
def requestFetch (p : Params) (a : Word) (m : MemComponent) : Result MemComponent :=
  match m.front with
  | .uncached => requestFetchU p a m
  | .cached ic dc => requestFetchC p a m ic dc

/-- `pollFetch()` (R131, R133, R147): `none` while waiting; then the BackingStore's Word on the Uncached port, and on
the Cache Engine the Word the resident line holds, never the BackingStore's (R148). -/
def pollFetch (p : Params) (m : MemComponent) : Except Fault (Option Word) :=
  match m.fetchAddr with
  | none => .error .poll
  | some a =>
    if 0 < m.wait then .ok none
    else
      match m.front with
      | .uncached => (backingRead p.memBytes m.mem a).map some
      | .cached ic _ =>
        match ic.line? (tagOf a) with
        | none => .error .impossible
        | some ln => .ok (some ln[lineOffset a])

/-- `requestData(a, Load)` and `requestData(a, Store)` on the Uncached port (R134). -/
def requestDataU (p : Params) (a : Word) (k : OpKind) (m : MemComponent) : Result MemComponent :=
  let m1 := { m with dataReq := some (a, k), noMem := false }
  if p.memBytes ≤ a.toNat then .raised (.addr a) m1
  else .done { m1 with wait := p.uncachedLatency }

/-- `requestData(a, Load)` and `requestData(a, Store)` on the Cache Engine (R150, R151): a hit adds DHIT_PENALTY to
`wait`; a miss fills the line, writes an evicted line back and sets `wait` to LINE_LATENCY. -/
def requestDataC (p : Params) (a : Word) (k : OpKind) (m : MemComponent) (ic dc : Cache) : Result MemComponent :=
  let m1 := { m with dataReq := some (a, k), noMem := false }
  if p.memBytes ≤ a.toNat then .raised (.addr a) m1
  else if dc.hit (tagOf a) then
    .done { m1 with
      wait := m.wait + p.dhitPenalty
      front := .cached ic ((dc.remove (tagOf a)).pushFront (tagOf a)) }
  else
    match dc.allocate p.evictOnReach (tagOf a) (fillLine m.mem (tagOf a)) with
    | none => .raised .impossible m1
    | some (dc', victim) =>
      .done { m1 with
        mem := writeBackVictim m.mem victim
        wait := p.lineLatency
        front := .cached ic (dc'.pushFront (tagOf a)) }

/-- `requestData(a, k)` (R130, R39): for `Other` the latch and the flag alone, on either component (R134, R149). -/
def requestData (p : Params) (a : Word) (k : OpKind) (m : MemComponent) : Result MemComponent :=
  match k with
  | .other => .done { m with dataReq := some (a, .other), noMem := true }
  | .load | .store =>
    match m.front with
    | .uncached => requestDataU p a k m
    | .cached ic dc => requestDataC p a k m ic dc

/-- The polling rule of the data side: the same kind as the last request, and the same address unless the kind is
`Other` (R131). -/
def pollMatches (a : Word) (k : OpKind) (m : MemComponent) : Bool :=
  match m.dataReq with
  | none => false
  | some (a', k') => k' == k && (k == .other || a' == a)

/-- A ready load poll (R135, R155): the Word of the data line, or of the BackingStore on the Uncached port. -/
def completeLoad (p : Params) (a : Word) (m : MemComponent) : Except Fault Word :=
  match m.front with
  | .uncached => backingRead p.memBytes m.mem a
  | .cached _ dc =>
    match dc.line? (tagOf a) with
    | none => .error .impossible
    | some ln => .ok ln[lineOffset a]

/-- A ready store poll (R135, R155): the Word goes to the data line, if there are caches, and to the BackingStore. -/
def completeStore (p : Params) (a d : Word) (m : MemComponent) : Except Fault MemComponent :=
  match m.front with
  | .uncached => (backingWrite p.memBytes m.mem a d).map fun mem => { m with mem := mem }
  | .cached ic dc =>
    match dc.line? (tagOf a) with
    | none => .error .impossible
    | some ln =>
      (backingWrite p.memBytes m.mem a d).map fun mem =>
        { m with mem := mem, front := .cached ic (dc.storeWord (tagOf a) ln (lineOffset a) d) }

/-- `pollData(a, k, d)` (R131, R135, R154, R155): whether it is ready, the in-out Word, and the component after it.
The last case, `Other` without the flag, is no state a request leaves. -/
def pollData (p : Params) (a : Word) (k : OpKind) (d : Word) (m : MemComponent) :
    Except Fault (Bool × Word × MemComponent) :=
  if !pollMatches a k m then .error .poll
  else if m.noMem then .ok (true, d, m)
  else if 0 < m.wait then .ok (false, d, m)
  else
    match k with
    | .load => (completeLoad p a m).map fun v => (true, v, m)
    | .store => (completeStore p a d m).map fun m' => (true, d, m')
    | .other => .error .impossible

/-- `advanceCycle()`: `wait <- max(wait - 1, 0)`, on either component (R136, R156). -/
def advanceCycle (m : MemComponent) : MemComponent := { m with wait := m.wait - 1 }

end Sys2Proof.Machine
end

