-- ==== Sys2Proof/Machine/Ops.lean ====
section
/-! DEFINITION. The named operations over the whole state: registers, the two clocked actions of an edge, commit,
raising a fault and CPU reset, each for any collaborators. The core has no trap entry and no trap return (R258, R259):
`State.raise` is all that an error does. -/

namespace Sys2Proof.Machine

variable {ρ κ : Type}

/-! ## Registers (R24 to R27) -/

/-- What register `i` of the machine holds; `none` for a register that holds no value (R26). -/
def State.reg (s : State) (i : RegId) : Option Word := s.regs.read i

/-- `RegRead(i)` (R234): F_UNINIT when the register holds no value (R255). -/
def State.readReg (K : Collaborators ρ κ) (s : State ρ κ) (i : RegId) : Except Fault Word :=
  match K.regs.read s.regs i with
  | some v => .ok v
  | none => .error (.uninit i)

/-- `x[i] <- v` (R14, R24). -/
def State.writeReg (K : Collaborators ρ κ) (s : State ρ κ) (i : RegId) (v : Word) : State ρ κ :=
  { s with regs := K.regs.write s.regs i v }

/-! ## The clocked actions of an edge (R230) -/

/-- The CSR file's clock tick (R230, R266). -/
def State.tick (K : Collaborators ρ κ) (s : State ρ κ) : State ρ κ := { s with csr := K.csrs.clockTick s.csr }

/-- The memory component's clock advance (R230, R136). -/
def State.advance (s : State ρ κ) : State ρ κ := { s with memc := advanceCycle s.memc }

/-! ## Raising a fault (R250) -/

/-- `raise Fault`: the fault is recorded; the rest of the state keeps what the edge did before (R250). -/
def State.raise (s : State ρ κ) (f : Fault) : State ρ κ := { s with fault := some f }

/-! ## Commit (R236) -/

/-- The register file's `write(from record)` (R236). -/
def State.writeDest (K : Collaborators ρ κ) (s : State ρ κ) (r : Record) : State ρ κ :=
  match r.rd with
  | some i => s.writeReg K i r.data
  | none => s

/-- The CSR write of kind CSRW (R236, R223). -/
def State.writeCsr (K : Collaborators ρ κ) (s : State ρ κ) (r : Record) : State ρ κ :=
  match r.kind, r.csr with
  | .csrw, some c => { s with csr := K.csrs.write s.csr c r.data }
  | _, _ => s

/-- `CSR.instructionRetired()` (R236, R267). -/
def State.retire (K : Collaborators ρ κ) (s : State ρ κ) : State ρ κ :=
  { s with csr := K.csrs.instructionRetired s.csr }

/-- `Commit(r)` (R236): the register, then the CSR, then the retirement, then `ip` and `phase`; `instr` keeps the
record until the next Fetch edge (R22). -/
def State.commit (K : Collaborators ρ κ) (s : State ρ κ) (r : Record) : State ρ κ :=
  { ((s.writeDest K r).writeCsr K r).retire K with instr := some r, ip := r.nextIp, phase := .fetch }

/-! ## Reset and the host channel (R280, R262) -/

/-- `Reset(v)` (R280), applied between clock edges: `ip`, the CSR file, `phase` and `instr`; everything else, a fault
among it, stays. -/
def State.cpuResetWith (K : Collaborators ρ κ) (s : State ρ κ) (v : Word) : State ρ κ :=
  { s with ip := v, csr := K.csrs.reset s.csr, phase := .fetch, instr := none }

/-- `Reset(v)` of the machine. -/
def State.cpuReset (s : State) (v : Word) : State := s.cpuResetWith (Collaborators.reference s.params) v

/-- What the host reads between clock edges (R262). -/
def State.pendingHostMessageWith (K : Collaborators ρ κ) (s : State ρ κ) : Option Word :=
  K.csrs.getPendingHostMessage s.csr

/-- What the host reads of the machine between clock edges (R262, R268). -/
def State.pendingHostMessage (s : State) : Option Word :=
  s.pendingHostMessageWith (Collaborators.reference s.params)

end Sys2Proof.Machine
end

