-- ==== Sys2Proof/Machine/Operands.lean ====
section
/-! DEFINITION. Operands: the operand read of the DecodeExecute edge (R234), the second operand (R85) and the
immediate. The only operand sources are the general registers, the immediate, the instruction pointer and the CSR
value read into the record (R30). -/

namespace Sys2Proof.Machine

variable {ρ κ : Type}

/-- A source value: the register's, or 0 for an absent register (R234, D27). -/
def State.readSource (K : Collaborators ρ κ) (s : State ρ κ) : Option RegId → Except Fault Word
  | none => .ok 0
  | some i => s.readReg K i

/-- The CSR value: read through the CSR file, or 0 for an absent CSR (R234, D28). -/
def State.readCsrValue (K : Collaborators ρ κ) (s : State ρ κ) : Option CsrId → Word
  | none => 0
  | some c => K.csrs.read s.csr c

/-- `ReadOperands(r)` (R234): `rs1`, then `rs2`, then the CSR (D39). -/
def State.readOperands (K : Collaborators ρ κ) (s : State ρ κ) (r : Record) : Except Fault Record :=
  match s.readSource K r.rs1 with
  | .error f => .error f
  | .ok v1 =>
    match s.readSource K r.rs2 with
    | .error f => .error f
    | .ok v2 => .ok { r with v1 := v1, v2 := v2, csrVal := s.readCsrValue K r.csr }

/-- `op2(r)`: the immediate when it is present, else the second source value (R85). -/
def Record.op2 (r : Record) : Word :=
  match r.imm with
  | some v => v
  | none => r.v2

/-- `r.imm` as the offset of a kind that declares it (R83). A well-formed record of such a kind has it; 0 stands for
an absent field (D27). -/
def Record.offset (r : Record) : Word := r.imm.getD 0

end Sys2Proof.Machine
end

