-- ==== Sys2Proof/Machine/Executor.lean ====
section
/-! DEFINITION. The Executor: a pure function of a decoded record and the instruction pointer (42_executor_alu.md,
43_executor_control.md, 44_executor_mem_csr.md), one definition per kind, dispatched by R239. -/

namespace Sys2Proof.Machine

/-- The shift amount: the low five bits of the second operand (R172). -/
def shiftAmount (b : Word) : Nat := (b.extractLsb' 0 5).toNat

/-- A truth value as a Word: 1 or 0 (R171). -/
def boolWord (b : Bool) : Word := if b then 1 else 0

/-- `AluFn` (R171, R193). -/
def aluFn : AluOp → Word → Word → Word
  | .add, a, b => a + b
  | .sub, a, b => a - b
  | .sll, a, b => a <<< shiftAmount b
  | .srl, a, b => a >>> shiftAmount b
  | .sra, a, b => a.sshiftRight (shiftAmount b)
  | .slt, a, b => boolWord (decide (a.toInt < b.toInt))
  | .sltu, a, b => boolWord (decide (a.toNat < b.toNat))
  | .xor, a, b => a ^^^ b
  | .and, a, b => a &&& b
  | .or, a, b => a ||| b

/-- Kind ALU (R170). -/
def execAluKind (r : Record) (ip : Word) : Record :=
  { r with data := aluFn r.aluOp r.v1 (Record.op2 r), addr := 0, nextIp := ip + 4 }

/-- Kind LD (R220). -/
def execLdKind (r : Record) (ip : Word) : Record :=
  { r with addr := aluFn r.aluOp r.v1 (Record.op2 r), data := 0, nextIp := ip + 4 }

/-- Kind ST (R221). -/
def execStKind (r : Record) (ip : Word) : Record :=
  { r with addr := aluFn r.aluOp r.v1 (Record.op2 r), data := r.v2, nextIp := ip + 4 }

/-- Kind CSRR (R222). -/
def execCsrrKind (r : Record) (ip : Word) : Record :=
  { r with data := r.csrVal, addr := 0, nextIp := ip + 4 }

/-- Kind CSRW (R223). -/
def execCsrwKind (r : Record) (ip : Word) : Record :=
  { r with data := r.v1, addr := 0, nextIp := ip + 4 }

/-- Kind BR (R201). -/
def execBrKind (r : Record) (ip : Word) : Record :=
  { r with nextIp := if brFn r.brOp r.v1 r.v2 then ip + Record.offset r else ip + 4, addr := 0, data := 0 }

/-- Kind J (R202): the BR rule on operand values 0 (D37). -/
def execJKind (r : Record) (ip : Word) : Record :=
  { r with data := ip + 4, nextIp := if brFn r.brOp 0 0 then ip + Record.offset r else ip + 4, addr := 0 }

/-- Kind JR (R203): the target is exactly `imm + v1`, bit 0 kept. -/
def execJrKind (r : Record) (ip : Word) : Record :=
  { r with data := ip + 4, nextIp := if brFn r.brOp r.v1 r.v2 then Record.offset r + r.v1 else ip + 4, addr := 0 }

/-- Kind AUIPC (R204). -/
def execAuipcKind (r : Record) (ip : Word) : Record :=
  { r with data := ip + Record.offset r, nextIp := ip + 4, addr := 0 }

/-- `Execute(r, ip)`: one entry per kind (R239). -/
def execute (r : Record) (ip : Word) : Record :=
  match r.kind with
  | .alu => execAluKind r ip
  | .ld => execLdKind r ip
  | .st => execStKind r ip
  | .csrw => execCsrwKind r ip
  | .csrr => execCsrrKind r ip
  | .j => execJKind r ip
  | .br => execBrKind r ip
  | .jr => execJrKind r ip
  | .auipc => execAuipcKind r ip

end Sys2Proof.Machine
end

