-- ==== Sys2Proof/Machine/Controller.lean ====
section
/-! DEFINITION. The CPU Controller: the clock edge (45_cpu_controller.md R230), its three phases (R232 to R236), and
the run of one instruction from its DecodeExecute edge to its ready Writeback edge, which every meaning is. All of it is
written for any collaborators (R6); the machine's own definitions take the reference ones. -/

namespace Sys2Proof.Machine

variable {ρ κ : Type}

/-! ## The three phases -/

/-- `FetchStep()` (R232). -/
def fetchStep (s : State ρ κ) : Result (State ρ κ) :=
  match requestFetch s.params s.ip s.memc with
  | .raised f m => .raised f { s with instr := none, memc := m }
  | .done m => .done { s with instr := none, memc := m, phase := .decodeExecute }

/-- The part of `DecodeExecuteStep()` after the decoder (R233): read the operands, execute, request the data access,
hold the record, go to Writeback. -/
def issue (K : Collaborators ρ κ) (r : Record) (s : State ρ κ) : Result (State ρ κ) :=
  match s.readOperands K r with
  | .error f => .raised f s
  | .ok r1 =>
    let r2 := execute r1 s.ip
    match requestData s.params r2.addr r2.kind.opKind s.memc with
    | .raised f m => .raised f { s with memc := m }
    | .done m => .done { s with memc := m, instr := some r2, phase := .writeback }

/-- `DecodeExecuteStep()` (R233), with the parameter DECODER (R10, R86). -/
def decodeExecuteStep (K : Collaborators ρ κ) (s : State ρ κ) : Result (State ρ κ) :=
  match pollFetch s.params s.memc with
  | .error f => .raised f s
  | .ok none => .done s
  | .ok (some w) =>
    match K.decoder w with
    | none => .raised (.decode w) s
    | some r => if r.wellFormed then issue K r s else .raised (.record w) s

/-- `WritebackStep()` (R235, R236). -/
def writebackStep (K : Collaborators ρ κ) (s : State ρ κ) : Result (State ρ κ) :=
  match s.instr with
  | none => .raised .impossible s
  | some r =>
    match pollData s.params r.addr r.kind.opKind r.data s.memc with
    | .error f => .raised f s
    | .ok (false, _, _) => .done s
    | .ok (true, d, m) => .done ({ s with memc := m }.commit K { r with data := d })

/-! ## The clock edge -/

/-- `CpuStep()` (R230). -/
def cpuStep (K : Collaborators ρ κ) (s : State ρ κ) : Result (State ρ κ) :=
  match s.phase with
  | .fetch => fetchStep s
  | .decodeExecute => decodeExecuteStep K s
  | .writeback => writebackStep K s

/-- The frame of an edge: CSR tick, then the step, then the memory advance, which a raise leaves out (R230, R250). -/
def edge (K : Collaborators ρ κ) (body : State ρ κ → Result (State ρ κ)) (s : State ρ κ) : Result (State ρ κ) :=
  match body (s.tick K) with
  | .raised f t => .raised f t
  | .done t => .done t.advance

/-- `ClockEdge()` (R230) with given collaborators: a stopped model does nothing; a fault raised is recorded (R250). -/
def clockEdgeWith (K : Collaborators ρ κ) (s : State ρ κ) : State ρ κ :=
  match s.fault with
  | some _ => s
  | none =>
    match edge K (cpuStep K) s with
    | .done t => t
    | .raised f t => t.raise f

/-- `n` clock edges with given collaborators. -/
def clockEdgesWith (K : Collaborators ρ κ) : Nat → State ρ κ → State ρ κ
  | 0, s => s
  | n + 1, s => clockEdgesWith K n (clockEdgeWith K s)

/-- `ClockEdge()` of the machine: one simulated clock edge, the hardware's own atomic step (R8, R230). -/
def clockEdge (s : State) : State := clockEdgeWith (Collaborators.reference s.params) s

/-- `n` clock edges of the machine. -/
def clockEdges (n : Nat) (s : State) : State := clockEdgesWith (Collaborators.reference s.params) n s

/-! ## One instruction -/

/-- `n` stall edges (R237): each runs the CSR tick and the memory advance, and nothing else. -/
def stall (K : Collaborators ρ κ) : Nat → State ρ κ → State ρ κ
  | 0, s => s
  | n + 1, s => stall K n (s.tick K).advance

/-- How many Writeback edges stall before the ready one: none for an access of kind `Other`, else as many as `wait`
has left (R154, R237). -/
def dataStalls (s : State ρ κ) : Nat := if s.memc.noMem then 0 else s.memc.wait

/-- The Writeback phase of one instruction: its stall edges, then its ready edge (R235, R237). -/
def finish (K : Collaborators ρ κ) (s : State ρ κ) : Host.Outcome (State ρ κ) Fault Refusal :=
  match edge K (writebackStep K) (stall K (dataStalls s) s) with
  | .raised f _ => .fault f
  | .done t => .next t

/-- One instruction, given its record: the DecodeExecute edge on which its word was delivered, then its Writeback
phase (R233 to R237). A stopped machine stays stopped (R250). -/
def runRecordWith (K : Collaborators ρ κ) (r : Record) (s : State ρ κ) : Host.Outcome (State ρ κ) Fault Refusal :=
  match s.fault with
  | some f => .fault f
  | none =>
    match edge K (issue K r) s with
    | .raised f _ => .fault f
    | .done t => finish K t

/-- One instruction of the machine. Every meaning is this operation on the instruction's record. -/
def runRecord (r : Record) (s : State) : Host.Outcome State Fault Refusal :=
  runRecordWith (Collaborators.reference s.params) r s

end Sys2Proof.Machine
end

