-- ==== Sys2Proof/Machine/Alu.lean ====
section
/-! DEFINITION. The meanings of the arithmetic instructions (42_executor_alu.md): each runs its record (R98) through
the controller. `x[rd]` is written on the Writeback edge, so a source equal to `rd` gives its old value. The instruction
alone faults only with F_UNINIT; a sequential instruction moves `ip` to `ip +32 4`. -/

namespace Sys2Proof.Machine

/-! ## Register-register (R173 to R182) -/

/-- ADD (R173): x[rd] <- x[rs1] +32 x[rs2]. -/
def execAdd (rd rs1 rs2 : RegId) (s : State) : Host.Outcome State Fault Refusal :=
  runRecord (recAluReg .add rd rs1 rs2) s

/-- SUB (R174): x[rd] <- x[rs1] -32 x[rs2]. -/
def execSub (rd rs1 rs2 : RegId) (s : State) : Host.Outcome State Fault Refusal :=
  runRecord (recAluReg .sub rd rs1 rs2) s

/-- SLL (R175): x[rd] <- x[rs1] << x[rs2][4:0]. -/
def execSll (rd rs1 rs2 : RegId) (s : State) : Host.Outcome State Fault Refusal :=
  runRecord (recAluReg .sll rd rs1 rs2) s

/-- SLT (R176): x[rd] <- 1 if s32(x[rs1]) < s32(x[rs2]), else 0. -/
def execSlt (rd rs1 rs2 : RegId) (s : State) : Host.Outcome State Fault Refusal :=
  runRecord (recAluReg .slt rd rs1 rs2) s

/-- SLTU (R177): x[rd] <- 1 if x[rs1] < x[rs2] unsigned, else 0. -/
def execSltu (rd rs1 rs2 : RegId) (s : State) : Host.Outcome State Fault Refusal :=
  runRecord (recAluReg .sltu rd rs1 rs2) s

/-- XOR (R178): x[rd] <- x[rs1] ^ x[rs2]. -/
def execXor (rd rs1 rs2 : RegId) (s : State) : Host.Outcome State Fault Refusal :=
  runRecord (recAluReg .xor rd rs1 rs2) s

/-- SRL (R179): x[rd] <- x[rs1] >> x[rs2][4:0]. -/
def execSrl (rd rs1 rs2 : RegId) (s : State) : Host.Outcome State Fault Refusal :=
  runRecord (recAluReg .srl rd rs1 rs2) s

/-- SRA (R180): x[rd] <- x[rs1] >>s x[rs2][4:0]. -/
def execSra (rd rs1 rs2 : RegId) (s : State) : Host.Outcome State Fault Refusal :=
  runRecord (recAluReg .sra rd rs1 rs2) s

/-- OR (R181): x[rd] <- x[rs1] | x[rs2]. -/
def execOr (rd rs1 rs2 : RegId) (s : State) : Host.Outcome State Fault Refusal :=
  runRecord (recAluReg .or rd rs1 rs2) s

/-- AND (R182): x[rd] <- x[rs1] & x[rs2]. -/
def execAnd (rd rs1 rs2 : RegId) (s : State) : Host.Outcome State Fault Refusal :=
  runRecord (recAluReg .and rd rs1 rs2) s

/-! ## Register-immediate (R183 to R192) -/

/-- ADDI (R183): x[rd] <- x[rs1] +32 imm. -/
def execAddi (rd rs1 : RegId) (imm : Word) (s : State) : Host.Outcome State Fault Refusal :=
  runRecord (recAluImm .add rd rs1 imm) s

/-- SLTI (R184): x[rd] <- 1 if s32(x[rs1]) < s32(imm), else 0. -/
def execSlti (rd rs1 : RegId) (imm : Word) (s : State) : Host.Outcome State Fault Refusal :=
  runRecord (recAluImm .slt rd rs1 imm) s

/-- SLTIU (R185): x[rd] <- 1 if x[rs1] < imm unsigned, else 0. -/
def execSltiu (rd rs1 : RegId) (imm : Word) (s : State) : Host.Outcome State Fault Refusal :=
  runRecord (recAluImm .sltu rd rs1 imm) s

/-- XORI (R186): x[rd] <- x[rs1] ^ imm. -/
def execXori (rd rs1 : RegId) (imm : Word) (s : State) : Host.Outcome State Fault Refusal :=
  runRecord (recAluImm .xor rd rs1 imm) s

/-- ORI (R187): x[rd] <- x[rs1] | imm. -/
def execOri (rd rs1 : RegId) (imm : Word) (s : State) : Host.Outcome State Fault Refusal :=
  runRecord (recAluImm .or rd rs1 imm) s

/-- ANDI (R188): x[rd] <- x[rs1] & imm. -/
def execAndi (rd rs1 : RegId) (imm : Word) (s : State) : Host.Outcome State Fault Refusal :=
  runRecord (recAluImm .and rd rs1 imm) s

/-- SLLI (R189): x[rd] <- x[rs1] << shamt. -/
def execSlli (rd rs1 : RegId) (shamt : Word) (s : State) : Host.Outcome State Fault Refusal :=
  runRecord (recAluImm .sll rd rs1 shamt) s

/-- SRLI (R190): x[rd] <- x[rs1] >> shamt. -/
def execSrli (rd rs1 : RegId) (shamt : Word) (s : State) : Host.Outcome State Fault Refusal :=
  runRecord (recAluImm .srl rd rs1 shamt) s

/-- SRAI (R191): x[rd] <- x[rs1] >>s shamt. -/
def execSrai (rd rs1 : RegId) (shamt : Word) (s : State) : Host.Outcome State Fault Refusal :=
  runRecord (recAluImm .sra rd rs1 shamt) s

/-- LUI (R192): x[rd] <- imm, as an ALU add of the immediate to `x0`. -/
def execLui (rd : RegId) (imm : Word) (s : State) : Host.Outcome State Fault Refusal :=
  runRecord (recAluImm .add rd 0 imm) s

end Sys2Proof.Machine
end

