-- ==== Sys2Proof/Machine/Control.lean ====
section
/-! DEFINITION. The meanings of the control-transfer instructions (43_executor_control.md). A target is not checked
when it is computed (R214): a target outside the BackingStore faults on the next Fetch edge. -/

namespace Sys2Proof.Machine

/-- BEQ (R205): if x[rs1] = x[rs2] then ip <- ip +32 imm else ip <- ip +32 4. -/
def execBeq (rs1 rs2 : RegId) (imm : Word) (s : State) : Host.Outcome State Fault Refusal :=
  runRecord (recBranch .eq rs1 rs2 imm) s

/-- BNE (R206): if x[rs1] != x[rs2] then ip <- ip +32 imm else ip <- ip +32 4. -/
def execBne (rs1 rs2 : RegId) (imm : Word) (s : State) : Host.Outcome State Fault Refusal :=
  runRecord (recBranch .ne rs1 rs2 imm) s

/-- BLT (R207): if s32(x[rs1]) < s32(x[rs2]) then ip <- ip +32 imm else ip <- ip +32 4. -/
def execBlt (rs1 rs2 : RegId) (imm : Word) (s : State) : Host.Outcome State Fault Refusal :=
  runRecord (recBranch .lt rs1 rs2 imm) s

/-- BGE (R208): if s32(x[rs1]) >= s32(x[rs2]) then ip <- ip +32 imm else ip <- ip +32 4. -/
def execBge (rs1 rs2 : RegId) (imm : Word) (s : State) : Host.Outcome State Fault Refusal :=
  runRecord (recBranch .ge rs1 rs2 imm) s

/-- BLTU (R209): if x[rs1] < x[rs2] unsigned then ip <- ip +32 imm else ip <- ip +32 4. -/
def execBltu (rs1 rs2 : RegId) (imm : Word) (s : State) : Host.Outcome State Fault Refusal :=
  runRecord (recBranch .ltu rs1 rs2 imm) s

/-- BGEU (R210): if x[rs1] >= x[rs2] unsigned then ip <- ip +32 imm else ip <- ip +32 4. -/
def execBgeu (rs1 rs2 : RegId) (imm : Word) (s : State) : Host.Outcome State Fault Refusal :=
  runRecord (recBranch .geu rs1 rs2 imm) s

/-- JAL (R211): x[rd] <- ip +32 4; ip <- ip +32 imm. -/
def execJal (rd : RegId) (imm : Word) (s : State) : Host.Outcome State Fault Refusal :=
  runRecord (recJump rd imm) s

/-- JALR (R212): t <- x[rs1] +32 imm; x[rd] <- ip +32 4; ip <- t, bit 0 kept. -/
def execJalr (rd rs1 : RegId) (imm : Word) (s : State) : Host.Outcome State Fault Refusal :=
  runRecord (recJumpReg rd rs1 imm) s

/-- AUIPC (R213): x[rd] <- ip +32 imm; ip <- ip +32 4. -/
def execAuipc (rd : RegId) (imm : Word) (s : State) : Host.Outcome State Fault Refusal :=
  runRecord (recAuipc rd imm) s

end Sys2Proof.Machine
end

