-- ==== Sys2Proof/Machine/MemCsr.lean ====
section
/-! DEFINITION. The meanings of the load, the store and the CSR instructions (44_executor_mem_csr.md). -/

namespace Sys2Proof.Machine

/-- LW (R224): x[rd] <- the Word at x[rs1] +32 imm, through the data protocol; ip <- ip +32 4. F_ADDR when the address
is at or above MEM_BYTES. The low two address bits are ignored (R59). -/
def execLw (rd rs1 : RegId) (imm : Word) (s : State) : Host.Outcome State Fault Refusal :=
  runRecord (recLoad rd rs1 imm) s

/-- SW (R225): the Word at x[rs1] +32 imm <- x[rs2], through the data protocol; ip <- ip +32 4. F_ADDR when the address
is at or above MEM_BYTES. The low two address bits are ignored (R59). -/
def execSw (rs1 rs2 : RegId) (imm : Word) (s : State) : Host.Outcome State Fault Refusal :=
  runRecord (recStore rs1 rs2 imm) s

/-- CSRRS with rs1 = x0, `csrr rd, csr` (R226): x[rd] <- CSR.read(csr), read on the DecodeExecute edge. -/
def execCsrrs (rd : RegId) (csr : CsrId) (s : State) : Host.Outcome State Fault Refusal :=
  runRecord (recCsrRead rd csr) s

/-- CSRRW with rd = x0, `csrw csr, rs1` (R227): CSR.write(csr, x[rs1]), on the Writeback edge. -/
def execCsrrw (csr : CsrId) (rs1 : RegId) (s : State) : Host.Outcome State Fault Refusal :=
  runRecord (recCsrWrite csr rs1) s

end Sys2Proof.Machine
end

