-- ==== Sys2Proof/Machine/Image.lean ====
section
/-! DEFINITION. The image-to-memory contract of the program-image loader (R66, R67) and the boot order (R282). The
loader's reading of the binary image is an external collaborator (R6), a parameter of `bootWith`: what it hands over is
the list of loadable segments. -/

namespace Sys2Proof.Machine

/-- The distinguishable failures of image loading (R67). The first three are about the image file's own form, which the
external loader reads; the others are about a segment. -/
inductive LoadError where
  | unreadableInput
  | badMagic
  | truncatedHeader
  | truncatedSegmentData
  | pastMemoryBounds
  | memSizeBelowFileSize
  deriving DecidableEq, Repr

/-- A loadable program-header segment: its physical address, its bytes in the file, its size in the file and its size
in memory. -/
structure Segment where
  paddr : Nat
  bytes : List Byte
  fileSize : Nat
  memSize : Nat
  deriving DecidableEq, Repr

/-- Consecutive bytes written from an address on. -/
def Memory.writeBytes (m : Memory) (a : Nat) : List Byte → Memory
  | [] => m
  | b :: bs => Memory.writeBytes (m.write a b) (a + 1) bs

/-- One segment copied at its physical address, "zero-filling the gap between file-backed size and in-memory size"
(R66), or why not (R67). -/
def loadSegment (memBytes : Nat) (m : Memory) (g : Segment) : Except LoadError Memory :=
  if g.memSize < g.fileSize then .error .memSizeBelowFileSize
  else if memBytes < g.paddr + g.memSize then .error .pastMemoryBounds
  else if g.bytes.length < g.fileSize then .error .truncatedSegmentData
  else .ok (m.writeBytes g.paddr (g.bytes.take g.fileSize ++ List.replicate (g.memSize - g.fileSize) 0))

/-- The segments of an image, or how one of them fails (R67). DESIGN CHOICE (notes/assumptions 19): they are taken in the
order of the list, so where two overlap the later one overwrites the earlier, and where two are defective the failure of
the earlier one is reported; R66 and R67 give no order. -/
def loadImage (memBytes : Nat) (m : Memory) : List Segment → Except LoadError Memory
  | [] => .ok m
  | g :: gs =>
    match loadSegment memBytes m g with
    | .error e => .error e
    | .ok m' => loadImage memBytes m' gs

variable {ρ κ : Type}

/-- The boot order of R282 from an image's segments on: create the core, load the segments, apply `Reset(RESET_IP)`. "If
loading fails, the simulator does not start execution" (R66): there is then no state to clock. -/
def bootSegments (K : Collaborators ρ κ) (p : Params) (image : List Segment) : Except LoadError (State ρ κ) :=
  match loadImage p.memBytes [] image with
  | .error e => .error e
  | .ok m =>
    let s := State.create p K.regs.launch K.csrs.launch
    .ok ({ s with memc := { s.memc with mem := m } }.cpuResetWith K p.resetIp)

/-- The boot order with given collaborators, the loader's reading of the binary image among them: `readImage` answers
the loadable segments of an image, or how its form fails (R6, R66, R67). -/
def bootWith (K : Collaborators ρ κ) (readImage : List Byte → Except LoadError (List Segment)) (p : Params)
    (image : List Byte) : Except LoadError (State ρ κ) :=
  match readImage image with
  | .error e => .error e
  | .ok segments => bootSegments K p segments

/-- The boot of the machine from an image's segments. -/
def boot (p : Params) (image : List Segment) : Except LoadError State :=
  bootSegments (Collaborators.reference p) p image

end Sys2Proof.Machine
end

