-- ==== Sys2Proof/Machine/Step.lean ====
section
/-! DEFINITION. The step: the clock edges of one instruction, from the state it starts in up to the ready Writeback
edge that retires it (R231, R238). `clockEdge` is the hardware's own step; this one groups its edges by instruction. -/

namespace Sys2Proof.Machine

variable {ρ κ : Type}

/-- The DecodeExecute phase: the stall edges that the fetch still has to wait (R237), then the edge whose poll is
ready (R233), on which `run` takes the delivered word. -/
def deliver (K : Collaborators ρ κ) (run : Word → State ρ κ → Host.Outcome (State ρ κ) Fault Refusal)
    (s : State ρ κ) : Host.Outcome (State ρ κ) Fault Refusal :=
  match pollFetch s.params (stall K s.memc.wait s).memc with
  | .error f => .fault f
  | .ok none => .fault .impossible
  | .ok (some w) => run w (stall K s.memc.wait s)

/-- One step. From the Fetch phase: the Fetch edge, the fetch's stall edges and the whole instruction. From a state
inside an instruction: what is left of it. A stopped machine stays stopped (R250). -/
def stepBy (K : Collaborators ρ κ) (run : Word → State ρ κ → Host.Outcome (State ρ κ) Fault Refusal)
    (s : State ρ κ) : Host.Outcome (State ρ κ) Fault Refusal :=
  match s.fault with
  | some f => .fault f
  | none =>
    match s.phase with
    | .fetch =>
      match edge K fetchStep s with
      | .raised f _ => .fault f
      | .done t => deliver K run t
    | .decodeExecute => deliver K run s
    | .writeback => finish K s

/-- The delivered word through the collaborators' decoder: F_DECODE, F_RECORD, or the run of its record (R233, R253,
R254). -/
def runWord (K : Collaborators ρ κ) (w : Word) (s : State ρ κ) : Host.Outcome (State ρ κ) Fault Refusal :=
  match K.decoder w with
  | none => .fault (.decode w)
  | some r => if r.wellFormed then runRecordWith K r s else .fault (.record w)

/-- One step with given collaborators (R6). -/
def stepWith (K : Collaborators ρ κ) (s : State ρ κ) : Host.Outcome (State ρ κ) Fault Refusal := stepBy K (runWord K) s

/-- The delivered word as an instruction of the reference decoder: it runs, or its word is refused (R253). -/
def runDecoded (w : Word) (s : State) : Host.Outcome State Fault Refusal :=
  match decode w with
  | .error _ => .fault (.decode w)
  | .ok i => exec i s

/-- One step of the machine. -/
def step (s : State) : Host.Outcome State Fault Refusal := stepBy (Collaborators.reference s.params) runDecoded s

/-- A line in which the Word of address `a`, if the line holds it, is replaced. -/
def Cache.patchWord (c : Cache) (a v : Word) : Cache :=
  match c.line? (tagOf a) with
  | none => c
  | some ln => c.storeWord (tagOf a) ln (lineOffset a) v

/-- Both caches patched, so that a resident line shows the placed word to a fetch and to a load. -/
def Front.patchWord (f : Front) (a v : Word) : Front :=
  match f with
  | .uncached => .uncached
  | .cached ic dc => .cached (ic.patchWord a v) (dc.patchWord a v)

/-- The instruction's word placed where the next step fetches: in the BackingStore's word at `ip` and in any cache
line that holds that word; an instruction in flight is abandoned, as a CPU reset abandons it (R280), so that the next
step is a Fetch edge. It stands for the host's image load (R66, R282): see notes/assumptions 9. -/
def State.withFetchWord (s : State) (nbits w : Nat) : State :=
  let v : Word := BitVec.ofNat 32 (w % 2 ^ nbits)
  { s with
    phase := .fetch
    instr := none
    memc := { s.memc with
      mem := s.memc.mem.setWord (wordIndex s.ip) v
      front := s.memc.front.patchWord s.ip v } }

end Sys2Proof.Machine
end

