-- ==== Sys2Proof/Safety.lean ====
section
/-! DEFINITION. What the claims speak of: the invariants of the machine, the wait cycles of an access, the frames of
an instruction, and safe runs. -/

namespace Sys2Proof.Safety

open Sys2Proof.Machine

/-! ## Invariants -/

/-- A cache of this hardware (R32, R160): tags rise strictly, the recency list has no duplicates and its tags are
exactly the resident ones, every tag is a line address below MEM_BYTES, and the capacity is not exceeded (with
EVICT_ON_REACH it is not reached, R159). A line holds 16 Words by its type. -/
structure CacheOk (p : Params) (c : Cache) : Prop where
  sorted : Assoc.Sorted c.resident
  nodup : c.recency.Nodup
  same : ∀ t, t ∈ c.recency ↔ t ∈ Assoc.keys c.resident
  tags : ∀ t ∈ Assoc.keys c.resident, t % lineBytes = 0 ∧ t < p.memBytes
  size : c.resident.length ≤ c.capacity
  reach : p.evictOnReach = true → c.resident.length < c.capacity

/-- The number of resident lines at which a miss evicts: the capacity, or one less with EVICT_ON_REACH (R145, R159). -/
def fullLines (p : Params) (c : Cache) : Nat := if p.evictOnReach then c.capacity - 1 else c.capacity

/-- The data-cache invariant (R42): every resident line holds the BackingStore's Words. -/
def Coherent (m : Memory) (dc : Cache) : Prop := ∀ e ∈ dc.resident, e.2 = fillLine m e.1

/-- The caches are those of the parameters (R33, R39), each is a cache of this hardware, and the data cache agrees
with the BackingStore. -/
def FrontOk (p : Params) (m : Memory) : Front → Prop
  | .uncached => p.memModel = .uncached
  | .cached ic dc =>
    p.memModel = .cached ∧ ic.capacity = p.icacheLines ∧ dc.capacity = p.dcacheLines ∧
      CacheOk p ic ∧ CacheOk p dc ∧ Coherent m dc

/-- The memory component is one of this hardware: memory in its canonical form and inside MEM_BYTES, caches as above. -/
structure MemOk (p : Params) (m : MemComponent) : Prop where
  wf : m.mem.wf = true
  bound : ∀ e ∈ m.mem, e.1 < p.memBytes
  front : FrontOk p m.mem m.front

/-- The line of an address is resident in the instruction cache, if there is one. -/
def FetchLineThere (f : Front) (a : Word) : Prop :=
  match f with
  | .uncached => True
  | .cached ic _ => tagOf a ∈ Assoc.keys ic.resident

/-- The line of an address is resident in the data cache, if there is one. -/
def DataLineThere (f : Front) (a : Word) : Prop :=
  match f with
  | .uncached => True
  | .cached _ dc => tagOf a ∈ Assoc.keys dc.resident

/-- The fetch of `ip` has been requested and can be polled (R131, R147). -/
structure FetchPending (s : State) : Prop where
  noInstr : s.instr = none
  latched : s.memc.fetchAddr = some s.ip
  inRange : s.ip.toNat < s.params.memBytes
  there : FetchLineThere s.memc.front s.ip

/-- The data request of the in-flight record has been made and can be polled (R131, R155). -/
structure DataPending (s : State) (r : Record) : Prop where
  held : s.instr = some r
  shape : r.wellFormed = true
  latched : s.memc.dataReq = some (r.addr, r.kind.opKind)
  flag : s.memc.noMem = decide (r.kind.opKind = .other)
  inRange : r.kind.opKind ≠ .other → r.addr.toNat < s.params.memBytes
  there : r.kind.opKind ≠ .other → DataLineThere s.memc.front r.addr

/-- What each phase means (R22, R231). -/
def PhaseOk (s : State) : Prop :=
  match s.phase with
  | .fetch => True
  | .decodeExecute => FetchPending s
  | .writeback => ∃ r, DataPending s r

/-- The invariant of the machine. -/
structure Inv (s : State) : Prop where
  legal : s.params.Legal
  csr : s.csr.wf = true
  mem : MemOk s.params s.memc
  phase : PhaseOk s

/-- The machine has not stopped (R250). -/
def Running {ρ κ : Type} (s : State ρ κ) : Prop := s.fault = none

/-! ## Wait cycles (R162) -/

/-- `wait` right after the fetch request of `ip`. -/
def fetchWait (s : State) : Nat :=
  match s.memc.front with
  | .uncached => s.params.uncachedLatency
  | .cached ic _ => if tagOf s.ip ∈ ic.recency then s.memc.wait else s.params.lineLatency

/-- `wait` right after a load or store request of address `a` made when the counter is `w`. -/
def dataWait (s : State) (w : Nat) (a : Word) : Nat :=
  match s.memc.front with
  | .uncached => s.params.uncachedLatency
  | .cached _ dc => if tagOf a ∈ dc.recency then w + s.params.dhitPenalty else s.params.lineLatency

/-- `wait` right after an instruction's data request made when the counter is `w`, counted for a load or store alone
(R238, `Wd`): 0 for every other instruction, whose access is ready at once (R149). -/
def accessWait (s : State) (w : Nat) (i : Instr) : Nat :=
  match i with
  | .lw _ rs1 imm => dataWait s w ((s.reg rs1).getD 0 + imm)
  | .sw rs1 _ imm => dataWait s w ((s.reg rs1).getD 0 + imm)
  | _ => 0

/-- The Word a fetch of `ip` delivers: the one the instruction cache holds if `ip`'s line is resident, else the
BackingStore's (R73, R146, R147, R133). -/
def fetchedWord (s : State) : Word :=
  match s.memc.front with
  | .uncached => s.memc.mem.word (wordIndex s.ip)
  | .cached ic _ =>
    match ic.line? (tagOf s.ip) with
    | some ln => ln[lineOffset s.ip]
    | none => s.memc.mem.word (wordIndex s.ip)

/-! ## Frames -/

/-- `t`'s registers are `s`'s, except that `rd` holds `v`; a write to `x0` is discarded (R25). -/
def WritesReg (s t : State) (rd : RegId) (v : Word) : Prop :=
  ∀ i, t.reg i = if i = rd ∧ i ≠ 0 then some v else s.reg i

/-- No register changes. -/
def KeepsRegs (s t : State) : Prop := ∀ i, t.reg i = s.reg i

/-- Every byte of memory reads as before. -/
def KeepsMemory {ρ κ : Type} (s t : State ρ κ) : Prop := ∀ a, t.memc.mem.read a = s.memc.mem.read a

/-- No cache and no byte of memory changes. -/
def KeepsMemoryAndCaches {ρ κ : Type} (s t : State ρ κ) : Prop :=
  t.memc.mem = s.memc.mem ∧ t.memc.front = s.memc.front

/-- The only changes to the CSR file over `n` clock edges and one retirement: CYCLE_CSR + n, INSTRET_CSR + 1 (R266,
R267). The host message stays. -/
def CountsOnly (s t : State) (n : Nat) : Prop :=
  (∀ c, t.csr.read c =
    if c = s.params.cycleCsr then s.csr.read c + BitVec.ofNat 32 n
    else if c = s.params.instretCsr then s.csr.read c + 1
    else s.csr.read c) ∧ t.csr.msg = s.csr.msg

/-- The instruction has retired: the parameters are as they were, nothing is in fault, the next phase is Fetch. -/
def Retired {ρ κ : Type} (s t : State ρ κ) : Prop := t.params = s.params ∧ t.fault = none ∧ t.phase = .fetch

/-- The destination register an instruction declares (R83). -/
def destReg : Instr → Option RegId
  | .add rd _ _ | .sub rd _ _ | .sll rd _ _ | .slt rd _ _ | .sltu rd _ _ => some rd
  | .xor rd _ _ | .srl rd _ _ | .sra rd _ _ | .or rd _ _ | .and rd _ _ => some rd
  | .addi rd _ _ | .slti rd _ _ | .sltiu rd _ _ | .xori rd _ _ | .ori rd _ _ | .andi rd _ _ => some rd
  | .slli rd _ _ | .srli rd _ _ | .srai rd _ _ => some rd
  | .lui rd _ | .auipc rd _ | .jal rd _ | .jalr rd _ _ | .lw rd _ _ | .csrrs rd _ => some rd
  | .beq _ _ _ | .bne _ _ _ | .blt _ _ _ | .bge _ _ _ | .bltu _ _ _ | .bgeu _ _ _ => none
  | .sw _ _ _ | .csrrw _ _ => none

/-! ## Runs -/

/-- The states a core of this hardware can be in: after boot with legal parameters and any image that loads (R282),
after a clock edge (R230), after a CPU reset between edges (R280). -/
inductive Reachable : State → Prop where
  | boot {p : Params} {image : List Segment} {s : State} :
      p.Legal → Machine.boot p image = .ok s → Reachable s
  | edge {s : State} : Reachable s → Reachable (clockEdge s)
  | reset {s : State} (v : Word) : Reachable s → Reachable (s.cpuReset v)

/-- A run of `n` instructions that completes: none of them stops the machine. -/
def SafeRun (n : Nat) (s : State) : Prop := ∃ t, Host.Core.run Sys2Proof.core n s = .next t

end Sys2Proof.Safety
end

