-- ==== Sys2Proof/Certificates/Slice0/Obligations.lean ====
section
/-! DEFINITION. The statements for the provers, in the order of OBLIGATIONS.json. Each docstring names the rule of the
spec that its statement formalises. -/

open Sys2Proof Sys2Proof.Machine Sys2Proof.Safety

/-! ## Reset and boot -/

/-- R281: the state a core is created in, for every parameter set. The spec marks what the source does not say of it as
its own decisions D17 and D38. -/
def Obligations.PowerOnState : Prop :=
  ∀ p : Params,
    let s := State.powerOn p
    s.params = p ∧ s.ip = p.resetIp ∧ s.phase = .fetch ∧ s.instr = none ∧
    s.reg 0 = some 0 ∧ (∀ i : RegId, i ≠ 0 → s.reg i = p.regInit[i]) ∧
    (∀ c, s.csr.read c = 0) ∧ s.pendingHostMessage = none ∧
    (∀ a, s.memc.mem.read a = 0) ∧
    s.memc.wait = 0 ∧ s.memc.fetchAddr = none ∧ s.memc.dataReq = none ∧ s.memc.noMem = false ∧ s.fault = none ∧
    (p.memModel = .uncached → s.memc.front = .uncached) ∧
    (p.memModel = .cached → ∃ ic dc, s.memc.front = .cached ic dc ∧
      ic.resident = [] ∧ ic.recency = [] ∧ ic.capacity = p.icacheLines ∧
      dc.resident = [] ∧ dc.recency = [] ∧ dc.capacity = p.dcacheLines)

/-- R280: what a CPU reset sets, what it leaves (the spec's own decision D16 for all but `ip`, CSRs and caches), and
what the first fetch after it waits for (which the spec marks as derived). -/
def Obligations.CpuResetEffects : Prop :=
  ∀ (s : State) (v : Word),
    let t := s.cpuReset v
    t.ip = v ∧ t.phase = .fetch ∧ t.instr = none ∧ (∀ c, t.csr.read c = 0) ∧ t.pendingHostMessage = none ∧
    (∀ i, t.reg i = s.reg i) ∧ t.memc = s.memc ∧ t.fault = s.fault ∧ t.params = s.params ∧
    (∀ ic dc u, s.memc.front = .cached ic dc → Running s → fetchStep t = .done u →
      u.memc.wait = if tagOf v ∈ ic.recency then s.memc.wait else s.params.lineLatency)

/-- R66: a segment that loads stands in memory at its physical address, with zeros after its file part, and nothing
else changes; the canonical form is kept. -/
def Obligations.LoadedSegmentBytes : Prop :=
  ∀ (n : Nat) (m m' : Memory) (g : Segment), loadSegment n m g = .ok m' →
    (m.wf = true → m'.wf = true) ∧ g.paddr + g.memSize ≤ n ∧ g.fileSize ≤ g.memSize ∧
    ∀ a, m'.read a =
      if g.paddr ≤ a ∧ a < g.paddr + g.fileSize then g.bytes.getD (a - g.paddr) 0
      else if g.paddr ≤ a ∧ a < g.paddr + g.memSize then 0
      else m.read a

/-- A word placed for the next fetch is the word the next fetch delivers, and it is in memory (notes/assumptions 9). -/
def Obligations.PlacedWordIsFetched : Prop :=
  ∀ (s : State) (w : Nat),
    fetchedWord (s.withFetchWord 32 w) = BitVec.ofNat 32 w ∧
    (s.withFetchWord 32 w).memc.mem.word (wordIndex s.ip) = BitVec.ofNat 32 w ∧
    (MemOk s.params s.memc → s.ip.toNat < s.params.memBytes → s.params.Legal →
      MemOk s.params (s.withFetchWord 32 w).memc)

/-! ## Encoding -/

/-- Every well-formed instruction's word decodes to that instruction, with every operand at every value its encoding
admits (R88 to R98). -/
def Obligations.DecodeEncodeRoundTrip : Prop :=
  ∀ i : Instr, i.wellFormed = true → decode (encode i) = .ok i

/-- Each word spells at most one instruction: what a word decodes to is well formed and encodes to that word
(R88 to R98). -/
def Obligations.EncodeDecodedWord : Prop :=
  ∀ (w : Word) (i : Instr), decode w = .ok i → i.wellFormed = true ∧ encode i = w

/-- R98: the decoder's record is that of the first row whose `(w & mask) = match`; the rows do not overlap. The table
is the spec's own decision D20. -/
def Obligations.DecoderFollowsTable : Prop :=
  (∀ w : Word, referenceDecoder w = tableDecoder w) ∧
  decoderTable.Pairwise fun x y => (x.bits ^^^ y.bits) &&& (x.mask &&& y.mask) ≠ 0

/-- Words of the test vectors V40 to V49, V70 to V82 and V95 to V102, decoded (95_test_vectors.md). -/
def Obligations.SampleWordsDecode : Prop :=
  decode 0x80000093 = .ok (.addi 1 0 0xFFFFF800) ∧ decode 0xFFFFF2B7 = .ok (.lui 5 0xFFFFF000) ∧
  decode 0x01F11093 = .ok (.slli 1 2 31) ∧ decode 0x40415093 = .ok (.srai 1 2 4) ∧
  decode 0x402081B3 = .ok (.sub 3 1 2) ∧ decode 0x7E208FE3 = .ok (.beq 1 2 4094) ∧
  decode 0x80208063 = .ok (.beq 1 2 0xFFFFF000) ∧ decode 0xFE20CEE3 = .ok (.blt 1 2 0xFFFFFFFC) ∧
  decode 0x7FFFF06F = .ok (.jal 0 0xFFFFE) ∧ decode 0x8000006F = .ok (.jal 0 0xFFF00000) ∧
  decode 0xFFC280E7 = .ok (.jalr 1 5 0xFFFFFFFC) ∧ decode 0x12345317 = .ok (.auipc 6 0x12345000) ∧
  decode 0x0400A203 = .ok (.lw 4 1 0x40) ∧ decode 0xFE20AE23 = .ok (.sw 1 2 0xFFFFFFFC) ∧
  decode 0xC00022F3 = .ok (.csrrs 5 0xC00) ∧ decode 0x78009073 = .ok (.csrrw 0x780 1)

/-- The refused words of V110 to V127, each by the reason it is refused (95_test_vectors.md section 2.5). -/
def Obligations.SampleWordsRefused : Prop :=
  decode 0x02105093 = .error .shiftFunct7 ∧ decode 0x00001003 = .error .loadFunct3 ∧
  decode 0x00001023 = .error .storeFunct3 ∧ decode 0x00000073 = .error .systemCall ∧
  decode 0x30200073 = .error .systemCall ∧ decode 0x0000000F = .error .fence ∧
  decode 0x780092F3 = .error .csrrwRd ∧ decode 0xC000A2F3 = .error .csrrsRs1 ∧
  decode 0x00005073 = .error .csrForm ∧ decode 0x02000033 = .error .opFunct7 ∧
  decode 0x00001067 = .error .jalrFunct3 ∧ decode 0x00002063 = .error .branchFunct3 ∧
  decode 0x00000001 = .error .compressedSpace ∧ decode 0x00000000 = .error .compressedSpace ∧
  decode 0xFFFFFFFF = .error .opcode

/-- R253: on a DecodeExecute edge whose fetch poll delivers a word that matches no row, F_DECODE is raised with that
word; no register, CSR but the cycle counter, `ip` or byte of memory changes. The fault is the spec's own decision
D20. -/
def Obligations.RefusedWordFaults : Prop :=
  ∀ (s : State) (w : Word), Running s → s.phase = .decodeExecute → pollFetch s.params s.memc = .ok (some w) →
    (∀ row ∈ decoderTable, w &&& row.mask ≠ row.bits) →
    (clockEdge s).fault = some (.decode w) ∧ step s = .fault (.decode w) ∧
    KeepsRegs s (clockEdge s) ∧ (clockEdge s).csr = s.csr.clockTick s.params ∧ (clockEdge s).ip = s.ip ∧
    KeepsMemoryAndCaches s (clockEdge s)

/-! ## Addresses and the BackingStore -/

/-- R52, R53, R54: the decomposition of an address; and R55, that it loses nothing but the low two bits, whose last
equality the spec marks as derived. -/
def Obligations.AddressDecomposition : Prop :=
  ∀ a : Word,
    (wordOffset a).toNat = a.toNat / 4 ∧ lineTag a = a &&& ~~~(0x3F : Word) ∧ (lineTag a).toNat % 64 = 0 ∧
    (lineOffset a).val = (wordOffset a).toNat % 16 ∧
    lineTag a ||| BitVec.ofNat 32 ((lineOffset a).val * 4) = a &&& ~~~(3 : Word) ∧
    lineTag a + BitVec.ofNat 32 ((wordOffset a).toNat % 16 * 4) = a &&& ~~~(3 : Word)

/-- R57, R58: a BackingStore access at or above MEM_BYTES raises F_ADDR; below it a read gives the slot's Word, and
after a write the slot's Word is the written one and every other slot's is as before. The fault is the spec's decision
D7. -/
def Obligations.BackingStoreAccess : Prop :=
  ∀ (n : Nat) (m : Memory) (a v : Word),
    (n ≤ a.toNat → backingRead n m a = .error (.addr a) ∧ backingWrite n m a v = .error (.addr a)) ∧
    (a.toNat < n → backingRead n m a = .ok (m.word (a.toNat / 4)) ∧
      ∃ m', backingWrite n m a v = .ok m' ∧
        ∀ b : Word, b.toNat < n →
          backingRead n m' b = .ok (if b >>> 2 = a >>> 2 then v else m.word (b.toNat / 4)))

/-- The Word at a word index is its four bytes, the first the least significant (R60; the spec's own decision D8). -/
def Obligations.WordIsLittleEndian : Prop :=
  ∀ (m : Memory) (w : Nat), (m.word w).toNat =
    (m.read (4 * w)).toNat + 256 * (m.read (4 * w + 1)).toNat + 65536 * (m.read (4 * w + 2)).toNat +
      16777216 * (m.read (4 * w + 3)).toNat

/-- The low two bits of an in-range address are ignored by every request, whose latch alone keeps them, and by every
ready fetch, load and store (R59, which the spec marks as derived). -/
def Obligations.LowAddressBitsIgnored : Prop :=
  ∀ (p : Params) (m : MemComponent) (a d : Word) (k : OpKind), a.toNat < p.memBytes →
    (∀ m', requestFetch p a m = .done m' →
      requestFetch p (a &&& ~~~(3 : Word)) m = .done { m' with fetchAddr := some (a &&& ~~~(3 : Word)) }) ∧
    (∀ m', requestData p a k m = .done m' →
      requestData p (a &&& ~~~(3 : Word)) k m = .done { m' with dataReq := some (a &&& ~~~(3 : Word), k) }) ∧
    pollFetch p { m with fetchAddr := some a } = pollFetch p { m with fetchAddr := some (a &&& ~~~(3 : Word)) } ∧
    completeLoad p a m = completeLoad p (a &&& ~~~(3 : Word)) m ∧
    completeStore p a d m = completeStore p (a &&& ~~~(3 : Word)) d m

/-! ## The memory protocol -/

/-- R162: the value of `wait` right after each request. The spec marks the table as derived. -/
def Obligations.WaitAfterRequest : Prop :=
  ∀ (p : Params) (a : Word) (k : OpKind) (m m' : MemComponent),
    (requestFetch p a m = .done m' → m'.wait =
      match m.front with
      | .uncached => p.uncachedLatency
      | .cached ic _ => if tagOf a ∈ ic.recency then m.wait else p.lineLatency) ∧
    (k ≠ .other → requestData p a k m = .done m' → m'.wait =
      match m.front with
      | .uncached => p.uncachedLatency
      | .cached _ dc => if tagOf a ∈ dc.recency then m.wait + p.dhitPenalty else p.lineLatency) ∧
    (requestData p a .other m = .done m' → m'.wait = m.wait ∧ m'.noMem = true)

/-- R137: on the Uncached port a request followed by no other becomes ready after exactly UNCACHED_LATENCY advances; a
request of kind Other is ready on the first poll. The spec marks the contract as derived. -/
def Obligations.UncachedLatencyExact : Prop :=
  ∀ (p : Params) (m : MemComponent) (a : Word), m.front = .uncached →
    (a.toNat < p.memBytes →
      (∃ m', requestFetch p a m = .done m' ∧ ∀ n, pollFetch p (advanceCycle^[n] m') =
        if n < p.uncachedLatency then .ok none else .ok (some (m.mem.word (wordIndex a)))) ∧
      (∃ m', requestData p a .load m = .done m' ∧ ∀ n d, pollData p a .load d (advanceCycle^[n] m') =
        if n < p.uncachedLatency then .ok (false, d, advanceCycle^[n] m')
        else .ok (true, m.mem.word (wordIndex a), advanceCycle^[n] m')) ∧
      (∃ m', requestData p a .store m = .done m' ∧ ∀ n d, pollData p a .store d (advanceCycle^[n] m') =
        if n < p.uncachedLatency then .ok (false, d, advanceCycle^[n] m')
        else .ok (true, d, { advanceCycle^[n] m' with mem := m.mem.setWord (wordIndex a) d }))) ∧
    (∃ m', requestData p a .other m = .done m' ∧ ∀ d, pollData p a .other d m' = .ok (true, d, m'))

/-- A cached fetch delivers, after exactly `wait` advances, the Word its line holds: the resident line's if the tag was
resident, however memory has changed since, else the BackingStore's (R146, R147, R73). -/
def Obligations.CachedFetchDelivers : Prop :=
  ∀ (p : Params) (m : MemComponent) (a : Word) (ic dc : Cache), p.Legal → MemOk p m → m.front = .cached ic dc →
    a.toNat < p.memBytes →
    ∃ m', requestFetch p a m = .done m' ∧ m'.mem = m.mem ∧ ∀ n, pollFetch p (advanceCycle^[n] m') =
      if n < m'.wait then .ok none
      else .ok (some (match ic.line? (tagOf a) with
        | some ln => ln[lineOffset a]
        | none => m.mem.word (wordIndex a)))

/-- R148: an instruction-cache hit re-reads nothing, inserts nothing, changes nothing but the latch and the recency
order, and returns the Word the line was filled with, even if memory has been written since. -/
def Obligations.FetchHitKeepsLine : Prop :=
  ∀ (p : Params) (m m' : MemComponent) (a : Word) (ic dc : Cache) (ln : Line), m.front = .cached ic dc →
    tagOf a ∈ ic.recency → ic.line? (tagOf a) = some ln → requestFetch p a m = .done m' →
    m' = { m with
      fetchAddr := some a
      front := .cached { ic with recency := tagOf a :: ic.recency.erase (tagOf a) } dc } ∧
    ∀ mem', pollFetch p { m' with mem := mem', wait := 0 } = .ok (some ln[lineOffset a])

/-- R158: a fetch request or poll neither reads nor changes the data cache; a data request or poll neither reads nor
changes the instruction cache; one line may stand in both with different contents. -/
def Obligations.CachesAreIndependent : Prop :=
  (∀ (p : Params) (m m' : MemComponent) (a d w : Word) (k : OpKind) (b : Bool) (ic dc : Cache),
    m.front = .cached ic dc →
    (requestFetch p a m = .done m' → ∃ ic', m'.front = .cached ic' dc ∧
      ∀ dc2, requestFetch p a { m with front := .cached ic dc2 } = .done { m' with front := .cached ic' dc2 }) ∧
    (requestData p a k m = .done m' → ∃ dc', m'.front = .cached ic dc' ∧
      ∀ ic2, requestData p a k { m with front := .cached ic2 dc } = .done { m' with front := .cached ic2 dc' }) ∧
    (pollData p a k d m = .ok (b, w, m') → ∃ dc', m'.front = .cached ic dc' ∧
      ∀ ic2, pollData p a k d { m with front := .cached ic2 dc } =
        .ok (b, w, { m' with front := .cached ic2 dc' })) ∧
    ∀ dc2, pollFetch p { m with front := .cached ic dc2 } = pollFetch p m) ∧
  ∃ (p : Params) (m : MemComponent) (ic dc : Cache) (t : Nat) (l1 l2 : Line), p.Legal ∧ MemOk p m ∧
    m.front = .cached ic dc ∧ ic.line? t = some l1 ∧ dc.line? t = some l2 ∧ l1 ≠ l2

/-- A miss in a full cache evicts exactly the tail of that cache's recency list, charges the line latency and leaves the
evicted tag a miss: a fetch in the instruction cache, a load or store in the data cache (R144, R145, R146, R150, R160).
With EVICT_ON_REACH a cache is full one line earlier (R159); that reading is the spec's own decision D10. That an
eviction leaves memory as it is follows from the data cache's coherence (R42). -/
def Obligations.FullCacheMissEvictsTail : Prop :=
  ∀ (p : Params) (m : MemComponent) (a : Word) (ic dc : Cache), p.Legal → MemOk p m → m.front = .cached ic dc →
    a.toNat < p.memBytes →
    (tagOf a ∉ ic.recency → ic.resident.length = fullLines p ic →
      ∃ ic' v, requestFetch p a m =
          .done { m with fetchAddr := some a, wait := p.lineLatency, front := .cached ic' dc } ∧
        ic.recency.getLast? = some v ∧ ic'.recency = tagOf a :: ic.recency.erase v ∧ v ∉ ic'.recency ∧
        ic'.capacity = ic.capacity ∧ ic'.resident.length = ic.resident.length ∧
        ∀ t, ic'.line? t = if t = tagOf a then some (fillLine m.mem t) else if t = v then none else ic.line? t) ∧
    ∀ k, k ≠ .other → tagOf a ∉ dc.recency → dc.resident.length = fullLines p dc →
      ∃ dc' v, requestData p a k m =
          .done { m with
            dataReq := some (a, k), noMem := false, wait := p.lineLatency, front := .cached ic dc' } ∧
        dc.recency.getLast? = some v ∧ dc'.recency = tagOf a :: dc.recency.erase v ∧ v ∉ dc'.recency ∧
        dc'.capacity = dc.capacity ∧ dc'.resident.length = dc.resident.length ∧
        ∀ t, dc'.line? t = if t = tagOf a then some (fillLine m.mem t) else if t = v then none else dc.line? t

/-- R153: an eviction from the data cache writes all 16 Words of the victim line to its place in the BackingStore,
whether or not any was stored, and no byte outside that line. -/
def Obligations.EvictionWritesWholeLine : Prop :=
  ∀ (p : Params) (m m' : MemComponent) (a : Word) (k : OpKind) (ic dc dc' : Cache) (v : Nat) (ln : Line),
    CacheOk p dc → k ≠ .other → m.front = .cached ic dc → requestData p a k m = .done m' →
    m'.front = .cached ic dc' → dc.line? v = some ln → dc'.line? v = none →
    (∀ (i : Nat) (h : i < lineWords), m'.mem.word (v / 4 + i) = ln[i]) ∧
    ∀ b, (b < v ∨ v + lineBytes ≤ b) → m'.mem.read b = m.mem.read b

/-- R70: after a completed store, a load of the same address, once ready, returns the stored Word, and so does the
BackingStore. -/
def Obligations.StoreThenLoad : Prop :=
  ∀ (p : Params) (m m1 : MemComponent) (a d w : Word), p.Legal → MemOk p m → m.noMem = false →
    pollData p a .store d m = .ok (true, w, m1) →
    m1.mem.word (wordIndex a) = d ∧
    ∃ m2, requestData p a .load m1 = .done m2 ∧
      ∀ x, pollData p a .load x (advanceCycle^[m2.wait] m2) = .ok (true, d, advanceCycle^[m2.wait] m2)

/-- R149: a request of kind Other sets the latch and the flag, changes nothing else, faults on no address, and its poll
is ready whatever `wait` is. That nothing else changes is the spec's own decision D13. -/
def Obligations.OtherRequestIsInstant : Prop :=
  ∀ (p : Params) (m : MemComponent) (a b d : Word),
    requestData p a .other m = .done { m with dataReq := some (a, .other), noMem := true } ∧
    ∀ n, pollData p b .other d (advanceCycle^[n] { m with dataReq := some (a, .other), noMem := true }) =
      .ok (true, d, advanceCycle^[n] { m with dataReq := some (a, .other), noMem := true })

/-- R131: a poll that does not match the last request of its side raises F_POLL, and a poll that matches never does;
the controller never polls without a matching request. The fault is the spec's own decision D14, the last clause its
own inference. -/
def Obligations.UnmatchedPollFaults : Prop :=
  (∀ (p : Params) (m : MemComponent) (a d : Word) (k : OpKind),
    (m.fetchAddr = none ↔ pollFetch p m = .error .poll) ∧
    ((∃ a', m.dataReq = some (a', k) ∧ (a' = a ∨ k = .other)) ↔ pollData p a k d m ≠ .error .poll)) ∧
  ∀ s : State, Inv s → Running s → (clockEdge s).fault ≠ some .poll

/-- R32, R142: every operation keeps the caches' capacity and membership invariants and the rest of the component's,
and every request that reaches a cache leaves its tag at the front of that cache's recency list, once, the others in
their order. No in-range request stops; and with EVICT_ON_REACH false the number of resident lines never falls and
grows by one on each miss until it equals the capacity (R160, which the spec marks as derived). -/
def Obligations.OperationsKeepCaches : Prop :=
  ∀ (p : Params) (m : MemComponent), p.Legal → MemOk p m →
    (∀ a m', requestFetch p a m = .done m' → MemOk p m') ∧
    (∀ a k m', requestData p a k m = .done m' → MemOk p m') ∧
    (∀ a k d b w m', pollData p a k d m = .ok (b, w, m') → MemOk p m') ∧
    MemOk p (advanceCycle m) ∧
    (∀ a k, a.toNat < p.memBytes →
      (∃ m', requestFetch p a m = .done m') ∧ (∃ m', requestData p a k m = .done m')) ∧
    (∀ ic dc a m', m.front = .cached ic dc → requestFetch p a m = .done m' →
      ∃ ic', m'.front = .cached ic' dc ∧ ic'.resident.length =
        if tagOf a ∈ ic.recency then ic.resident.length else min (ic.resident.length + 1) (fullLines p ic)) ∧
    (∀ ic dc a k m', k ≠ .other → m.front = .cached ic dc →
      requestData p a k m = .done m' →
      ∃ dc', m'.front = .cached ic dc' ∧ dc'.resident.length =
        if tagOf a ∈ dc.recency then dc.resident.length else min (dc.resident.length + 1) (fullLines p dc)) ∧
    (∀ ic dc a k d b w m', m.front = .cached ic dc → pollData p a k d m = .ok (b, w, m') →
      ∃ dc', m'.front = .cached ic dc' ∧ dc'.resident.length = dc.resident.length ∧ dc'.recency = dc.recency) ∧
    (∀ ic dc a m', m.front = .cached ic dc → requestFetch p a m = .done m' →
      ∃ ic' l, m'.front = .cached ic' dc ∧ ic'.recency = tagOf a :: l ∧ l.Sublist ic.recency ∧ tagOf a ∉ l) ∧
    (∀ ic dc a k m', k ≠ .other → m.front = .cached ic dc → requestData p a k m = .done m' →
      ∃ dc' l, m'.front = .cached ic dc' ∧ dc'.recency = tagOf a :: l ∧ l.Sublist dc.recency ∧ tagOf a ∉ l)

/-! ## The Executor -/

/-- R171, R172: the ALU functions, on the numbers the Words stand for (the spec's own decisions D18 and D19). -/
def Obligations.AluFunctions : Prop :=
  ∀ a b : Word,
    (aluFn .add a b).toNat = (a.toNat + b.toNat) % 2 ^ 32 ∧
    (aluFn .sub a b).toNat = (a.toNat + (2 ^ 32 - b.toNat)) % 2 ^ 32 ∧
    (aluFn .sll a b).toNat = a.toNat * 2 ^ (b.toNat % 32) % 2 ^ 32 ∧
    (aluFn .srl a b).toNat = a.toNat / 2 ^ (b.toNat % 32) ∧
    (aluFn .sra a b).toInt = a.toInt / 2 ^ (b.toNat % 32) ∧
    aluFn .slt a b = (if a.toInt < b.toInt then 1 else 0) ∧
    aluFn .sltu a b = (if a.toNat < b.toNat then 1 else 0) ∧
    ∀ i, (aluFn .xor a b).getLsbD i = (a.getLsbD i != b.getLsbD i) ∧
      (aluFn .and a b).getLsbD i = (a.getLsbD i && b.getLsbD i) ∧
      (aluFn .or a b).getLsbD i = (a.getLsbD i || b.getLsbD i)

/-- R200: the comparison functions (signed readings: the spec's own decision D18). -/
def Obligations.BranchFunctions : Prop :=
  ∀ a b : Word,
    (brFn .eq a b = true ↔ a = b) ∧ (brFn .ne a b = true ↔ a ≠ b) ∧
    (brFn .lt a b = true ↔ a.toInt < b.toInt) ∧ (brFn .ltu a b = true ↔ a.toNat < b.toNat) ∧
    (brFn .ge a b = true ↔ ¬ a.toInt < b.toInt) ∧ (brFn .geu a b = true ↔ ¬ a.toNat < b.toNat) ∧
    brFn .always a b = true ∧ brFn .never a b = false

/-- R203, R204, R239: what the Executor fills into a record of each kind, for every function selector, those no
reference-decoder word selects among them. `o` is the record's immediate. Kinds ALU, BR, LD and ST (R170, R201, R220,
R221) take `addr` or `data` 0 by the spec's own decision D27, kind J (R202) its address rule by D37. -/
def Obligations.ExecutorKinds : Prop :=
  ∀ (r : Record) (ip o : Word),
    (r.kind = .alu → execute r ip =
      { r with data := aluFn r.aluOp r.v1 (r.imm.getD r.v2), addr := 0, nextIp := ip + 4 }) ∧
    (r.kind = .ld → execute r ip =
      { r with addr := aluFn r.aluOp r.v1 (r.imm.getD r.v2), data := 0, nextIp := ip + 4 }) ∧
    (r.kind = .st → execute r ip =
      { r with addr := aluFn r.aluOp r.v1 (r.imm.getD r.v2), data := r.v2, nextIp := ip + 4 }) ∧
    (r.kind = .csrr → execute r ip = { r with data := r.csrVal, addr := 0, nextIp := ip + 4 }) ∧
    (r.kind = .csrw → execute r ip = { r with data := r.v1, addr := 0, nextIp := ip + 4 }) ∧
    (r.kind = .br → r.imm = some o → execute r ip =
      { r with nextIp := (if brFn r.brOp r.v1 r.v2 then ip + o else ip + 4), addr := 0, data := 0 }) ∧
    (r.kind = .j → r.imm = some o → execute r ip =
      { r with data := ip + 4, nextIp := (if brFn r.brOp 0 0 then ip + o else ip + 4), addr := 0 }) ∧
    (r.kind = .jr → r.imm = some o → execute r ip =
      { r with data := ip + 4, nextIp := (if brFn r.brOp r.v1 r.v2 then o + r.v1 else ip + 4), addr := 0 }) ∧
    (r.kind = .auipc → r.imm = some o → execute r ip = { r with data := ip + o, nextIp := ip + 4, addr := 0 })

/-! ## The controller -/

/-- R250, for any collaborators: a stopped model does nothing, by edge or by step; no CPU reset clears the fault; the
edge that faults keeps its CSR tick and runs nothing after the raise: no commit, no phase change, no memory advance; the
codes of the faults. The spec's own decisions D22 and D32. -/
def Obligations.StoppedModelStays : Prop :=
  (∀ (ρ κ : Type) (K : Collaborators ρ κ) (s : State ρ κ) (f : Fault) (n : Nat) (v : Word), s.fault = some f →
    clockEdgeWith K s = s ∧ clockEdgesWith K n s = s ∧ stepWith K s = .fault f ∧
    (s.cpuResetWith K v).fault = some f) ∧
  (∀ (s : State) (f : Fault) (n : Nat), s.fault = some f → clockEdges n s = s ∧ step s = .fault f) ∧
  (∀ (ρ κ : Type) (K : Collaborators ρ κ) (s : State ρ κ), Running s → (clockEdgeWith K s).fault ≠ none →
    let t := clockEdgeWith K s
    t.csr = K.csrs.clockTick s.csr ∧ t.memc.wait = s.memc.wait ∧ t.ip = s.ip ∧ t.phase = s.phase ∧ t.regs = s.regs) ∧
  ∀ (a w v : Word) (i : RegId), (Fault.addr a).code = some 1 ∧ Fault.poll.code = some 2 ∧
    (Fault.decode w).code = some 3 ∧ (Fault.record v).code = some 4 ∧ (Fault.uninit i).code = some 5

/-- R256: a fault is raised before the faulting instruction changes any architectural state, and it is raised in the
Fetch phase (a fetch F_ADDR) or in the DecodeExecute phase. The spec marks this as derived. -/
def Obligations.FaultsArePrecise : Prop :=
  ∀ (s : State) (f : Fault), Inv s → Running s → (clockEdge s).fault = some f →
    KeepsRegs s (clockEdge s) ∧ (clockEdge s).csr = s.csr.clockTick s.params ∧ (clockEdge s).ip = s.ip ∧
    (clockEdge s).memc.mem = s.memc.mem ∧ (clockEdge s).phase = s.phase ∧
    ((s.phase = .fetch ∧ f = .addr s.ip) ∨ s.phase = .decodeExecute)

/-- The faults of the machine's own controller are F_ADDR, F_DECODE and F_UNINIT: it raises no F_POLL (R252), the
reference decoder causes no F_RECORD (R254), and no state in order raises the model's own `impossible`
(notes/assumptions 5). With every register holding a value there is no F_UNINIT (R255). -/
def Obligations.ControllerFaultKinds : Prop :=
  ∀ (s : State) (f : Fault), Inv s → Running s → (clockEdge s).fault = some f →
    (∃ a, f = .addr a ∧ s.params.memBytes ≤ a.toNat) ∨ (∃ w x, f = .decode w ∧ decode w = .error x) ∨
    ∃ i, f = .uninit i ∧ i ≠ 0 ∧ s.reg i = none

/-- R257: the order in which an instruction's edges find the faults it can cause, for any collaborators: F_ADDR on the
Fetch edge; then, on the DecodeExecute edge, F_DECODE, F_RECORD, F_UNINIT for `rs1`, F_UNINIT for `rs2`, F_ADDR. The
spec marks the order as derived. -/
def Obligations.FaultPriority : Prop :=
  ∀ (ρ κ : Type) (K : Collaborators ρ κ) (s : State ρ κ), Running s →
    (s.phase = .fetch → s.params.memBytes ≤ s.ip.toNat → (clockEdgeWith K s).fault = some (.addr s.ip)) ∧
    ∀ w, s.phase = .decodeExecute → pollFetch s.params s.memc = .ok (some w) →
      (K.decoder w = none → (clockEdgeWith K s).fault = some (.decode w)) ∧
      ∀ r, K.decoder w = some r →
        (r.wellFormed = false → (clockEdgeWith K s).fault = some (.record w)) ∧
        (r.wellFormed = true →
          (∀ i, r.rs1 = some i → K.regs.read s.regs i = none → (clockEdgeWith K s).fault = some (.uninit i)) ∧
          ((∀ i, r.rs1 = some i → K.regs.read s.regs i ≠ none) →
            (∀ j, r.rs2 = some j → K.regs.read s.regs j = none →
              (clockEdgeWith K s).fault = some (.uninit j)) ∧
            ((∀ j, r.rs2 = some j → K.regs.read s.regs j ≠ none) → ∀ r1, (s.tick K).readOperands K r = .ok r1 →
              r.kind = .ld ∨ r.kind = .st → s.params.memBytes ≤ (execute r1 s.ip).addr.toNat →
              (clockEdgeWith K s).fault = some (.addr (execute r1 s.ip).addr))))

/-- R237, for any collaborators: a stall edge changes nothing but the CSR tick and the wait counter, which falls by one;
the Fetch edge never stalls; the controller never stalls for ever. -/
def Obligations.StallEdge : Prop :=
  ∀ (ρ κ : Type) (K : Collaborators ρ κ) (s : State ρ κ), Running s →
    ((s.phase = .decodeExecute ∧ pollFetch s.params s.memc = .ok none) ∨
      (s.phase = .writeback ∧ ∃ r d m, s.instr = some r ∧
        pollData s.params r.addr r.kind.opKind r.data s.memc = .ok (false, d, m)) →
      clockEdgeWith K s =
        { s with csr := K.csrs.clockTick s.csr, memc := { s.memc with wait := s.memc.wait - 1 } } ∧
      0 < s.memc.wait) ∧
    (s.phase = .fetch → (clockEdgeWith K s).fault = none → (clockEdgeWith K s).phase = .decodeExecute) ∧
    ∃ n, (clockEdgesWith K n s).fault ≠ none ∨ (clockEdgesWith K n s).phase ≠ s.phase

/-- R235, R236, for any collaborators: a Writeback edge whose poll is not ready stalls; on the ready one the polled Word
goes to the record's destination register and, for kind CSRW, to its CSR, the retirement is counted, `ip` is the
record's next pointer and the phase is Fetch. -/
def Obligations.WritebackEdge : Prop :=
  ∀ (ρ κ : Type) (K : Collaborators ρ κ) (s : State ρ κ) (r : Record) (ok : Bool) (d : Word) (m : MemComponent),
    Running s → s.phase = .writeback → s.instr = some r →
    pollData s.params r.addr r.kind.opKind r.data s.memc = .ok (ok, d, m) →
    let t := clockEdgeWith K s
    t.fault = none ∧ t.params = s.params ∧
    (ok = false → t = { s with csr := K.csrs.clockTick s.csr, memc := advanceCycle s.memc }) ∧
    (ok = true → t.phase = .fetch ∧ t.ip = r.nextIp ∧ t.instr = some { r with data := d } ∧
      t.memc = advanceCycle m ∧
      (r.rd = none → t.regs = s.regs) ∧ (∀ i, r.rd = some i → t.regs = K.regs.write s.regs i d) ∧
      (r.kind ≠ .csrw → t.csr = K.csrs.instructionRetired (K.csrs.clockTick s.csr)) ∧
      (∀ c, r.kind = .csrw → r.csr = some c →
        t.csr = K.csrs.instructionRetired (K.csrs.write (K.csrs.clockTick s.csr) c d)))

/-- A step is the hardware's own clock edges, up to the first that retires an instruction or faults, and it is never
refused, for any collaborators; and the machine's step is the step with the reference ones (R6, R230, R231, R237). -/
def Obligations.StepIsClockEdges : Prop :=
  (∀ (ρ κ : Type) (K : Collaborators ρ κ) (s : State ρ κ), Running s →
    (∀ t, stepWith K s = .next t → ∃ n, 0 < n ∧ clockEdgesWith K n s = t ∧ t.phase = .fetch ∧ t.fault = none ∧
      ∀ k, 0 < k → k < n → (clockEdgesWith K k s).phase ≠ .fetch ∧ (clockEdgesWith K k s).fault = none) ∧
    (∀ f, stepWith K s = .fault f → ∃ n, 0 < n ∧ (clockEdgesWith K n s).fault = some f ∧
      ∀ k, 0 < k → k < n → (clockEdgesWith K k s).phase ≠ .fetch ∧ (clockEdgesWith K k s).fault = none) ∧
    ∀ x, stepWith K s ≠ .refused x) ∧
  ∀ s : State, step s = stepWith (Collaborators.reference s.params) s ∧
    ∀ n, clockEdges (n + 1) s = clockEdges n (clockEdge s)

/-- R238: with `wait = 0` at its Fetch edge, an instruction takes exactly `1 + max(Wf, 1) + max(Wd, 1)` clock edges,
and `wait` is 0 again at the next one's Fetch edge. The spec marks the formula as derived. -/
def Obligations.EdgesPerInstruction : Prop :=
  ∀ (s t : State) (i : Instr), Inv s → Running s → s.phase = .fetch → s.memc.wait = 0 →
    decode (fetchedWord s) = .ok i → step s = .next t →
    t = clockEdges (1 + max (fetchWait s) 1 + max (accessWait s 0 i) 1) s ∧ t.memc.wait = 0 ∧
    ∀ k, 0 < k → k < 1 + max (fetchWait s) 1 + max (accessWait s 0 i) 1 → (clockEdges k s).phase ≠ .fetch

/-- From any state, with any collaborators, the controller retires an instruction or faults within a bounded number of
edges: it never stalls for ever (R138, R237). The bound is the model's own. -/
def Obligations.ControllerNeverHangs : Prop :=
  ∀ (ρ κ : Type) (K : Collaborators ρ κ) (s : State ρ κ), Running s → ∃ n, 0 < n ∧
    n ≤ 3 + s.memc.wait + 2 * s.params.lineLatency + 2 * s.params.uncachedLatency + s.params.dhitPenalty ∧
    ((clockEdgesWith K n s).fault ≠ none ∨ (clockEdgesWith K n s).phase = .fetch)

/-- A step from the Fetch phase runs the instruction that the fetched word decodes to, from a state that differs by the
fetch alone: its clock edges, its latch, the instruction cache and the phase (R231 to R233). A word that decodes to
none stops it. -/
def Obligations.StepRunsDecoded : Prop :=
  ∀ s : State, Inv s → Running s → s.phase = .fetch → s.ip.toNat < s.params.memBytes →
    (∀ x, decode (fetchedWord s) = .error x → step s = .fault (.decode (fetchedWord s))) ∧
    ∀ i, decode (fetchedWord s) = .ok i → ∃ s1, step s = exec i s1 ∧
      s1.params = s.params ∧ s1.ip = s.ip ∧ KeepsRegs s s1 ∧ s1.instr = none ∧ s1.phase = .decodeExecute ∧
      Running s1 ∧ Inv s1 ∧
      (∀ c, s1.csr.read c =
        if c = s.params.cycleCsr then s.csr.read c + BitVec.ofNat 32 (max (fetchWait s) 1) else s.csr.read c) ∧
      s1.csr.msg = s.csr.msg ∧
      s1.memc.mem = s.memc.mem ∧ s1.memc.wait = 0 ∧ s1.memc.fetchAddr = some s.ip ∧
      s1.memc.dataReq = s.memc.dataReq ∧ s1.memc.noMem = s.memc.noMem ∧
      (s.memc.front = .uncached → s1.memc.front = .uncached) ∧
      (∀ ic dc, s.memc.front = .cached ic dc → ∃ ic', s1.memc.front = .cached ic' dc ∧
        ic'.recency.head? = some (tagOf s.ip))

/-! ## Invariants -/

/-- The invariant holds of every core as it is created and booted (R12, R281, R282). -/
def Obligations.BootGivesInv : Prop :=
  (∀ p : Params, p.Legal → Inv (State.powerOn p)) ∧
  ∀ (p : Params) (image : List Segment) (s : State), p.Legal → boot p image = .ok s →
    Inv s ∧ Running s ∧ s.params = p ∧ s.phase = .fetch ∧ s.ip = p.resetIp

/-- The invariant (memory and CSRs canonical, caches consistent and the data cache coherent, each phase with its
latches) is kept by every clock edge and every CPU reset. -/
def Obligations.InvKeptByClockEdge : Prop :=
  ∀ s : State, Inv s → Inv (clockEdge s) ∧ ∀ v, Inv (s.cpuReset v)

/-- The invariant is kept by every step. -/
def Obligations.InvKeptByStep : Prop :=
  ∀ s t : State, Inv s → step s = .next t → Inv t ∧ Running t ∧ t.params = s.params ∧ t.phase = .fetch

/-- R42: in every reachable state each resident data line holds the BackingStore's Words, so the write-back of a
resident line never changes a Word of memory. The spec marks the invariant as derived. -/
def Obligations.DataCacheCoherent : Prop :=
  ∀ (s : State) (ic dc : Cache), Reachable s → s.memc.front = .cached ic dc →
    ∀ t ln, dc.line? t = some ln →
      (∀ (o : Nat) (h : o < lineWords), ln[o] = s.memc.mem.word (t / 4 + o)) ∧
      writeBackLine s.memc.mem t ln = s.memc.mem

/-- A safe run keeps the invariant, never stops and leaves the controller at a Fetch phase (R231, R237). -/
def Obligations.SafeRunKeepsInv : Prop :=
  ∀ (n : Nat) (s t : State), Inv s → Running s → s.phase = .fetch → Host.Core.run Sys2Proof.core n s = .next t →
    Inv t ∧ Running t ∧ t.phase = .fetch ∧ t.params = s.params ∧ ∃ k, n ≤ k ∧ clockEdges k s = t

/-! ## Instructions: results, frames and completion -/

/-- The ten register-register instructions complete with the result their rules give, `ip +32 4`, no byte of memory,
cache line, CSR but the counters, or other register changed (R173 to R182). A write to `x0` is discarded. -/
def Obligations.RegisterAluResults : Prop :=
  ∀ (s : State) (rd rs1 rs2 : RegId) (a b : Word), Running s → s.params.Legal →
    s.reg rs1 = some a → s.reg rs2 = some b →
    ∀ row ∈ ([(.add rd rs1 rs2, a + b), (.sub rd rs1 rs2, a - b),
        (.sll rd rs1 rs2, BitVec.ofNat 32 (a.toNat * 2 ^ (b.toNat % 32))),
        (.slt rd rs1 rs2, if a.toInt < b.toInt then 1 else 0),
        (.sltu rd rs1 rs2, if a.toNat < b.toNat then 1 else 0),
        (.xor rd rs1 rs2, a ^^^ b),
        (.srl rd rs1 rs2, BitVec.ofNat 32 (a.toNat / 2 ^ (b.toNat % 32))),
        (.sra rd rs1 rs2, BitVec.ofInt 32 (a.toInt / 2 ^ (b.toNat % 32))),
        (.or rd rs1 rs2, a ||| b), (.and rd rs1 rs2, a &&& b)] : List (Instr × Word)),
      ∃ t, exec row.1 s = .next t ∧ WritesReg s t rd row.2 ∧ t.ip = s.ip + 4 ∧ KeepsMemoryAndCaches s t ∧
        CountsOnly s t 2 ∧ Retired s t

/-- The nine register-immediate instructions and LUI, the same way (R183 to R192); `v` is any immediate or shift
amount in its instruction's operand field. -/
def Obligations.ImmediateAluResults : Prop :=
  ∀ (s : State) (rd rs1 : RegId) (a v : Word), Running s → s.params.Legal → s.reg rs1 = some a →
    ∀ row ∈ ([(.addi rd rs1 v, a + v), (.slti rd rs1 v, if a.toInt < v.toInt then 1 else 0),
        (.sltiu rd rs1 v, if a.toNat < v.toNat then 1 else 0), (.xori rd rs1 v, a ^^^ v),
        (.ori rd rs1 v, a ||| v), (.andi rd rs1 v, a &&& v),
        (.slli rd rs1 v, BitVec.ofNat 32 (a.toNat * 2 ^ (v.toNat % 32))),
        (.srli rd rs1 v, BitVec.ofNat 32 (a.toNat / 2 ^ (v.toNat % 32))),
        (.srai rd rs1 v, BitVec.ofInt 32 (a.toInt / 2 ^ (v.toNat % 32))),
        (.lui rd v, v)] : List (Instr × Word)),
      ∃ t, exec row.1 s = .next t ∧ WritesReg s t rd row.2 ∧ t.ip = s.ip + 4 ∧ KeepsMemoryAndCaches s t ∧
        CountsOnly s t 2 ∧ Retired s t

/-- LUI needs no register to hold a value (R192: "Faults: none"). -/
def Obligations.LuiAlwaysCompletes : Prop :=
  ∀ (s : State) (rd : RegId) (v : Word), Running s → s.params.Legal →
    ∃ t, exec (.lui rd v) s = .next t ∧ WritesReg s t rd v ∧ t.ip = s.ip + 4 ∧ KeepsMemoryAndCaches s t ∧
      CountsOnly s t 2 ∧ Retired s t

/-- The six conditional branches complete, taken to `ip +32 imm` exactly when their comparison holds, and change
nothing else (R205 to R210). -/
def Obligations.BranchResults : Prop :=
  ∀ (s : State) (rs1 rs2 : RegId) (imm a b : Word), Running s → s.params.Legal →
    s.reg rs1 = some a → s.reg rs2 = some b →
    ∀ row ∈ ([(.beq rs1 rs2 imm, decide (a = b)), (.bne rs1 rs2 imm, decide (a ≠ b)),
        (.blt rs1 rs2 imm, decide (a.toInt < b.toInt)), (.bge rs1 rs2 imm, decide (b.toInt ≤ a.toInt)),
        (.bltu rs1 rs2 imm, decide (a.toNat < b.toNat)), (.bgeu rs1 rs2 imm, decide (b.toNat ≤ a.toNat))]
        : List (Instr × Bool)),
      ∃ t, exec row.1 s = .next t ∧ KeepsRegs s t ∧ t.ip = (if row.2 = true then s.ip + imm else s.ip + 4) ∧
        KeepsMemoryAndCaches s t ∧ CountsOnly s t 2 ∧ Retired s t

/-- JAL, JALR and AUIPC complete: the link value or the sum in `rd`, the target in `ip`, nothing else (R211 to R213).
JALR uses the old value of its base and keeps bit 0 of its target. -/
def Obligations.JumpResults : Prop :=
  ∀ (s : State) (rd rs1 : RegId) (imm a : Word), Running s → s.params.Legal →
    (∃ t, exec (.jal rd imm) s = .next t ∧ WritesReg s t rd (s.ip + 4) ∧ t.ip = s.ip + imm ∧
      KeepsMemoryAndCaches s t ∧ CountsOnly s t 2 ∧ Retired s t) ∧
    (∃ t, exec (.auipc rd imm) s = .next t ∧ WritesReg s t rd (s.ip + imm) ∧ t.ip = s.ip + 4 ∧
      KeepsMemoryAndCaches s t ∧ CountsOnly s t 2 ∧ Retired s t) ∧
    (s.reg rs1 = some a → ∃ t, exec (.jalr rd rs1 imm) s = .next t ∧ WritesReg s t rd (s.ip + 4) ∧
      t.ip = a + imm ∧ KeepsMemoryAndCaches s t ∧ CountsOnly s t 2 ∧ Retired s t)

/-- LW completes: `rd` holds the Word at the address's slot, every byte of memory and the instruction cache are as
before, and it took as many edges as its access waits (R224, R71, R162, R237). -/
def Obligations.LoadResult : Prop :=
  ∀ (s : State) (rd rs1 : RegId) (imm a : Word), Running s → s.params.Legal → MemOk s.params s.memc →
    s.reg rs1 = some a → (a + imm).toNat < s.params.memBytes →
    ∃ t, exec (.lw rd rs1 imm) s = .next t ∧ WritesReg s t rd (s.memc.mem.word ((a + imm).toNat / 4)) ∧
      t.ip = s.ip + 4 ∧ KeepsMemory s t ∧
      CountsOnly s t (1 + max (dataWait s s.memc.wait (a + imm)) 1) ∧ Retired s t ∧
      (s.memc.front = .uncached → t.memc.front = .uncached) ∧
      ∀ ic dc, s.memc.front = .cached ic dc → ∃ dc', t.memc.front = .cached ic dc' ∧
        tagOf (a + imm) ∈ Assoc.keys dc'.resident

/-- SW completes: the slot of its address holds the stored Word, in memory and in the data line, every byte outside the
slot is as before, no register and no instruction-cache line changes (R225, R155, R157, R162). -/
def Obligations.StoreResult : Prop :=
  ∀ (s : State) (rs1 rs2 : RegId) (imm a v : Word), Running s → s.params.Legal → MemOk s.params s.memc →
    s.reg rs1 = some a → s.reg rs2 = some v → (a + imm).toNat < s.params.memBytes →
    ∃ t, exec (.sw rs1 rs2 imm) s = .next t ∧ KeepsRegs s t ∧ t.ip = s.ip + 4 ∧
      t.memc.mem.word (wordIndex (a + imm)) = v ∧
      (∀ b, (b < 4 * wordIndex (a + imm) ∨ 4 * wordIndex (a + imm) + 4 ≤ b) →
        t.memc.mem.read b = s.memc.mem.read b) ∧
      CountsOnly s t (1 + max (dataWait s s.memc.wait (a + imm)) 1) ∧ Retired s t ∧
      (s.memc.front = .uncached → t.memc.front = .uncached) ∧
      ∀ ic dc, s.memc.front = .cached ic dc → ∃ dc' ln, t.memc.front = .cached ic dc' ∧
        dc'.line? (tagOf (a + imm)) = some ln ∧ ln[lineOffset (a + imm)] = v

/-- CSRRS with rs1 = x0 completes: `rd` holds the CSR as its DecodeExecute edge reads it, so the cycle counter counts
that edge, and no CSR but the counters changes (R226, R266, R267). -/
def Obligations.CsrReadResult : Prop :=
  ∀ (s : State) (rd : RegId) (c : CsrId), Running s → s.params.Legal →
    ∃ t, exec (.csrrs rd c) s = .next t ∧
      WritesReg s t rd (if c = s.params.cycleCsr then s.csr.read c + 1 else s.csr.read c) ∧
      t.ip = s.ip + 4 ∧ KeepsMemoryAndCaches s t ∧ CountsOnly s t 2 ∧ Retired s t

/-- CSRRW with rd = x0 completes: the CSR holds the written value (INSTRET_CSR one more, its own retirement), the other
CSRs only count, and a non-zero write to HOST_CSR raises the host message (R227, R265 to R268). -/
def Obligations.CsrWriteResult : Prop :=
  ∀ (s : State) (c : CsrId) (rs1 : RegId) (a : Word), Running s → s.params.Legal → s.reg rs1 = some a →
    ∃ t, exec (.csrrw c rs1) s = .next t ∧ KeepsRegs s t ∧ t.ip = s.ip + 4 ∧ KeepsMemoryAndCaches s t ∧
      Retired s t ∧
      (∀ d, t.csr.read d =
        if d = c then (if d = s.params.instretCsr then a + 1 else a)
        else if d = s.params.cycleCsr then s.csr.read d + 2
        else if d = s.params.instretCsr then s.csr.read d + 1
        else s.csr.read d) ∧
      t.pendingHostMessage = (if c = s.params.hostCsr ∧ a ≠ 0 then some a else s.pendingHostMessage)

/-- An instruction whose first source register holds no value stops with F_UNINIT for it, whatever its second holds;
one whose second alone holds none, with F_UNINIT for that one (R255, R257). -/
def Obligations.UnsetSourceFaults : Prop :=
  ∀ (s : State) (rd i j : RegId) (v : Word) (c : CsrId), Running s →
    (s.reg i = none →
      ∀ x ∈ ([.add rd i j, .sub rd i j, .sll rd i j, .slt rd i j, .sltu rd i j, .xor rd i j, .srl rd i j,
          .sra rd i j, .or rd i j, .and rd i j, .addi rd i v, .slti rd i v, .sltiu rd i v, .xori rd i v,
          .ori rd i v, .andi rd i v, .slli rd i v, .srli rd i v, .srai rd i v, .jalr rd i v, .beq i j v,
          .bne i j v, .blt i j v, .bge i j v, .bltu i j v, .bgeu i j v, .lw rd i v, .sw i j v, .csrrw c i]
          : List Instr), exec x s = .fault (.uninit i)) ∧
    (s.reg i ≠ none → s.reg j = none →
      ∀ x ∈ ([.add rd i j, .sub rd i j, .sll rd i j, .slt rd i j, .sltu rd i j, .xor rd i j, .srl rd i j,
          .sra rd i j, .or rd i j, .and rd i j, .beq i j v, .bne i j v, .blt i j v, .bge i j v, .bltu i j v,
          .bgeu i j v, .sw i j v] : List Instr), exec x s = .fault (.uninit j))

/-- A load or store whose address is at or above MEM_BYTES stops with F_ADDR at that address (R251). -/
def Obligations.OutOfRangeAccessFaults : Prop :=
  ∀ (s : State) (rd rs1 rs2 : RegId) (imm a v : Word), Running s → s.reg rs1 = some a →
    s.params.memBytes ≤ (a + imm).toNat →
    exec (.lw rd rs1 imm) s = .fault (.addr (a + imm)) ∧
    (s.reg rs2 = some v → exec (.sw rs1 rs2 imm) s = .fault (.addr (a + imm)))

/-- With the memory component in order, an instruction completes, or stops with F_UNINIT for a source register that
holds no value, or, a load or store alone, with F_ADDR (R251, R255, R239). -/
def Obligations.ExecStopsOnlyAsSpecified : Prop :=
  ∀ (i : Instr) (s : State), Running s → s.params.Legal → MemOk s.params s.memc →
    (∃ t, exec i s = .next t) ∨
    (∃ r, s.reg r = none ∧ exec i s = .fault (.uninit r)) ∨
    ∃ a, s.params.memBytes ≤ a.toNat ∧ exec i s = .fault (.addr a) ∧
      ((∃ rd rs1 imm, i = .lw rd rs1 imm) ∨ ∃ rs1 rs2 imm, i = .sw rs1 rs2 imm)

/-- Whatever instruction retires, only its declared destination register changes, and `x0` reads 0 (R25, R27, R83). -/
def Obligations.OnlyDestinationChanges : Prop :=
  ∀ (i : Instr) (s t : State), exec i s = .next t →
    (∀ r : RegId, some r ≠ destReg i → t.reg r = s.reg r) ∧ t.reg 0 = some 0 ∧
    (∀ r, destReg i = some r → t.reg r ≠ none) ∧ t.params = s.params ∧ t.phase = .fetch ∧ t.fault = none

/-- No instruction but SW changes a byte of memory, eviction write-backs included (R31, R42, R157). -/
def Obligations.OnlyStoreChangesMemory : Prop :=
  ∀ (i : Instr) (s t : State), s.params.Legal → MemOk s.params s.memc → exec i s = .next t →
    (∀ rs1 rs2 imm, i ≠ .sw rs1 rs2 imm) → KeepsMemory s t

/-- No instruction but CSRRW changes a CSR other than the two counters, or the host message; every other instruction
advances CYCLE_CSR by exactly its edges from its DecodeExecute edge on, `1 + max(Wd, 1)`, and INSTRET_CSR by one (R238,
R266, R267, R268). -/
def Obligations.OnlyCsrWriteChangesCsrs : Prop :=
  ∀ (i : Instr) (s t : State), s.params.Legal → exec i s = .next t → (∀ c rs1, i ≠ .csrrw c rs1) →
    CountsOnly s t (1 + max (accessWait s s.memc.wait i) 1)

/-- The caches are invisible but for time: the same instruction on a Cached and on an Uncached component with the same
memory, registers, `ip` and CSRs stops the same way or leaves the same registers, `ip`, memory, host message and CSRs,
the cycle counter apart (R39, R41, R69). -/
def Obligations.CachesInvisibleButForTime : Prop :=
  ∀ (i : Instr) (s u : State), s.params.Legal → s.params.memModel = .cached → MemOk s.params s.memc →
    u.params = { s.params with memModel := .uncached } → MemOk u.params u.memc → u.memc.mem = s.memc.mem →
    u.ip = s.ip → KeepsRegs s u → u.csr = s.csr → Running s → Running u →
    (∀ t, exec i s = .next t → ∃ v, exec i u = .next v ∧ v.ip = t.ip ∧ KeepsRegs t v ∧ KeepsMemory t v ∧
      v.csr.msg = t.csr.msg ∧ ∀ c, c ≠ s.params.cycleCsr → v.csr.read c = t.csr.read c) ∧
    ∀ f, exec i s = .fault f ↔ exec i u = .fault f

/-! ## The DecodeExecute edge -/

/-- R233, R234, for any collaborators: on a DecodeExecute edge whose fetch poll delivers a word that decodes to a
well-formed record, the source values are those of exactly the registers the record declares, the CSR value that of
exactly the CSR it declares, after the edge's own CSR tick, and 0 for each that it does not (the spec's own decisions D27
and D28). The Executor fills that record, its data request is made, the record is held, and the phase is Writeback;
nothing else changes but by the memory advance. -/
def Obligations.DecodeExecuteEdge : Prop :=
  ∀ (ρ κ : Type) (K : Collaborators ρ κ) (s : State ρ κ) (w v1 v2 cv : Word) (r : Record) (m : MemComponent),
    Running s → s.phase = .decodeExecute → pollFetch s.params s.memc = .ok (some w) →
    K.decoder w = some r → r.wellFormed = true →
    (r.rs1 = none → v1 = 0) → (∀ i, r.rs1 = some i → K.regs.read s.regs i = some v1) →
    (r.rs2 = none → v2 = 0) → (∀ i, r.rs2 = some i → K.regs.read s.regs i = some v2) →
    (r.csr = none → cv = 0) → (∀ c, r.csr = some c → cv = K.csrs.read (K.csrs.clockTick s.csr) c) →
    let e := execute { r with v1 := v1, v2 := v2, csrVal := cv } s.ip
    requestData s.params e.addr r.kind.opKind s.memc = .done m →
    clockEdgeWith K s =
      { s with
        csr := K.csrs.clockTick s.csr, memc := advanceCycle m, instr := some e, phase := .writeback }
end

