-- ==== Sys2Proof/Laws/Assoc.lean ====
section
/-! SUPPORT. The laws of the sparse maps: look-up after insertion and removal, and that both keep the canonical form.
Look-up laws hold of every list; only the order needs the canonical form. -/

namespace Sys2Proof.Machine

variable {α : Type}

@[simp] theorem Assoc.find?_nil (k : Nat) : Assoc.find? ([] : List (Nat × α)) k = none := rfl

theorem Assoc.find?_insert (m : List (Nat × α)) (k j : Nat) (v : α) :
    Assoc.find? (Assoc.insert m k v) j = if j = k then some v else Assoc.find? m j := by
  induction m with
  | nil => simp [Assoc.insert, Assoc.find?]
  | cons e m ih =>
    obtain ⟨k', v'⟩ := e
    simp only [Assoc.insert]
    split
    · simp [Assoc.find?]
    · split
      · subst k'
        by_cases h : j = k <;> simp [Assoc.find?, h]
      · rename_i hne
        by_cases h : j = k'
        · have hjk : ¬k' = k := fun e => hne e.symm
          simp [Assoc.find?, h, hjk]
        · simp [Assoc.find?, h, ih]

theorem Assoc.find?_erase (m : List (Nat × α)) (k j : Nat) :
    Assoc.find? (Assoc.erase m k) j = if j = k then none else Assoc.find? m j := by
  induction m with
  | nil => simp [Assoc.erase, Assoc.find?]
  | cons e m ih =>
    obtain ⟨k', v'⟩ := e
    by_cases h : k' = k
    · subst h
      have h2 : Assoc.erase ((k', v') :: m) k' = Assoc.erase m k' := by simp [Assoc.erase]
      rw [h2, ih]
      by_cases hj : j = k' <;> simp [Assoc.find?, hj]
    · have h2 : Assoc.erase ((k', v') :: m) k = (k', v') :: Assoc.erase m k := by simp [Assoc.erase, h]
      rw [h2]
      by_cases hj : j = k'
      · subst hj; simp [Assoc.find?, h]
      · simp [Assoc.find?, hj, ih]

@[simp] theorem Assoc.find?_insert_self (m : List (Nat × α)) (k : Nat) (v : α) :
    Assoc.find? (Assoc.insert m k v) k = some v := by simp [Assoc.find?_insert]

@[simp] theorem Assoc.find?_erase_self (m : List (Nat × α)) (k : Nat) :
    Assoc.find? (Assoc.erase m k) k = none := by simp [Assoc.find?_erase]

/-- What a look-up finds is an entry of the map. -/
theorem Assoc.mem_of_find? {m : List (Nat × α)} {k : Nat} {v : α} (h : Assoc.find? m k = some v) : (k, v) ∈ m := by
  induction m with
  | nil => simp at h
  | cons e m ih =>
    obtain ⟨k', v'⟩ := e
    simp only [Assoc.find?] at h
    split at h
    · cases h; subst k; simp
    · exact List.mem_cons_of_mem _ (ih h)

/-- A key is found exactly when it is one of the map's keys. -/
theorem Assoc.find?_isSome_iff {m : List (Nat × α)} {k : Nat} : (Assoc.find? m k).isSome ↔ k ∈ Assoc.keys m := by
  induction m with
  | nil => simp [Assoc.keys]
  | cons e m ih =>
    obtain ⟨k', v'⟩ := e
    simp only [Assoc.find?, Assoc.keys, List.map_cons, List.mem_cons] at *
    by_cases h : k = k' <;> simp [h, ih]

theorem Assoc.exists_find?_of_mem {m : List (Nat × α)} {k : Nat} (h : k ∈ Assoc.keys m) :
    ∃ v, Assoc.find? m k = some v := Option.isSome_iff_exists.mp (Assoc.find?_isSome_iff.mpr h)

theorem Assoc.mem_keys_insert {m : List (Nat × α)} {k j : Nat} {v : α} :
    j ∈ Assoc.keys (Assoc.insert m k v) ↔ j = k ∨ j ∈ Assoc.keys m := by
  rw [← Assoc.find?_isSome_iff, ← Assoc.find?_isSome_iff, Assoc.find?_insert]
  by_cases h : j = k <;> simp [h]

theorem Assoc.mem_keys_erase {m : List (Nat × α)} {k j : Nat} :
    j ∈ Assoc.keys (Assoc.erase m k) ↔ j ≠ k ∧ j ∈ Assoc.keys m := by
  rw [← Assoc.find?_isSome_iff, ← Assoc.find?_isSome_iff, Assoc.find?_erase]
  by_cases h : j = k <;> simp [h]

/-- An entry of the map after an insertion is the inserted one or an old one. -/
theorem Assoc.mem_insert {m : List (Nat × α)} {k : Nat} {v : α} {e : Nat × α}
    (h : e ∈ Assoc.insert m k v) : e = (k, v) ∨ e ∈ m := by
  induction m with
  | nil => simp_all [Assoc.insert]
  | cons e' m ih =>
    obtain ⟨k', v'⟩ := e'
    simp only [Assoc.insert] at h
    split at h
    · simpa using h
    · split at h
      · rcases List.mem_cons.mp h with h | h
        · exact .inl h
        · exact .inr (List.mem_cons_of_mem _ h)
      · rcases List.mem_cons.mp h with h | h
        · exact .inr (by simp [h])
        · exact (ih h).imp_right (List.mem_cons_of_mem _)

theorem Assoc.mem_erase {m : List (Nat × α)} {k : Nat} {e : Nat × α} :
    e ∈ Assoc.erase m k ↔ e ∈ m ∧ e.1 ≠ k := by simp [Assoc.erase]

/-- In a sorted map the head's key is below every later key. -/
theorem Assoc.sorted_cons {k : Nat} {v : α} {m : List (Nat × α)} :
    Assoc.Sorted ((k, v) :: m) ↔ (∀ j ∈ Assoc.keys m, k < j) ∧ Assoc.Sorted m := by
  simp [Assoc.Sorted, Assoc.keys]

theorem Assoc.sorted_insert {m : List (Nat × α)} (h : Assoc.Sorted m) (k : Nat) (v : α) :
    Assoc.Sorted (Assoc.insert m k v) := by
  induction m with
  | nil => simp [Assoc.insert, Assoc.Sorted, Assoc.keys]
  | cons e m ih =>
    obtain ⟨k', v'⟩ := e
    obtain ⟨hlt, hs⟩ := Assoc.sorted_cons.mp h
    simp only [Assoc.insert]
    split
    · refine Assoc.sorted_cons.mpr ⟨?_, h⟩
      intro j hj
      simp only [Assoc.keys, List.map_cons, List.mem_cons] at hj
      rcases hj with rfl | hj
      · assumption
      · exact lt_trans ‹_› (hlt j hj)
    · split
      · subst k'
        exact Assoc.sorted_cons.mpr ⟨hlt, hs⟩
      · refine Assoc.sorted_cons.mpr ⟨?_, ih hs⟩
        intro j hj
        rcases Assoc.mem_keys_insert.mp hj with rfl | hj
        · omega
        · exact hlt j hj

theorem Assoc.sorted_erase {m : List (Nat × α)} (h : Assoc.Sorted m) (k : Nat) : Assoc.Sorted (Assoc.erase m k) := by
  have : (Assoc.keys (Assoc.erase m k)).Sublist (Assoc.keys m) := (List.filter_sublist).map _
  exact h.sublist this

/-- Two sorted maps that agree at every key are the same list: the canonical form is unique. -/
theorem Assoc.ext_of_sorted {m n : List (Nat × α)} (hm : Assoc.Sorted m) (hn : Assoc.Sorted n)
    (h : ∀ k, Assoc.find? m k = Assoc.find? n k) : m = n := by
  induction m generalizing n with
  | nil =>
    cases n with
    | nil => rfl
    | cons e n => have := h e.1; simp [Assoc.find?] at this
  | cons e m ih =>
    obtain ⟨k, v⟩ := e
    cases n with
    | nil => have := h k; simp [Assoc.find?] at this
    | cons e' n =>
      obtain ⟨k', v'⟩ := e'
      obtain ⟨hm1, hm2⟩ := Assoc.sorted_cons.mp hm
      obtain ⟨hn1, hn2⟩ := Assoc.sorted_cons.mp hn
      have hk : k = k' := by
        by_contra hne
        rcases Nat.lt_or_gt_of_ne hne with hlt | hlt
        · have h1 := h k
          rw [Assoc.find?, if_pos rfl, Assoc.find?, if_neg hne] at h1
          have := hn1 k (Assoc.find?_isSome_iff.mp (by simp [← h1]))
          omega
        · have h1 := h k'
          rw [Assoc.find?, if_neg fun e => hne e.symm, Assoc.find?, if_pos rfl] at h1
          have := hm1 k' (Assoc.find?_isSome_iff.mp (by simp [h1]))
          omega
      subst hk
      have hv : v = v' := by simpa [Assoc.find?] using h k
      subst hv
      congr 1
      refine ih hm2 hn2 fun j => ?_
      by_cases hj : j = k
      · subst hj
        have a1 : Assoc.find? m j = none := by
          by_contra hc
          exact absurd (hm1 j (Assoc.find?_isSome_iff.mp (Option.isSome_iff_ne_none.mpr hc))) (lt_irrefl _)
        have a2 : Assoc.find? n j = none := by
          by_contra hc
          exact absurd (hn1 j (Assoc.find?_isSome_iff.mp (Option.isSome_iff_ne_none.mpr hc))) (lt_irrefl _)
        rw [a1, a2]
      · simpa [Assoc.find?, hj] using h j

/-- In a sorted map an entry is what its key finds. -/
theorem Assoc.find?_of_mem {m : List (Nat × α)} (hs : Assoc.Sorted m) {k : Nat} {v : α} (h : (k, v) ∈ m) :
    Assoc.find? m k = some v := by
  induction m with
  | nil => simp at h
  | cons e m ih =>
    obtain ⟨k', v'⟩ := e
    obtain ⟨hlt, hs'⟩ := Assoc.sorted_cons.mp hs
    rcases List.mem_cons.mp h with h | h
    · cases h; simp [Assoc.find?]
    · have : k' < k := hlt k (List.mem_map.mpr ⟨_, h, rfl⟩)
      simp [Assoc.find?, show k ≠ k' by omega, ih hs' h]

theorem Assoc.length_insert_of_not_mem {m : List (Nat × α)} {k : Nat} {v : α} (h : k ∉ Assoc.keys m) :
    (Assoc.insert m k v).length = m.length + 1 := by
  induction m with
  | nil => rfl
  | cons e m ih =>
    obtain ⟨k', v'⟩ := e
    simp only [Assoc.keys, List.map_cons, List.mem_cons, not_or] at h
    simp only [Assoc.insert]
    split
    · simp
    · simp only [if_neg h.1, List.length_cons]
      have := ih h.2
      omega

theorem Assoc.length_insert_of_mem {m : List (Nat × α)} (hs : Assoc.Sorted m) {k : Nat} {v : α}
    (h : k ∈ Assoc.keys m) : (Assoc.insert m k v).length = m.length := by
  induction m with
  | nil => simp [Assoc.keys] at h
  | cons e m ih =>
    obtain ⟨k', v'⟩ := e
    obtain ⟨hlt, hs'⟩ := Assoc.sorted_cons.mp hs
    simp only [Assoc.keys, List.map_cons, List.mem_cons] at h
    simp only [Assoc.insert]
    rcases h with rfl | h
    · simp
    · have := hlt k h
      rw [if_neg (by omega), if_neg (by omega), List.length_cons, List.length_cons, ih hs' h]

theorem Assoc.length_erase_of_mem {m : List (Nat × α)} (hs : Assoc.Sorted m) {k : Nat} (h : k ∈ Assoc.keys m) :
    (Assoc.erase m k).length + 1 = m.length := by
  induction m with
  | nil => simp [Assoc.keys] at h
  | cons e m ih =>
    obtain ⟨k', v'⟩ := e
    obtain ⟨hlt, hs'⟩ := Assoc.sorted_cons.mp hs
    by_cases hk : k' = k
    · subst hk
      have : Assoc.erase ((k', v') :: m) k' = m := by
        simp only [Assoc.erase, bne_self_eq_false, Bool.false_eq_true, not_false_eq_true, List.filter_cons_of_neg,
          List.filter_eq_self, bne_iff_ne, ne_eq]
        intro e he
        have := hlt e.1 (List.mem_map.mpr ⟨e, he, rfl⟩)
        omega
      rw [this, List.length_cons]
    · have h2 : Assoc.erase ((k', v') :: m) k = (k', v') :: Assoc.erase m k := by simp [Assoc.erase, hk]
      simp only [Assoc.keys, List.map_cons, List.mem_cons] at h
      rw [h2, List.length_cons, List.length_cons, ih hs' (h.resolve_left fun h => hk h.symm)]

/-! ## Sparse maps of bits -/

variable {w : Nat}

theorem Sparse.get_set (d : BitVec w) (m : List (Nat × BitVec w)) (k j : Nat) (v : BitVec w) :
    Sparse.get d (Sparse.set d m k v) j = if j = k then v else Sparse.get d m j := by
  unfold Sparse.get Sparse.set
  split
  · rw [Assoc.find?_erase]; split <;> simp_all
  · rw [Assoc.find?_insert]; split <;> simp_all

@[simp] theorem Sparse.get_set_self (d : BitVec w) (m : List (Nat × BitVec w)) (k : Nat) (v : BitVec w) :
    Sparse.get d (Sparse.set d m k v) k = v := by simp [Sparse.get_set]

theorem Sparse.wf_iff {d : BitVec w} {m : List (Nat × BitVec w)} :
    Sparse.wf d m = true ↔ Assoc.Sorted m ∧ ∀ e ∈ m, e.2 ≠ d := by
  simp [Sparse.wf]

theorem Sparse.wf_set {d : BitVec w} {m : List (Nat × BitVec w)} (h : Sparse.wf d m = true) (k : Nat) (v : BitVec w) :
    Sparse.wf d (Sparse.set d m k v) = true := by
  obtain ⟨hs, hd⟩ := Sparse.wf_iff.mp h
  rw [Sparse.wf_iff]
  unfold Sparse.set
  split
  · exact ⟨Assoc.sorted_erase hs k, fun e he => hd e (Assoc.mem_erase.mp he).1⟩
  · refine ⟨Assoc.sorted_insert hs k v, fun e he => ?_⟩
    rcases Assoc.mem_insert he with rfl | he
    · assumption
    · exact hd e he

/-- The keys listed after a write are old ones or the written one. -/
theorem Sparse.mem_set {d : BitVec w} {m : List (Nat × BitVec w)} {k : Nat} {v : BitVec w} {e : Nat × BitVec w}
    (h : e ∈ Sparse.set d m k v) : e.1 = k ∨ e ∈ m := by
  unfold Sparse.set at h
  split at h
  · exact .inr (Assoc.mem_erase.mp h).1
  · exact (Assoc.mem_insert h).imp_left fun h => by simp [h]

/-- Two canonical maps that read the same everywhere are the same list. -/
theorem Sparse.ext_of_wf {d : BitVec w} {m n : List (Nat × BitVec w)} (hm : Sparse.wf d m = true)
    (hn : Sparse.wf d n = true) (h : ∀ k, Sparse.get d m k = Sparse.get d n k) : m = n := by
  obtain ⟨hm1, hm2⟩ := Sparse.wf_iff.mp hm
  obtain ⟨hn1, hn2⟩ := Sparse.wf_iff.mp hn
  refine Assoc.ext_of_sorted hm1 hn1 fun k => ?_
  have hk := h k
  simp only [Sparse.get] at hk
  cases ha : Assoc.find? m k with
  | none =>
    cases hb : Assoc.find? n k with
    | none => rfl
    | some b => simp only [ha, hb, Option.getD] at hk; exact absurd hk.symm (hn2 _ (Assoc.mem_of_find? hb))
  | some a =>
    cases hb : Assoc.find? n k with
    | none => simp only [ha, hb, Option.getD] at hk; exact absurd hk (hm2 _ (Assoc.mem_of_find? ha))
    | some b => simp_all

end Sys2Proof.Machine
end

