-- ==== Sys2Proof/Laws/Memory.lean ====
section
/-! SUPPORT. The laws of the BackingStore: read after write, for bytes and for Words, and that every memory operation
keeps the canonical form. -/

namespace Sys2Proof.Machine

/-! ## Bytes -/

theorem Memory.read_write (m : Memory) (a b : Nat) (v : Byte) :
    (m.write a v).read b = if b = a then v else m.read b := Sparse.get_set _ _ _ _ _

theorem Memory.wf_write {m : Memory} (h : m.wf = true) (a : Nat) (v : Byte) : (m.write a v).wf = true :=
  Sparse.wf_set h a v

theorem Memory.mem_write {m : Memory} {a : Nat} {v : Byte} {e : Nat × Byte} (h : e ∈ m.write a v) :
    e.1 = a ∨ e ∈ m := Sparse.mem_set h

/-- Two canonical memories that read the same everywhere are the same list. -/
theorem Memory.ext_of_wf {m n : Memory} (hm : m.wf = true) (hn : n.wf = true) (h : ∀ a, m.read a = n.read a) : m = n :=
  Sparse.ext_of_wf hm hn h

@[simp] theorem Memory.read_nil (a : Nat) : Memory.read [] a = 0 := rfl

theorem Memory.wf_nil : Memory.wf [] = true := rfl

/-! ## Words -/

/-- The bytes of a Word, little-endian (R60). -/
theorem Memory.extract_word (m : Memory) (w i : Nat) (hi : i < 4) :
    (m.word w).extractLsb' (8 * i) 8 = m.read (4 * w + i) := by
  unfold Memory.word
  apply BitVec.eq_of_getLsbD_eq
  intro j hj
  have hcase : i = 0 ∨ i = 1 ∨ i = 2 ∨ i = 3 := by omega
  rcases hcase with rfl | rfl | rfl | rfl
  all_goals simp only [BitVec.getLsbD_extractLsb', BitVec.getLsbD_append]
  · simp [hj]
  · simp [hj, show 8 + j - 8 = j by omega]
  · simp [hj, show ¬(16 + j < 8) by omega, show ¬(16 + j - 8 < 8) by omega, show 16 + j - 8 - 8 = j by omega]
  · simp [hj, show ¬(24 + j < 8) by omega, show ¬(24 + j - 8 < 8) by omega, show ¬(24 + j - 8 - 8 < 8) by omega,
      show 24 + j - 8 - 8 - 8 = j by omega]

/-- A byte as a part of the Word that contains it. -/
theorem Memory.read_eq_extract (m : Memory) (a : Nat) :
    m.read a = (m.word (a / 4)).extractLsb' (8 * (a % 4)) 8 := by
  rw [Memory.extract_word _ _ _ (Nat.mod_lt _ (by decide)), Nat.div_add_mod]

theorem Memory.word_congr {m n : Memory} {w : Nat} (h : ∀ i < 4, m.read (4 * w + i) = n.read (4 * w + i)) :
    m.word w = n.word w := by
  unfold Memory.word
  have h0 := h 0 (by decide)
  rw [Nat.add_zero] at h0
  rw [h 3 (by decide), h 2 (by decide), h 1 (by decide), h0]

/-- Memories whose Words are the same read the same, and the other way about. -/
theorem Memory.read_eq_iff_word_eq {m n : Memory} : (∀ a, m.read a = n.read a) ↔ ∀ w, m.word w = n.word w :=
  ⟨fun h _ => Memory.word_congr fun _ _ => h _, fun h a => by
    rw [Memory.read_eq_extract, Memory.read_eq_extract, h]⟩

/-- A Word put together again from its bytes. -/
theorem Memory.append_bytes (v : Word) :
    (v.extractLsb' 24 8 ++ v.extractLsb' 16 8 ++ v.extractLsb' 8 8 ++ v.extractLsb' 0 8 : BitVec 32) = v := by
  apply BitVec.eq_of_getLsbD_eq
  intro j hj
  simp only [BitVec.getLsbD_append, BitVec.getLsbD_extractLsb']
  by_cases h1 : j < 8
  · simp [h1]
  · by_cases h2 : j - 8 < 8
    · simp [h1, h2, show 8 + (j - 8) = j by omega]
    · by_cases h3 : j - 8 - 8 < 8
      · simp [h1, h2, h3, show 16 + (j - 8 - 8) = j by omega]
      · simp [h1, h2, h3, show j - 8 - 8 - 8 < 8 by omega, show 24 + (j - 8 - 8 - 8) = j by omega]

/-- The bytes after a Word is written: the four of its slot are its own, every other is as before. -/
theorem Memory.read_setWord (m : Memory) (w : Nat) (v : Word) (a : Nat) :
    (m.setWord w v).read a = if a / 4 = w then v.extractLsb' (8 * (a % 4)) 8 else m.read a := by
  unfold Memory.setWord
  simp only [Memory.read_write]
  have hd : a = 4 * (a / 4) + a % 4 := (Nat.div_add_mod a 4).symm
  have hm : a % 4 < 4 := Nat.mod_lt _ (by decide)
  by_cases hw : a / 4 = w
  · rw [if_pos hw]
    have hcase : a % 4 = 0 ∨ a % 4 = 1 ∨ a % 4 = 2 ∨ a % 4 = 3 := by omega
    rcases hcase with h | h | h | h <;> rw [h] at hd ⊢
    · rw [if_neg (by omega), if_neg (by omega), if_neg (by omega), if_pos (by omega)]
    · rw [if_neg (by omega), if_neg (by omega), if_pos (by omega)]
    · rw [if_neg (by omega), if_pos (by omega)]
    · rw [if_pos (by omega)]
  · rw [if_neg hw, if_neg (by omega), if_neg (by omega), if_neg (by omega), if_neg (by omega)]

/-- Read after write, for Words. -/
theorem Memory.word_setWord (m : Memory) (w j : Nat) (v : Word) :
    (m.setWord w v).word j = if j = w then v else m.word j := by
  by_cases h : j = w
  · subst h
    rw [if_pos rfl, ← Memory.append_bytes v]
    unfold Memory.word
    rw [Memory.append_bytes v]
    simp only [Memory.read_setWord]
    rw [if_pos (by omega), if_pos (by omega), if_pos (by omega), if_pos (by omega)]
    rw [show (4 * j + 3) % 4 = 3 by omega, show (4 * j + 2) % 4 = 2 by omega, show (4 * j + 1) % 4 = 1 by omega,
      show (4 * j) % 4 = 0 by omega]
    exact Memory.append_bytes v
  · rw [if_neg h]
    refine Memory.word_congr fun i hi => ?_
    rw [Memory.read_setWord, if_neg (by omega)]

theorem Memory.wf_setWord {m : Memory} (h : m.wf = true) (w : Nat) (v : Word) : (m.setWord w v).wf = true :=
  Memory.wf_write (Memory.wf_write (Memory.wf_write (Memory.wf_write h _ _) _ _) _ _) _ _

/-- The addresses listed after a Word is written stay below any bound that holds before and above the Word's slot. -/
theorem Memory.bound_setWord {m : Memory} {n w : Nat} {v : Word} (h : ∀ e ∈ m, e.1 < n) (hw : 4 * w + 4 ≤ n) :
    ∀ e ∈ m.setWord w v, e.1 < n := by
  intro e he
  rcases Memory.mem_write he with he | he
  · omega
  rcases Memory.mem_write he with he | he
  · omega
  rcases Memory.mem_write he with he | he
  · omega
  rcases Memory.mem_write he with he | he
  · omega
  exact h e he

/-! ## Consecutive Words -/

theorem Memory.word_setWords (m : Memory) (w : Nat) (vs : List Word) (j : Nat) :
    (m.setWords w vs).word j = if h : w ≤ j ∧ j < w + vs.length then vs[j - w] else m.word j := by
  induction vs generalizing m w with
  | nil => rw [dif_neg (by simp)]; rfl
  | cons v vs ih =>
    rw [Memory.setWords, ih]
    by_cases h1 : w + 1 ≤ j ∧ j < w + 1 + vs.length
    · rw [dif_pos h1, dif_pos (by simp only [List.length_cons]; omega)]
      have : j - w = (j - (w + 1)) + 1 := by omega
      simp [this]
    · rw [dif_neg h1, Memory.word_setWord]
      by_cases h2 : j = w
      · subst h2
        rw [if_pos rfl, dif_pos (by simp)]
        simp
      · rw [if_neg h2, dif_neg (by simp only [List.length_cons]; omega)]

theorem Memory.read_setWords_outside (m : Memory) (w : Nat) (vs : List Word) (a : Nat)
    (h : a / 4 < w ∨ w + vs.length ≤ a / 4) : (m.setWords w vs).read a = m.read a := by
  rw [Memory.read_eq_extract, Memory.read_eq_extract m, Memory.word_setWords, dif_neg (by omega)]

theorem Memory.wf_setWords {m : Memory} (h : m.wf = true) (w : Nat) (vs : List Word) : (m.setWords w vs).wf = true := by
  induction vs generalizing m w with
  | nil => exact h
  | cons v vs ih => exact ih (Memory.wf_setWord h w v) _

theorem Memory.bound_setWords {m : Memory} {n w : Nat} {vs : List Word} (h : ∀ e ∈ m, e.1 < n)
    (hw : 4 * (w + vs.length) ≤ n) : ∀ e ∈ m.setWords w vs, e.1 < n := by
  induction vs generalizing m w with
  | nil => exact h
  | cons v vs ih =>
    simp only [List.length_cons] at hw
    exact ih (Memory.bound_setWord h (by omega)) (by omega)

/-! ## Lines -/

@[simp] theorem fillLine_getElem (m : Memory) (t : Nat) (i : Nat) (h : i < lineWords) :
    (fillLine m t)[i] = m.word (t / 4 + i) := by
  simp [fillLine, Vector.getElem_mk]

theorem fillLine_congr {m n : Memory} {t : Nat} (h : ∀ i < lineWords, m.word (t / 4 + i) = n.word (t / 4 + i)) :
    fillLine m t = fillLine n t := by
  apply Vector.ext
  intro i hi
  rw [fillLine_getElem, fillLine_getElem, h i hi]

theorem word_writeBackLine (m : Memory) (v : Nat) (ln : Line) (j : Nat) :
    (writeBackLine m v ln).word j =
      if h : v / 4 ≤ j ∧ j < v / 4 + lineWords then ln[j - v / 4] else m.word j := by
  rw [writeBackLine, Memory.word_setWords]
  simp

theorem wf_writeBackLine {m : Memory} (h : m.wf = true) (v : Nat) (ln : Line) : (writeBackLine m v ln).wf = true :=
  Memory.wf_setWords h _ _

theorem wf_writeBackVictim {m : Memory} (h : m.wf = true) (o : Option (Nat × Line)) :
    (writeBackVictim m o).wf = true := by
  cases o with
  | none => exact h
  | some vl => exact wf_writeBackLine h _ _

/-- Writing back a line that memory already holds changes no Word (R42). -/
theorem word_writeBackLine_coherent {m : Memory} {v : Nat} {ln : Line} (h : ln = fillLine m v) (j : Nat) :
    (writeBackLine m v ln).word j = m.word j := by
  rw [word_writeBackLine]
  split
  · subst h
    rw [fillLine_getElem _ _ _ (by omega)]
    congr 1
    omega
  · rfl

/-- On a canonical memory such a write-back changes nothing at all. -/
theorem writeBackLine_coherent {m : Memory} {v : Nat} {ln : Line} (hm : m.wf = true) (h : ln = fillLine m v) :
    writeBackLine m v ln = m :=
  Memory.ext_of_wf (wf_writeBackLine hm v ln) hm
    (Memory.read_eq_iff_word_eq.mpr (word_writeBackLine_coherent h))

/-! ## Address decomposition, on natural numbers -/

theorem wordIndex_eq (a : Word) : wordIndex a = a.toNat / 4 := by
  simp [wordIndex, wordOffset, BitVec.toNat_ushiftRight, Nat.shiftRight_eq_div_pow]

theorem tagOf_eq (a : Word) : tagOf a = a.toNat / 64 * 64 := by
  have h : lineTag a = (a >>> 6) <<< 6 := by
    apply BitVec.eq_of_getLsbD_eq
    intro i hi
    have hm : (0xFFFFFFC0#32).getLsbD i = decide (6 ≤ i) := by
      have : ∀ i : Fin 32, (0xFFFFFFC0#32).getLsbD i = decide (6 ≤ i.val) := by decide
      exact this ⟨i, hi⟩
    simp only [lineTag, BitVec.ofNat_eq_ofNat, BitVec.getLsbD_and, hm, BitVec.getLsbD_shiftLeft,
      BitVec.getLsbD_ushiftRight]
    by_cases h6 : i < 6
    · simp [h6, show ¬6 ≤ i by omega]
    · simp [h6, hi, show 6 ≤ i by omega, show 6 + (i - 6) = i by omega]
  have ha := a.isLt
  rw [tagOf, h, BitVec.toNat_shiftLeft, BitVec.toNat_ushiftRight, Nat.shiftRight_eq_div_pow, Nat.shiftLeft_eq]
  omega

theorem lineOffset_val (a : Word) : (lineOffset a).val = a.toNat / 4 % 16 := by
  simp [lineOffset, Nat.shiftRight_eq_div_pow]

theorem tagOf_mod (a : Word) : tagOf a % 64 = 0 := by rw [tagOf_eq]; omega

theorem tagOf_le (a : Word) : tagOf a ≤ a.toNat := by rw [tagOf_eq]; omega

/-- The word index of an address is its line's first one plus its line offset (R56). -/
theorem wordIndex_eq_tag (a : Word) : wordIndex a = tagOf a / 4 + (lineOffset a).val := by
  rw [wordIndex_eq, tagOf_eq, lineOffset_val]; omega

/-- The Word of an address, seen through the line that holds it. -/
theorem fillLine_lineOffset (m : Memory) (a : Word) : (fillLine m (tagOf a))[lineOffset a] = m.word (wordIndex a) := by
  rw [wordIndex_eq_tag]
  exact fillLine_getElem m (tagOf a) (lineOffset a).val (lineOffset a).isLt

end Sys2Proof.Machine
end

