-- ==== Sys2Proof/Laws/Protocol.lean ====
section
/-! SUPPORT. What each operation of the memory protocol can do, said once: if it answers so, then one of these cases
holds. -/

namespace Sys2Proof.Machine

/-! ## Caches -/

theorem Cache.hit_iff {c : Cache} {t : Nat} : c.hit t = true ↔ t ∈ c.recency := by simp [Cache.hit]

theorem Cache.hit_false_iff {c : Cache} {t : Nat} : c.hit t = false ↔ t ∉ c.recency := by
  rw [← Cache.hit_iff]; simp

/-- Allocation either inserts alone, or inserts and evicts the tail of the recency list (R145). -/
theorem Cache.allocate_cases {c c' : Cache} {e : Bool} {t : Nat} {ln : Line} {o : Option (Nat × Line)}
    (h : c.allocate e t ln = some (c', o)) :
    (overCapacity e (Assoc.insert c.resident t ln).length c.capacity = false ∧
      c' = { c with resident := Assoc.insert c.resident t ln } ∧ o = none) ∨
    (overCapacity e (Assoc.insert c.resident t ln).length c.capacity = true ∧
      ∃ v old, c.recency.getLast? = some v ∧ Assoc.find? (Assoc.insert c.resident t ln) v = some old ∧
        c' = { c with recency := c.recency.erase v, resident := Assoc.erase (Assoc.insert c.resident t ln) v } ∧
        o = some (v, old)) := by
  simp only [Cache.allocate, Cache.victim?, Cache.line?, Cache.evict] at h
  split at h
  · rename_i hov
    split at h
    · cases h
    · rename_i v hv
      split at h
      · cases h
      · rename_i old hold
        cases h
        exact .inr ⟨hov, v, old, hv, hold, rfl, rfl⟩
  · rename_i hov
    cases h
    exact .inl ⟨by simpa using hov, rfl, rfl⟩

/-! ## Requests -/

/-- What a fetch request that is done did (R132, R146). -/
theorem requestFetch_done {p : Params} {a : Word} {m m' : MemComponent} (h : requestFetch p a m = .done m') :
    a.toNat < p.memBytes ∧
    ((m.front = .uncached ∧ m' = { m with fetchAddr := some a, wait := p.uncachedLatency }) ∨
     (∃ ic dc, m.front = .cached ic dc ∧ ic.hit (tagOf a) = true ∧
        m' = { m with fetchAddr := some a, front := .cached ((ic.remove (tagOf a)).pushFront (tagOf a)) dc }) ∨
     (∃ ic dc ic' o, m.front = .cached ic dc ∧ ic.hit (tagOf a) = false ∧
        ic.allocate p.evictOnReach (tagOf a) (fillLine m.mem (tagOf a)) = some (ic', o) ∧
        m' = { m with
          fetchAddr := some a, wait := p.lineLatency, front := .cached (ic'.pushFront (tagOf a)) dc })) := by
  unfold requestFetch at h
  split at h
  · unfold requestFetchU at h
    split at h
    · cases h
    · cases h
      exact ⟨by omega, .inl ⟨‹_›, rfl⟩⟩
  · unfold requestFetchC at h
    split at h
    · cases h
    · refine ⟨by omega, .inr ?_⟩
      split at h
      · cases h
        exact .inl ⟨_, _, ‹_›, ‹_›, rfl⟩
      · split at h
        · cases h
        · cases h
          exact .inr ⟨_, _, _, _, ‹_›, Bool.eq_false_of_not_eq_true ‹¬_ = true›, ‹_›, rfl⟩

/-- A fetch request that raises changes nothing (R132, R146). -/
theorem requestFetch_raised {p : Params} {a : Word} {m m' : MemComponent} {f : Fault}
    (h : requestFetch p a m = .raised f m') :
    m' = m ∧ ((f = .addr a ∧ p.memBytes ≤ a.toNat) ∨ (f = .impossible ∧ a.toNat < p.memBytes)) := by
  unfold requestFetch at h
  split at h
  · unfold requestFetchU at h
    split at h <;> cases h
    exact ⟨rfl, .inl ⟨rfl, ‹_›⟩⟩
  · unfold requestFetchC at h
    split at h
    · cases h
      exact ⟨rfl, .inl ⟨rfl, ‹_›⟩⟩
    · split at h
      · cases h
      · split at h <;> cases h
        exact ⟨rfl, .inr ⟨rfl, by omega⟩⟩

/-- A data request of kind `Other` sets the latch and the flag alone (R134, R149). -/
@[simp] theorem requestData_other (p : Params) (a : Word) (m : MemComponent) :
    requestData p a .other m = .done { m with dataReq := some (a, .other), noMem := true } := rfl

/-- What a load or store request that is done did (R134, R150). -/
theorem requestData_done {p : Params} {a : Word} {k : OpKind} {m m' : MemComponent} (hk : k ≠ .other)
    (h : requestData p a k m = .done m') :
    a.toNat < p.memBytes ∧
    ((m.front = .uncached ∧ m' = { m with dataReq := some (a, k), noMem := false, wait := p.uncachedLatency }) ∨
     (∃ ic dc, m.front = .cached ic dc ∧ dc.hit (tagOf a) = true ∧
        m' = { m with
          dataReq := some (a, k), noMem := false, wait := m.wait + p.dhitPenalty,
          front := .cached ic ((dc.remove (tagOf a)).pushFront (tagOf a)) }) ∨
     (∃ ic dc dc' o, m.front = .cached ic dc ∧ dc.hit (tagOf a) = false ∧
        dc.allocate p.evictOnReach (tagOf a) (fillLine m.mem (tagOf a)) = some (dc', o) ∧
        m' = { m with
          dataReq := some (a, k), noMem := false, mem := writeBackVictim m.mem o, wait := p.lineLatency,
          front := .cached ic (dc'.pushFront (tagOf a)) })) := by
  have key : (match m.front with
      | .uncached => requestDataU p a k m
      | .cached ic dc => requestDataC p a k m ic dc) = .done m' := by
    cases k
    · exact h
    · exact h
    · exact absurd rfl hk
  clear h
  split at key
  · unfold requestDataU at key
    dsimp only at key
    split at key
    · cases key
    · cases key
      exact ⟨by omega, .inl ⟨‹_›, rfl⟩⟩
  · unfold requestDataC at key
    dsimp only at key
    split at key
    · cases key
    · refine ⟨by omega, .inr ?_⟩
      split at key
      · cases key
        exact .inl ⟨_, _, ‹_›, ‹_›, rfl⟩
      · split at key
        · cases key
        · cases key
          exact .inr ⟨_, _, _, _, ‹_›, Bool.eq_false_of_not_eq_true ‹¬_ = true›, ‹_›, rfl⟩

/-- A data request that raises has set the latch and cleared the flag, and nothing else (R134, R150). -/
theorem requestData_raised {p : Params} {a : Word} {k : OpKind} {m m' : MemComponent} {f : Fault}
    (h : requestData p a k m = .raised f m') :
    k ≠ .other ∧ m' = { m with dataReq := some (a, k), noMem := false } ∧
    ((f = .addr a ∧ p.memBytes ≤ a.toNat) ∨ (f = .impossible ∧ a.toNat < p.memBytes)) := by
  have hk : k ≠ .other := by rintro rfl; cases h
  refine ⟨hk, ?_⟩
  have key : (match m.front with
      | .uncached => requestDataU p a k m
      | .cached ic dc => requestDataC p a k m ic dc) = .raised f m' := by
    cases k
    · exact h
    · exact h
    · exact absurd rfl hk
  clear h
  split at key
  · unfold requestDataU at key
    dsimp only at key
    split at key <;> cases key
    exact ⟨rfl, .inl ⟨rfl, ‹_›⟩⟩
  · unfold requestDataC at key
    dsimp only at key
    split at key
    · cases key
      exact ⟨rfl, .inl ⟨rfl, ‹_›⟩⟩
    · split at key
      · cases key
      · split at key <;> cases key
        exact ⟨rfl, .inr ⟨rfl, by omega⟩⟩

/-! ## Polls -/

/-- A fetch poll that answers (R131, R133, R147). -/
theorem pollFetch_ok {p : Params} {m : MemComponent} {o : Option Word} (h : pollFetch p m = .ok o) :
    ∃ a, m.fetchAddr = some a ∧
    ((0 < m.wait ∧ o = none) ∨
     (m.wait = 0 ∧ m.front = .uncached ∧ a.toNat < p.memBytes ∧ o = some (m.mem.word (wordIndex a))) ∨
     (m.wait = 0 ∧ ∃ ic dc ln, m.front = .cached ic dc ∧ ic.line? (tagOf a) = some ln ∧
        o = some ln[lineOffset a])) := by
  unfold pollFetch at h
  split at h
  · cases h
  · rename_i a ha
    refine ⟨a, ha, ?_⟩
    split at h
    · cases h
      exact .inl ⟨‹_›, rfl⟩
    · split at h
      · unfold backingRead at h
        split at h
        · cases h
        · cases h
          exact .inr (.inl ⟨by omega, ‹_›, by omega, rfl⟩)
      · split at h
        · cases h
        · cases h
          exact .inr (.inr ⟨by omega, _, _, _, ‹_›, ‹_›, rfl⟩)

theorem pollMatches_iff {a : Word} {k : OpKind} {m : MemComponent} :
    pollMatches a k m = true ↔ ∃ a', m.dataReq = some (a', k) ∧ (k = .other ∨ a' = a) := by
  unfold pollMatches
  cases h : m.dataReq with
  | none => simp
  | some q =>
    obtain ⟨a', k'⟩ := q
    constructor
    · intro hm
      simp only [Bool.and_eq_true, beq_iff_eq, Bool.or_eq_true] at hm
      exact ⟨a', by rw [hm.1], hm.2⟩
    · rintro ⟨b, hb, hc⟩
      cases hb
      simpa using hc

/-- A data poll that is not ready changes nothing (R135, R154). -/
theorem pollData_unready {p : Params} {a d w : Word} {k : OpKind} {m m' : MemComponent}
    (h : pollData p a k d m = .ok (false, w, m')) : m' = m ∧ w = d ∧ m.noMem = false ∧ 0 < m.wait := by
  unfold pollData at h
  split at h
  · cases h
  · split at h
    · cases h
    · split at h
      · cases h
        exact ⟨rfl, rfl, by simpa using ‹¬m.noMem = true›, ‹_›⟩
      · split at h
        · cases hc : completeLoad p a m <;> rw [hc] at h <;> cases h
        · cases hc : completeStore p a d m <;> rw [hc] at h <;> cases h
        · cases h

/-- A ready load (R135, R155). -/
theorem completeLoad_ok {p : Params} {a v : Word} {m : MemComponent} (h : completeLoad p a m = .ok v) :
    (m.front = .uncached ∧ a.toNat < p.memBytes ∧ v = m.mem.word (wordIndex a)) ∨
    (∃ ic dc ln, m.front = .cached ic dc ∧ dc.line? (tagOf a) = some ln ∧ v = ln[lineOffset a]) := by
  unfold completeLoad at h
  split at h
  · unfold backingRead at h
    split at h
    · cases h
    · cases h
      exact .inl ⟨‹_›, by omega, rfl⟩
  · split at h
    · cases h
    · cases h
      exact .inr ⟨_, _, _, ‹_›, ‹_›, rfl⟩

/-- A ready store (R135, R155). -/
theorem completeStore_ok {p : Params} {a d : Word} {m m' : MemComponent} (h : completeStore p a d m = .ok m') :
    a.toNat < p.memBytes ∧
    ((m.front = .uncached ∧ m' = { m with mem := m.mem.setWord (wordIndex a) d }) ∨
     (∃ ic dc ln, m.front = .cached ic dc ∧ dc.line? (tagOf a) = some ln ∧
        m' = { m with
          mem := m.mem.setWord (wordIndex a) d
          front := .cached ic (dc.storeWord (tagOf a) ln (lineOffset a) d) })) := by
  unfold completeStore at h
  split at h
  · unfold backingWrite at h
    split at h
    · cases h
    · cases h
      exact ⟨by omega, .inl ⟨‹_›, rfl⟩⟩
  · split at h
    · cases h
    · unfold backingWrite at h
      split at h
      · cases h
      · cases h
        exact ⟨by omega, .inr ⟨_, _, _, ‹_›, ‹_›, rfl⟩⟩

/-- What a ready data poll did (R135, R154, R155). -/
theorem pollData_ready {p : Params} {a d w : Word} {k : OpKind} {m m' : MemComponent}
    (h : pollData p a k d m = .ok (true, w, m')) :
    pollMatches a k m = true ∧
    ((m.noMem = true ∧ w = d ∧ m' = m) ∨
     (m.noMem = false ∧ m.wait = 0 ∧ k = .load ∧ completeLoad p a m = .ok w ∧ m' = m) ∨
     (m.noMem = false ∧ m.wait = 0 ∧ k = .store ∧ w = d ∧ completeStore p a d m = .ok m')) := by
  unfold pollData at h
  split at h
  · cases h
  · refine ⟨by simpa using ‹¬(!pollMatches a k m) = true›, ?_⟩
    split at h
    · cases h
      exact .inl ⟨‹_›, rfl, rfl⟩
    · split at h
      · cases h
      · have hn : m.noMem = false := by simpa using ‹¬m.noMem = true›
        split at h
        · cases hc : completeLoad p a m <;> rw [hc] at h <;> cases h
          exact .inr (.inl ⟨hn, by omega, rfl, rfl, rfl⟩)
        · cases hc : completeStore p a d m <;> rw [hc] at h <;> cases h
          exact .inr (.inr ⟨hn, by omega, rfl, rfl, rfl⟩)
        · cases h

end Sys2Proof.Machine
end

