-- ==== Sys2Proof/Laws/Cache.lean ====
section
/-! SUPPORT. What a hit and an allocation do to a cache of this hardware (`CacheOk`): the cases of R142 and R145 with
their conditions met. -/

namespace Sys2Proof

open Machine Safety

/-- A capacity that the parameters allow (R12, R159). -/
def Safety.CapacityLegal (p : Params) (n : Nat) : Prop := 1 ≤ n ∧ (p.evictOnReach = true → 2 ≤ n)

theorem Safety.capacityLegal_of {p : Params} (h : p.Legal) :
    CapacityLegal p p.icacheLines ∧ CapacityLegal p p.dcacheLines := by
  obtain ⟨h1, h2, h3, -⟩ := h
  exact ⟨⟨h1, fun h => (h3 h).1⟩, ⟨h2, fun h => (h3 h).2⟩⟩

@[simp] theorem Machine.Cache.touch_resident (c : Cache) (t : Nat) : ((c.remove t).pushFront t).resident = c.resident := rfl
@[simp] theorem Machine.Cache.touch_capacity (c : Cache) (t : Nat) : ((c.remove t).pushFront t).capacity = c.capacity := rfl
@[simp] theorem Machine.Cache.touch_recency (c : Cache) (t : Nat) :
    ((c.remove t).pushFront t).recency = t :: c.recency.erase t := rfl
@[simp] theorem Machine.Cache.touch_line? (c : Cache) (t u : Nat) : ((c.remove t).pushFront t).line? u = c.line? u := rfl
@[simp] theorem Machine.Cache.pushFront_line? (c : Cache) (t u : Nat) : (c.pushFront t).line? u = c.line? u := rfl
@[simp] theorem Machine.Cache.pushFront_resident (c : Cache) (t : Nat) : (c.pushFront t).resident = c.resident := rfl
@[simp] theorem Machine.Cache.pushFront_capacity (c : Cache) (t : Nat) : (c.pushFront t).capacity = c.capacity := rfl
@[simp] theorem Machine.Cache.pushFront_recency (c : Cache) (t : Nat) : (c.pushFront t).recency = t :: c.recency := rfl

/-- The recency list and the resident set hold equally many tags. -/
theorem Safety.CacheOk.length_recency {p : Params} {c : Cache} (h : CacheOk p c) : c.recency.length = c.resident.length := by
  have hs : (Assoc.keys c.resident).Nodup := h.sorted.imp (fun hab => Nat.ne_of_lt hab)
  have hp : c.recency.Perm (Assoc.keys c.resident) := (List.perm_ext_iff_of_nodup h.nodup hs).2 h.same
  simpa [Assoc.keys] using hp.length_eq

/-- A tag in the recency list has a line. -/
theorem Safety.CacheOk.line_of_hit {p : Params} {c : Cache} (h : CacheOk p c) {t : Nat} (ht : t ∈ c.recency) :
    ∃ ln, c.line? t = some ln := Assoc.exists_find?_of_mem ((h.same t).1 ht)

/-- A tag that is not in the recency list has no line. -/
theorem Safety.CacheOk.line_of_miss {p : Params} {c : Cache} (h : CacheOk p c) {t : Nat} (ht : t ∉ c.recency) :
    c.line? t = none := by
  rw [h.same, ← Assoc.find?_isSome_iff] at ht
  simpa [Cache.line?] using ht

/-- A hit keeps the cache in order (R142). -/
theorem Safety.CacheOk.touch {p : Params} {c : Cache} (h : CacheOk p c) {t : Nat} (ht : t ∈ c.recency) :
    CacheOk p ((c.remove t).pushFront t) where
  sorted := h.sorted
  nodup := by
    rw [Cache.touch_recency, List.nodup_cons]
    exact ⟨fun hm => (h.nodup.mem_erase_iff.1 hm).1 rfl, h.nodup.erase t⟩
  same u := by
    rw [Cache.touch_recency, Cache.touch_resident, List.mem_cons, h.nodup.mem_erase_iff, ← h.same]
    by_cases hu : u = t
    · subst hu; simp [ht]
    · simp [hu]
  tags := h.tags
  size := h.size
  reach := h.reach

/-- A miss that evicts nothing: the capacity was not reached. -/
structure Safety.AllocatedFree (c c' : Cache) (t : Nat) (ln : Line) (o : Option (Nat × Line)) : Prop where
  cache : c' = { c with resident := Assoc.insert c.resident t ln }
  victim : o = none

/-- A miss that evicts the tail `v` of the recency list, whose line was `old` (R144, R145). -/
structure Safety.AllocatedEvict (c c' : Cache) (t : Nat) (ln : Line) (o : Option (Nat × Line)) (v : Nat) (old : Line) :
    Prop where
  cache : c' = { c with
    recency := c.recency.erase v, resident := Assoc.erase (Assoc.insert c.resident t ln) v }
  victim : o = some (v, old)
  tail : c.recency.getLast? = some v
  mem : v ∈ c.recency
  ne : v ≠ t
  line : c.line? v = some old

/-- The allocation of a missing tag in a cache of this hardware: it never lacks a victim, and either inserts alone or
evicts the tail (R145, R160). -/
theorem Safety.CacheOk.allocate {p : Params} {c : Cache} (h : CacheOk p c) (hc : CapacityLegal p c.capacity) {t : Nat}
    (ht : t ∉ c.recency) (ln : Line) :
    ∃ c' o, c.allocate p.evictOnReach t ln = some (c', o) ∧
      ((overCapacity p.evictOnReach (c.resident.length + 1) c.capacity = false ∧ AllocatedFree c c' t ln o) ∨
       (overCapacity p.evictOnReach (c.resident.length + 1) c.capacity = true ∧
        ∃ v old, AllocatedEvict c c' t ln o v old)) := by
  have hlen : (Assoc.insert c.resident t ln).length = c.resident.length + 1 :=
    Assoc.length_insert_of_not_mem (fun hm => ht ((h.same t).2 hm))
  unfold Cache.allocate
  simp only [hlen]
  cases hov : overCapacity p.evictOnReach (c.resident.length + 1) c.capacity with
  | false => exact ⟨_, _, rfl, .inl ⟨rfl, rfl, rfl⟩⟩
  | true =>
    have hne : c.recency ≠ [] := by
      intro he
      have h0 : c.resident.length = 0 := by rw [← h.length_recency, he]; rfl
      obtain ⟨h1, h2⟩ := hc
      unfold overCapacity at hov
      rw [h0] at hov
      split at hov
      · have := h2 ‹_›; simp at hov; omega
      · simp at hov; omega
    obtain ⟨v, hv⟩ : ∃ v, c.recency.getLast? = some v := ⟨_, List.getLast?_eq_getLast_of_ne_nil hne⟩
    have hm : v ∈ c.recency := List.mem_of_getLast? hv
    have hvt : v ≠ t := fun e => ht (e ▸ hm)
    obtain ⟨old, hold⟩ := h.line_of_hit hm
    have hfind : Assoc.find? (Assoc.insert c.resident t ln) v = some old := by
      rw [Assoc.find?_insert, if_neg hvt]; exact hold
    refine ⟨_, _, ?_, .inr ⟨rfl, v, old, rfl, rfl, hv, hm, hvt, hold⟩⟩
    simp [Cache.victim?, Cache.line?, Cache.evict, hv, hfind]

/-- The lines after an allocation without eviction. -/
theorem Safety.AllocatedFree.line? {c c' : Cache} {t : Nat} {ln : Line} {o : Option (Nat × Line)}
    (h : AllocatedFree c c' t ln o) (u : Nat) : c'.line? u = if u = t then some ln else c.line? u := by
  rw [h.cache]; exact Assoc.find?_insert _ _ _ _

/-- The lines after an allocation with eviction. -/
theorem Safety.AllocatedEvict.line? {c c' : Cache} {t : Nat} {ln : Line} {o : Option (Nat × Line)} {v : Nat} {old : Line}
    (h : AllocatedEvict c c' t ln o v old) (u : Nat) :
    c'.line? u = if u = t then some ln else if u = v then none else c.line? u := by
  rw [h.cache]
  show Assoc.find? (Assoc.erase _ v) u = _
  rw [Assoc.find?_erase, Assoc.find?_insert]
  by_cases h1 : u = v
  · rw [if_pos h1, if_neg (by rw [h1]; exact h.ne), if_pos h1]
  · rw [if_neg h1, if_neg h1]; rfl

/-- The number of lines after an allocation. -/
theorem Safety.AllocatedFree.length {p : Params} {c c' : Cache} {t : Nat} {ln : Line} {o : Option (Nat × Line)}
    (h : AllocatedFree c c' t ln o) (hc : CacheOk p c) (ht : t ∉ c.recency) :
    c'.resident.length = c.resident.length + 1 := by
  rw [h.cache]; exact Assoc.length_insert_of_not_mem (fun hm => ht ((hc.same t).2 hm))

theorem Safety.AllocatedEvict.length {p : Params} {c c' : Cache} {t : Nat} {ln : Line} {o : Option (Nat × Line)} {v : Nat}
    {old : Line} (h : AllocatedEvict c c' t ln o v old) (hc : CacheOk p c) (ht : t ∉ c.recency) :
    c'.resident.length = c.resident.length := by
  rw [h.cache]
  have h1 := Assoc.length_insert_of_not_mem (v := ln) (fun hm => ht ((hc.same t).2 hm))
  have h2 := Assoc.length_erase_of_mem (Assoc.sorted_insert hc.sorted t ln)
    (Assoc.mem_keys_insert.2 (.inr ((hc.same v).1 h.mem)))
  simp only
  omega

/-- An allocation keeps the cache in order (R160). -/
theorem Safety.CacheOk.push_allocate {p : Params} {c c' : Cache} (h : CacheOk p c) (hc : CapacityLegal p c.capacity)
    {t : Nat} (ht : t ∉ c.recency) (ht4 : t % lineBytes = 0) (htn : t < p.memBytes) {ln : Line}
    {o : Option (Nat × Line)} (ha : c.allocate p.evictOnReach t ln = some (c', o)) :
    CacheOk p (c'.pushFront t) := by
  obtain ⟨c1, o1, h1, hcase⟩ := h.allocate hc ht ln
  obtain ⟨rfl, rfl⟩ : c1 = c' ∧ o1 = o := by rw [ha] at h1; cases h1; exact ⟨rfl, rfl⟩
  obtain ⟨hov, hf⟩ | ⟨hov, v, old, he⟩ := hcase
  · have hl := hf.length h ht
    rw [hf.cache] at hl ⊢
    exact {
      sorted := Assoc.sorted_insert h.sorted _ _
      nodup := List.nodup_cons.2 ⟨ht, h.nodup⟩
      same := fun u => by simp [Assoc.mem_keys_insert, h.same]
      tags := by
        intro u hu
        obtain rfl | hu := Assoc.mem_keys_insert.1 hu
        · exact ⟨ht4, htn⟩
        · exact h.tags u hu
      size := by
        have := h.size
        unfold overCapacity at hov
        simp only [Cache.pushFront_resident, Cache.pushFront_capacity] at hl ⊢
        rw [hl]
        split at hov
        · have h3 := h.reach ‹_›; omega
        · simp at hov; omega
      reach := by
        intro hr
        have h3 := h.reach hr
        unfold overCapacity at hov
        rw [if_pos hr] at hov
        simp only [Cache.pushFront_resident, Cache.pushFront_capacity] at hl ⊢
        rw [hl]
        simp at hov
        omega }
  · have hl := he.length h ht
    rw [he.cache] at hl ⊢
    exact {
      sorted := Assoc.sorted_erase (Assoc.sorted_insert h.sorted _ _) _
      nodup := List.nodup_cons.2 ⟨fun hm => ht (List.mem_of_mem_erase hm), h.nodup.erase v⟩
      same := fun u => by
        simp only [Cache.pushFront_recency, Cache.pushFront_resident, List.mem_cons, h.nodup.mem_erase_iff,
          Assoc.mem_keys_erase, Assoc.mem_keys_insert, h.same]
        by_cases hu : u = t
        · simp [hu, he.ne.symm]
        · simp [hu]
      tags := by
        intro u hu
        obtain rfl | hu := Assoc.mem_keys_insert.1 (Assoc.mem_keys_erase.1 hu).2
        · exact ⟨ht4, htn⟩
        · exact h.tags u hu
      size := by
        simp only [Cache.pushFront_resident, Cache.pushFront_capacity] at hl ⊢
        rw [hl]; exact h.size
      reach := fun hr => by
        simp only [Cache.pushFront_resident, Cache.pushFront_capacity] at hl ⊢
        rw [hl]; exact h.reach hr }

/-- A resident line of a coherent data cache is the BackingStore's. -/
theorem Safety.Coherent.line {m : Memory} {dc : Cache} (h : Coherent m dc) {t : Nat} {ln : Line} (hl : dc.line? t = some ln) :
    ln = fillLine m t := h _ (Assoc.mem_of_find? hl)

/-- The write-back of a line that a coherent cache held changes nothing (R42, R152). -/
theorem Safety.Coherent.writeBackVictim {m : Memory} {dc : Cache} (h : Coherent m dc) (hm : m.wf = true) {v : Nat}
    {old : Line} (hl : dc.line? v = some old) : writeBackVictim m (some (v, old)) = m :=
  writeBackLine_coherent hm (h.line hl)

/-- An allocation of the BackingStore's own line keeps the cache coherent. -/
theorem Safety.Coherent.allocate {m : Memory} {dc dc' : Cache} {e : Bool} {t : Nat} {o : Option (Nat × Line)}
    (h : Coherent m dc) (ha : dc.allocate e t (fillLine m t) = some (dc', o)) : Coherent m dc' := by
  obtain ⟨_, rfl, _⟩ | ⟨_, v, old, _, _, rfl, _⟩ := Cache.allocate_cases ha
  · intro x hx
    obtain rfl | hx := Assoc.mem_insert hx
    · rfl
    · exact h x hx
  · intro x hx
    obtain rfl | hx := Assoc.mem_insert (Assoc.mem_erase.1 hx).1
    · rfl
    · exact h x hx

/-- Which line and which Word of it an address's slot is (R52 to R56). -/
theorem Machine.wordIndex_iff {a : Word} {t o : Nat} (ho : o < lineWords) (ht : t % lineBytes = 0) :
    t / 4 + o = wordIndex a ↔ t = tagOf a ∧ o = (lineOffset a).val := by
  rw [wordIndex_eq_tag]
  have h1 := tagOf_mod a
  have h2 := (lineOffset a).isLt
  unfold lineBytes at ht
  unfold lineWords at ho
  omega

/-- The line of a store's address after the store: the BackingStore's line after it (R155). -/
theorem Machine.fillLine_setWord (m : Memory) (a d : Word) :
    fillLine (m.setWord (wordIndex a) d) (tagOf a) = (fillLine m (tagOf a)).set (lineOffset a) d := by
  apply Vector.ext
  intro i hi
  have h := wordIndex_iff (a := a) (t := tagOf a) hi (tagOf_mod a)
  simp only [true_and] at h
  rw [fillLine_getElem _ _ _ hi, Memory.word_setWord, Vector.getElem_set, fillLine_getElem _ _ _ hi]
  by_cases hx : (lineOffset a).val = i
  · rw [if_pos hx, if_pos (h.2 hx.symm)]
  · rw [if_neg hx, if_neg (fun e => hx (h.1 e).symm)]

/-- A store that goes to both the line and the BackingStore keeps the cache coherent (R157). -/
theorem Safety.Coherent.store {p : Params} {m : Memory} {dc : Cache} (hc : Coherent m dc) (h : CacheOk p dc)
    {a d : Word} {ln : Line} (hl : dc.line? (tagOf a) = some ln) :
    Coherent (m.setWord (wordIndex a) d) (dc.storeWord (tagOf a) ln (lineOffset a) d) := by
  intro e he
  have hnew : (ln.set (lineOffset a) d : Line) = fillLine (m.setWord (wordIndex a) d) (tagOf a) := by
    rw [fillLine_setWord, hc.line hl]
  by_cases het : e.1 = tagOf a
  · have hs := Assoc.sorted_insert h.sorted (tagOf a) (ln.set (lineOffset a) d)
    have hf := Assoc.find?_of_mem hs (show (e.1, e.2) ∈ _ from he)
    rw [het, Assoc.find?_insert_self] at hf
    rw [het, ← hnew]
    exact (Option.some.inj hf).symm
  · obtain h1 | h1 := Assoc.mem_insert he
    · exact absurd (congrArg Prod.fst h1) het
    · rw [hc e h1]
      apply fillLine_congr
      intro i hi
      rw [Memory.word_setWord, if_neg]
      rw [wordIndex_iff hi (h.tags _ (List.mem_map_of_mem h1)).1]
      exact fun x => het x.1

/-- Replacing a Word of a resident line keeps the cache in order. -/
theorem Safety.CacheOk.storeWord {p : Params} {dc : Cache} (h : CacheOk p dc) {t : Nat} {ln : Line} {o : Fin 16}
    {d : Word} (hl : dc.line? t = some ln) : CacheOk p (dc.storeWord t ln o d) := by
  have hm : t ∈ Assoc.keys dc.resident := Assoc.find?_isSome_iff.1 (by rw [Cache.line?] at hl; rw [hl]; rfl)
  have hlen := Assoc.length_insert_of_mem h.sorted (v := ln.set o d) hm
  have hkeys : ∀ u, u ∈ Assoc.keys (dc.storeWord t ln o d).resident ↔ u ∈ Assoc.keys dc.resident := fun u =>
    Assoc.mem_keys_insert.trans ⟨fun hu => hu.elim (fun e => e ▸ hm) id, .inr⟩
  exact {
    sorted := Assoc.sorted_insert h.sorted _ _
    nodup := h.nodup
    same := fun u => (h.same u).trans (hkeys u).symm
    tags := fun u hu => h.tags u ((hkeys u).1 hu)
    size := Nat.le_trans (Nat.le_of_eq hlen) h.size
    reach := fun hr => Nat.lt_of_le_of_lt (Nat.le_of_eq hlen) (h.reach hr) }

/-- The line of a stored address after the store. -/
@[simp] theorem Machine.Cache.storeWord_line? (dc : Cache) (t u : Nat) (ln : Line) (o : Fin 16) (d : Word) :
    (dc.storeWord t ln o d).line? u = if u = t then some (ln.set o d) else dc.line? u :=
  Assoc.find?_insert _ _ _ _

end Sys2Proof
end

