-- ==== Sys2Proof/Laws/Csr.lean ====
section
/-! SUPPORT. The laws of the CSR file: what a read gives after each operation, and that each keeps the canonical form. -/

namespace Sys2Proof.Machine

@[simp] theorem CsrFile.read_reset (c : CsrId) : CsrFile.reset.read c = 0 := rfl

theorem CsrFile.read_store (f : CsrFile) (c d : CsrId) (v : Word) :
    (f.store c v).read d = if d = c then v else f.read d := by
  unfold CsrFile.read CsrFile.store
  simp only [Sparse.get_set, BitVec.toNat_inj]

@[simp] theorem CsrFile.msg_store (f : CsrFile) (c : CsrId) (v : Word) : (f.store c v).msg = f.msg := rfl

/-- `read` after `write` (R265). -/
theorem CsrFile.read_write (p : Params) (f : CsrFile) (c d : CsrId) (v : Word) :
    (f.write p c v).read d = if d = c then v else f.read d := by
  unfold CsrFile.write
  split
  · exact CsrFile.read_store f c d v
  · exact CsrFile.read_store f c d v

/-- The host message after `write` (R268). -/
theorem CsrFile.msg_write (p : Params) (f : CsrFile) (c : CsrId) (v : Word) :
    (f.write p c v).msg = if c = p.hostCsr ∧ v ≠ 0 then some v else f.msg := by
  unfold CsrFile.write; split <;> rfl

theorem CsrFile.read_clockTick (p : Params) (f : CsrFile) (d : CsrId) :
    (f.clockTick p).read d = if d = p.cycleCsr then f.read d + 1 else f.read d := by
  rw [CsrFile.clockTick, CsrFile.read_store]; split <;> simp_all

@[simp] theorem CsrFile.msg_clockTick (p : Params) (f : CsrFile) : (f.clockTick p).msg = f.msg := rfl

theorem CsrFile.read_instructionRetired (p : Params) (f : CsrFile) (d : CsrId) :
    (f.instructionRetired p).read d = if d = p.instretCsr then f.read d + 1 else f.read d := by
  rw [CsrFile.instructionRetired, CsrFile.read_store]; split <;> simp_all

@[simp] theorem CsrFile.msg_instructionRetired (p : Params) (f : CsrFile) : (f.instructionRetired p).msg = f.msg := rfl

/-! ## The canonical form -/

theorem CsrFile.wf_iff {f : CsrFile} :
    f.wf = true ↔ Sparse.wf CsrFile.unlisted f.words = true ∧ ∀ e ∈ f.words, e.1 < 4096 := by
  simp [CsrFile.wf]

theorem CsrFile.wf_reset : CsrFile.reset.wf = true := rfl

theorem CsrFile.wf_store {f : CsrFile} (h : f.wf = true) (c : CsrId) (v : Word) : (f.store c v).wf = true := by
  obtain ⟨h1, h2⟩ := CsrFile.wf_iff.mp h
  refine CsrFile.wf_iff.mpr ⟨Sparse.wf_set h1 _ _, fun e he => ?_⟩
  rcases Sparse.mem_set he with he | he
  · have := c.isLt; omega
  · exact h2 e he

theorem CsrFile.wf_write {f : CsrFile} (h : f.wf = true) (p : Params) (c : CsrId) (v : Word) :
    (f.write p c v).wf = true := by
  unfold CsrFile.write
  split
  · exact CsrFile.wf_store h c v
  · exact CsrFile.wf_store h c v

theorem CsrFile.wf_clockTick {f : CsrFile} (h : f.wf = true) (p : Params) : (f.clockTick p).wf = true :=
  CsrFile.wf_store h _ _

theorem CsrFile.wf_instructionRetired {f : CsrFile} (h : f.wf = true) (p : Params) :
    (f.instructionRetired p).wf = true := CsrFile.wf_store h _ _

/-! ## Several clock ticks -/

theorem CsrFile.read_ticks (p : Params) (n : Nat) (f : CsrFile) (d : CsrId) :
    ((CsrFile.clockTick p)^[n] f).read d = if d = p.cycleCsr then f.read d + BitVec.ofNat 32 n else f.read d := by
  induction n generalizing f with
  | zero => simp
  | succ n ih =>
    rw [Function.iterate_succ_apply, ih, CsrFile.read_clockTick]
    split
    · rw [BitVec.add_assoc]
      congr 1
      apply BitVec.eq_of_toNat_eq
      simp [Nat.add_comm]
    · rfl

@[simp] theorem CsrFile.msg_ticks (p : Params) (n : Nat) (f : CsrFile) : ((CsrFile.clockTick p)^[n] f).msg = f.msg := by
  induction n generalizing f with
  | zero => rfl
  | succ n ih => rw [Function.iterate_succ_apply, ih, CsrFile.msg_clockTick]

theorem CsrFile.wf_ticks {f : CsrFile} (h : f.wf = true) (p : Params) (n : Nat) :
    ((CsrFile.clockTick p)^[n] f).wf = true := by
  induction n generalizing f with
  | zero => exact h
  | succ n ih => exact ih (CsrFile.wf_clockTick h p)

end Sys2Proof.Machine
end

