-- ==== Sys2Proof/Laws/State.lean ====
section
/-! SUPPORT. One lemma per field per update of State, true by rfl, and the laws of the registers and of commit. -/

namespace Sys2Proof.Machine

variable {ρ κ : Type} (K : Collaborators ρ κ) (s : State ρ κ)

/-! ## The reference collaborators -/

section
variable (p : Params)
@[simp] theorem reference_decoder : (Collaborators.reference p).decoder = referenceDecoder := rfl
@[simp] theorem reference_launch : (Collaborators.reference p).regs.launch = RegFile.launch p := rfl
@[simp] theorem reference_regs_read : (Collaborators.reference p).regs.read = RegFile.read := rfl
@[simp] theorem reference_regs_write : (Collaborators.reference p).regs.write = RegFile.write := rfl
@[simp] theorem reference_csrs_launch : (Collaborators.reference p).csrs.launch = CsrFile.reset := rfl
@[simp] theorem reference_csrs_read : (Collaborators.reference p).csrs.read = CsrFile.read := rfl
@[simp] theorem reference_csrs_write : (Collaborators.reference p).csrs.write = CsrFile.write p := rfl
@[simp] theorem reference_clockTick : (Collaborators.reference p).csrs.clockTick = CsrFile.clockTick p := rfl
@[simp] theorem reference_instructionRetired :
    (Collaborators.reference p).csrs.instructionRetired = CsrFile.instructionRetired p := rfl
@[simp] theorem reference_reset (f : CsrFile) : (Collaborators.reference p).csrs.reset f = CsrFile.reset := rfl
@[simp] theorem reference_hostMessage :
    (Collaborators.reference p).csrs.getPendingHostMessage = CsrFile.getPendingHostMessage := rfl
end

/-- The register file is all that `State.reg` looks at. -/
theorem State.reg_congr {s t : State} (h : t.regs = s.regs) (i : RegId) : t.reg i = s.reg i := by
  unfold State.reg; rw [h]

/-- The machine's registers are what its register file reads. -/
theorem State.regs_read (s : State) (i : RegId) : s.regs.read i = s.reg i := rfl

/-! ## tick -/

@[simp] theorem State.tick_params : (s.tick K).params = s.params := rfl
@[simp] theorem State.tick_ip : (s.tick K).ip = s.ip := rfl
@[simp] theorem State.tick_phase : (s.tick K).phase = s.phase := rfl
@[simp] theorem State.tick_instr : (s.tick K).instr = s.instr := rfl
@[simp] theorem State.tick_regs : (s.tick K).regs = s.regs := rfl
@[simp] theorem State.tick_csr : (s.tick K).csr = K.csrs.clockTick s.csr := rfl
@[simp] theorem State.tick_memc : (s.tick K).memc = s.memc := rfl
@[simp] theorem State.tick_fault : (s.tick K).fault = s.fault := rfl

/-! ## advance -/

@[simp] theorem State.advance_params : (s.advance).params = s.params := rfl
@[simp] theorem State.advance_ip : (s.advance).ip = s.ip := rfl
@[simp] theorem State.advance_phase : (s.advance).phase = s.phase := rfl
@[simp] theorem State.advance_instr : (s.advance).instr = s.instr := rfl
@[simp] theorem State.advance_regs : (s.advance).regs = s.regs := rfl
@[simp] theorem State.advance_csr : (s.advance).csr = s.csr := rfl
@[simp] theorem State.advance_memc : (s.advance).memc = advanceCycle s.memc := rfl
@[simp] theorem State.advance_fault : (s.advance).fault = s.fault := rfl

/-! ## raise -/

@[simp] theorem State.raise_params (f : Fault) : (s.raise f).params = s.params := rfl
@[simp] theorem State.raise_ip (f : Fault) : (s.raise f).ip = s.ip := rfl
@[simp] theorem State.raise_phase (f : Fault) : (s.raise f).phase = s.phase := rfl
@[simp] theorem State.raise_instr (f : Fault) : (s.raise f).instr = s.instr := rfl
@[simp] theorem State.raise_regs (f : Fault) : (s.raise f).regs = s.regs := rfl
@[simp] theorem State.raise_csr (f : Fault) : (s.raise f).csr = s.csr := rfl
@[simp] theorem State.raise_memc (f : Fault) : (s.raise f).memc = s.memc := rfl
@[simp] theorem State.raise_fault (f : Fault) : (s.raise f).fault = some f := rfl

/-! ## cpuResetWith -/

@[simp] theorem State.cpuResetWith_params (v : Word) : (s.cpuResetWith K v).params = s.params := rfl
@[simp] theorem State.cpuResetWith_ip (v : Word) : (s.cpuResetWith K v).ip = v := rfl
@[simp] theorem State.cpuResetWith_phase (v : Word) : (s.cpuResetWith K v).phase = .fetch := rfl
@[simp] theorem State.cpuResetWith_instr (v : Word) : (s.cpuResetWith K v).instr = none := rfl
@[simp] theorem State.cpuResetWith_regs (v : Word) : (s.cpuResetWith K v).regs = s.regs := rfl
@[simp] theorem State.cpuResetWith_csr (v : Word) : (s.cpuResetWith K v).csr = K.csrs.reset s.csr := rfl
@[simp] theorem State.cpuResetWith_memc (v : Word) : (s.cpuResetWith K v).memc = s.memc := rfl
@[simp] theorem State.cpuResetWith_fault (v : Word) : (s.cpuResetWith K v).fault = s.fault := rfl

section
variable (s : State) (v : Word)
@[simp] theorem State.cpuReset_params : (s.cpuReset v).params = s.params := rfl
@[simp] theorem State.cpuReset_ip : (s.cpuReset v).ip = v := rfl
@[simp] theorem State.cpuReset_phase : (s.cpuReset v).phase = .fetch := rfl
@[simp] theorem State.cpuReset_instr : (s.cpuReset v).instr = none := rfl
@[simp] theorem State.cpuReset_regs : (s.cpuReset v).regs = s.regs := rfl
@[simp] theorem State.cpuReset_csr : (s.cpuReset v).csr = CsrFile.reset := rfl
@[simp] theorem State.cpuReset_memc : (s.cpuReset v).memc = s.memc := rfl
@[simp] theorem State.cpuReset_fault : (s.cpuReset v).fault = s.fault := rfl
end

/-! ## retire -/

@[simp] theorem State.retire_params : (s.retire K).params = s.params := rfl
@[simp] theorem State.retire_ip : (s.retire K).ip = s.ip := rfl
@[simp] theorem State.retire_phase : (s.retire K).phase = s.phase := rfl
@[simp] theorem State.retire_instr : (s.retire K).instr = s.instr := rfl
@[simp] theorem State.retire_regs : (s.retire K).regs = s.regs := rfl
@[simp] theorem State.retire_csr : (s.retire K).csr = K.csrs.instructionRetired s.csr := rfl
@[simp] theorem State.retire_memc : (s.retire K).memc = s.memc := rfl
@[simp] theorem State.retire_fault : (s.retire K).fault = s.fault := rfl

/-! ## writeReg -/

@[simp] theorem State.writeReg_params (i : RegId) (v : Word) : (s.writeReg K i v).params = s.params := rfl
@[simp] theorem State.writeReg_ip (i : RegId) (v : Word) : (s.writeReg K i v).ip = s.ip := rfl
@[simp] theorem State.writeReg_phase (i : RegId) (v : Word) : (s.writeReg K i v).phase = s.phase := rfl
@[simp] theorem State.writeReg_instr (i : RegId) (v : Word) : (s.writeReg K i v).instr = s.instr := rfl
@[simp] theorem State.writeReg_regs (i : RegId) (v : Word) : (s.writeReg K i v).regs = K.regs.write s.regs i v := rfl
@[simp] theorem State.writeReg_csr (i : RegId) (v : Word) : (s.writeReg K i v).csr = s.csr := rfl
@[simp] theorem State.writeReg_memc (i : RegId) (v : Word) : (s.writeReg K i v).memc = s.memc := rfl
@[simp] theorem State.writeReg_fault (i : RegId) (v : Word) : (s.writeReg K i v).fault = s.fault := rfl

/-! ## What the machine's registers read after an update -/

section
variable (K : Collaborators RegFile CsrFile) (s : State) (i : RegId)
@[simp] theorem State.tick_reg : (s.tick K).reg i = s.reg i := rfl
@[simp] theorem State.advance_reg : (s.advance).reg i = s.reg i := rfl
@[simp] theorem State.raise_reg (f : Fault) : (s.raise f).reg i = s.reg i := rfl
@[simp] theorem State.cpuReset_reg (v : Word) : (s.cpuReset v).reg i = s.reg i := rfl
@[simp] theorem State.retire_reg : (s.retire K).reg i = s.reg i := rfl
end

/-! ## advanceCycle -/

@[simp] theorem advanceCycle_mem (m : MemComponent) : (advanceCycle m).mem = m.mem := rfl
@[simp] theorem advanceCycle_wait (m : MemComponent) : (advanceCycle m).wait = m.wait - 1 := rfl
@[simp] theorem advanceCycle_fetchAddr (m : MemComponent) : (advanceCycle m).fetchAddr = m.fetchAddr := rfl
@[simp] theorem advanceCycle_dataReq (m : MemComponent) : (advanceCycle m).dataReq = m.dataReq := rfl
@[simp] theorem advanceCycle_noMem (m : MemComponent) : (advanceCycle m).noMem = m.noMem := rfl
@[simp] theorem advanceCycle_front (m : MemComponent) : (advanceCycle m).front = m.front := rfl

/-! ## Registers -/

@[simp] theorem RegFile.read_zero (f : RegFile) : f.read 0 = some 0 := rfl

@[simp] theorem State.reg_zero (s : State) : s.reg 0 = some 0 := rfl

theorem RegFile.write_zero (f : RegFile) (v : Word) : f.write 0 v = f := rfl

/-- What a register holds after a write: `x0` discards it (R25). -/
theorem RegFile.read_write (f : RegFile) (i j : RegId) (v : Word) :
    (f.write i v).read j = if j = i ∧ j ≠ 0 then some v else f.read j := by
  unfold RegFile.write
  by_cases hi : i = 0
  · subst hi
    rw [if_pos rfl, if_neg (by rintro ⟨h, h'⟩; exact h' h)]
  · rw [if_neg hi]
    unfold RegFile.read
    by_cases hj : j = 0
    · simp [hj]
    · by_cases hji : j = i
      · subst hji; simp [hj]
      · have hv : ¬(i : Nat) = (j : Nat) := fun e => hji (Fin.ext e.symm)
        simp [hj, hji, hv]

theorem State.readReg_ok {K : Collaborators ρ κ} {s : State ρ κ} {i : RegId} {v : Word}
    (h : K.regs.read s.regs i = some v) : s.readReg K i = .ok v := by
  simp [State.readReg, h]

theorem State.readReg_none {K : Collaborators ρ κ} {s : State ρ κ} {i : RegId} (h : K.regs.read s.regs i = none) :
    s.readReg K i = .error (.uninit i) := by
  simp [State.readReg, h]

/-! ## Commit -/

@[simp] theorem State.writeDest_params (r : Record) : (s.writeDest K r).params = s.params := by
  unfold State.writeDest; split <;> rfl
@[simp] theorem State.writeDest_ip (r : Record) : (s.writeDest K r).ip = s.ip := by
  unfold State.writeDest; split <;> rfl
@[simp] theorem State.writeDest_phase (r : Record) : (s.writeDest K r).phase = s.phase := by
  unfold State.writeDest; split <;> rfl
@[simp] theorem State.writeDest_instr (r : Record) : (s.writeDest K r).instr = s.instr := by
  unfold State.writeDest; split <;> rfl
@[simp] theorem State.writeDest_csr (r : Record) : (s.writeDest K r).csr = s.csr := by
  unfold State.writeDest; split <;> rfl
@[simp] theorem State.writeDest_memc (r : Record) : (s.writeDest K r).memc = s.memc := by
  unfold State.writeDest; split <;> rfl
@[simp] theorem State.writeDest_fault (r : Record) : (s.writeDest K r).fault = s.fault := by
  unfold State.writeDest; split <;> rfl

@[simp] theorem State.writeCsr_params (r : Record) : (s.writeCsr K r).params = s.params := by
  unfold State.writeCsr; split <;> rfl
@[simp] theorem State.writeCsr_ip (r : Record) : (s.writeCsr K r).ip = s.ip := by
  unfold State.writeCsr; split <;> rfl
@[simp] theorem State.writeCsr_phase (r : Record) : (s.writeCsr K r).phase = s.phase := by
  unfold State.writeCsr; split <;> rfl
@[simp] theorem State.writeCsr_instr (r : Record) : (s.writeCsr K r).instr = s.instr := by
  unfold State.writeCsr; split <;> rfl
@[simp] theorem State.writeCsr_regs (r : Record) : (s.writeCsr K r).regs = s.regs := by
  unfold State.writeCsr; split <;> rfl
@[simp] theorem State.writeCsr_memc (r : Record) : (s.writeCsr K r).memc = s.memc := by
  unfold State.writeCsr; split <;> rfl
@[simp] theorem State.writeCsr_fault (r : Record) : (s.writeCsr K r).fault = s.fault := by
  unfold State.writeCsr; split <;> rfl

@[simp] theorem State.commit_params (r : Record) : (s.commit K r).params = s.params := by simp [State.commit]
@[simp] theorem State.commit_ip (r : Record) : (s.commit K r).ip = r.nextIp := rfl
@[simp] theorem State.commit_phase (r : Record) : (s.commit K r).phase = .fetch := rfl
@[simp] theorem State.commit_instr (r : Record) : (s.commit K r).instr = some r := rfl
@[simp] theorem State.commit_regs (r : Record) : (s.commit K r).regs = (s.writeDest K r).regs := by simp [State.commit]
@[simp] theorem State.commit_memc (r : Record) : (s.commit K r).memc = s.memc := by simp [State.commit]
@[simp] theorem State.commit_fault (r : Record) : (s.commit K r).fault = s.fault := by simp [State.commit]

/-- The machine's registers after commit: the destination holds the record's data. -/
theorem State.commit_reg (p : Params) (s : State) (r : Record) (i : RegId) :
    (s.commit (Collaborators.reference p) r).reg i = if r.rd = some i ∧ i ≠ 0 then some r.data else s.reg i := by
  unfold State.reg
  rw [State.commit_regs, State.writeDest]
  cases h : r.rd with
  | none => simp
  | some j =>
    rw [State.writeReg_regs, reference_regs_write, RegFile.read_write]
    by_cases hj : i = j
    · subst hj; simp
    · have hj' : ¬j = i := fun e => hj e.symm
      simp [hj, hj']

/-- The CSR file after commit of a record that is no CSR write: the retirement is counted. -/
theorem State.commit_csr_of_ne (r : Record) (h : r.kind ≠ .csrw) :
    (s.commit K r).csr = K.csrs.instructionRetired s.csr := by
  have h2 : (s.writeDest K r).writeCsr K r = s.writeDest K r := by
    unfold State.writeCsr; split <;> simp_all
  simp [State.commit, h2]

/-- The CSR file after commit of a CSR write: the write, then the retirement. -/
theorem State.commit_csr_write (r : Record) (c : CsrId) (h : r.kind = .csrw) (hc : r.csr = some c) :
    (s.commit K r).csr = K.csrs.instructionRetired (K.csrs.write s.csr c r.data) := by
  simp [State.commit, State.writeCsr, h, hc]

/-! ## Stall edges -/

/-- `n` stall edges in one: `n` CSR ticks and `wait` lowered by `n` (R237). -/
theorem stall_eq (n : Nat) : stall K n s =
    { s with csr := K.csrs.clockTick^[n] s.csr, memc := { s.memc with wait := s.memc.wait - n } } := by
  induction n generalizing s with
  | zero => rfl
  | succ n ih =>
    rw [stall, ih]
    simp [State.tick, State.advance, advanceCycle, Nat.sub_sub, Nat.add_comm]

@[simp] theorem stall_params (n : Nat) : (stall K n s).params = s.params := by rw [stall_eq]
@[simp] theorem stall_ip (n : Nat) : (stall K n s).ip = s.ip := by rw [stall_eq]
@[simp] theorem stall_phase (n : Nat) : (stall K n s).phase = s.phase := by rw [stall_eq]
@[simp] theorem stall_instr (n : Nat) : (stall K n s).instr = s.instr := by rw [stall_eq]
@[simp] theorem stall_regs (n : Nat) : (stall K n s).regs = s.regs := by rw [stall_eq]
@[simp] theorem stall_csr (n : Nat) : (stall K n s).csr = K.csrs.clockTick^[n] s.csr := by rw [stall_eq]
@[simp] theorem stall_memc (n : Nat) : (stall K n s).memc = { s.memc with wait := s.memc.wait - n } := by rw [stall_eq]
@[simp] theorem stall_fault (n : Nat) : (stall K n s).fault = s.fault := by rw [stall_eq]
@[simp] theorem stall_reg (K : Collaborators RegFile CsrFile) (s : State) (n : Nat) (i : RegId) :
    (stall K n s).reg i = s.reg i := State.reg_congr (stall_regs K s n) i

end Sys2Proof.Machine
end

