-- ==== Sys2Proof/Laws/Controller.lean ====
section
/-! SUPPORT. What the controller's operations can do, said once: the phases, one instruction, and a step. -/

namespace Sys2Proof.Machine

variable {ρ κ : Type} {K : Collaborators ρ κ}

/-! ## The Executor -/

@[simp] theorem execute_kind (r : Record) (ip : Word) : (execute r ip).kind = r.kind := by
  unfold execute; split <;> rfl

@[simp] theorem execute_rd (r : Record) (ip : Word) : (execute r ip).rd = r.rd := by
  unfold execute; split <;> rfl

@[simp] theorem execute_csr (r : Record) (ip : Word) : (execute r ip).csr = r.csr := by
  unfold execute; split <;> rfl

theorem execute_wellFormed (r : Record) (ip : Word) : (execute r ip).wellFormed = r.wellFormed := by
  unfold execute; split <;> rfl

/-- The address is 0 for every kind that accesses no memory (R80, D27). -/
theorem execute_addr_other {r : Record} (h : r.kind.opKind = .other) (ip : Word) : (execute r ip).addr = 0 := by
  unfold execute
  split
  case h_2 hk => rw [hk] at h; cases h
  case h_3 hk => rw [hk] at h; cases h
  all_goals rfl

/-! ## Operand read -/

/-- An operand read that succeeds (R234). -/
theorem readOperands_ok {s : State ρ κ} {r r1 : Record} (h : s.readOperands K r = .ok r1) :
    ∃ v1 v2, s.readSource K r.rs1 = .ok v1 ∧ s.readSource K r.rs2 = .ok v2 ∧
      r1 = { r with v1 := v1, v2 := v2, csrVal := s.readCsrValue K r.csr } := by
  unfold State.readOperands at h
  split at h
  · cases h
  · split at h
    · cases h
    · cases h
      exact ⟨_, _, ‹_›, ‹_›, rfl⟩

/-- An operand read that fails names a source register that holds no value, the first one (R234, R255, R257). -/
theorem readOperands_error {s : State ρ κ} {r : Record} {f : Fault} (h : s.readOperands K r = .error f) :
    ∃ i, f = .uninit i ∧ K.regs.read s.regs i = none ∧
      (r.rs1 = some i ∨ (r.rs2 = some i ∧ ∃ v, s.readSource K r.rs1 = .ok v)) := by
  have src : ∀ o g, s.readSource K o = .error g → ∃ i, g = .uninit i ∧ K.regs.read s.regs i = none ∧ o = some i := by
    intro o g hg
    cases o with
    | none => cases hg
    | some i =>
      simp only [State.readSource, State.readReg] at hg
      split at hg
      · cases hg
      · cases hg
        exact ⟨i, rfl, ‹_›, rfl⟩
  unfold State.readOperands at h
  split at h
  · rename_i g hg
    cases h
    obtain ⟨i, h1, h2, h3⟩ := src _ _ hg
    exact ⟨i, h1, h2, .inl h3⟩
  · rename_i v hv
    split at h
    · rename_i g hg
      cases h
      obtain ⟨i, h1, h2, h3⟩ := src _ _ hg
      exact ⟨i, h1, h2, .inr ⟨h3, v, hv⟩⟩
    · cases h

theorem readSource_some {s : State ρ κ} {i : RegId} {v : Word} (h : K.regs.read s.regs i = some v) :
    s.readSource K (some i) = .ok v := State.readReg_ok h

@[simp] theorem readSource_none (s : State ρ κ) : s.readSource K none = .ok 0 := rfl

@[simp] theorem readSource_zero (p : Params) (s : State) :
    s.readSource (Collaborators.reference p) (some 0) = .ok 0 := rfl

@[simp] theorem readSource_tick (s : State ρ κ) (o : Option RegId) : (s.tick K).readSource K o = s.readSource K o := by
  cases o <;> rfl

/-! ## Phases -/

/-- What the DecodeExecute work does when it is done (R233). -/
theorem issue_done {r : Record} {s t : State ρ κ} (h : issue K r s = .done t) :
    ∃ r1 m, s.readOperands K r = .ok r1 ∧
      requestData s.params (execute r1 s.ip).addr r.kind.opKind s.memc = .done m ∧
      t = { s with memc := m, instr := some (execute r1 s.ip), phase := .writeback } := by
  unfold issue at h
  split at h
  · cases h
  · rename_i r1 hr
    have hk : r1.kind = r.kind := by
      obtain ⟨_, _, _, _, rfl⟩ := readOperands_ok hr; rfl
    simp only [execute_kind, hk] at h
    split at h
    · cases h
    · cases h
      exact ⟨_, _, hr, ‹_›, rfl⟩

/-- What it does when it raises: F_UNINIT with the state untouched, or the data request's fault (R233, R257). -/
theorem issue_raised {r : Record} {s t : State ρ κ} {f : Fault} (h : issue K r s = .raised f t) :
    (s.readOperands K r = .error f ∧ t = s) ∨
    ∃ r1 m, s.readOperands K r = .ok r1 ∧
      requestData s.params (execute r1 s.ip).addr r.kind.opKind s.memc = .raised f m ∧ t = { s with memc := m } := by
  unfold issue at h
  split at h
  · cases h
    exact .inl ⟨‹_›, rfl⟩
  · rename_i r1 hr
    have hk : r1.kind = r.kind := by
      obtain ⟨_, _, _, _, rfl⟩ := readOperands_ok hr; rfl
    simp only [execute_kind, hk] at h
    split at h
    · cases h
      exact .inr ⟨_, _, hr, ‹_›, rfl⟩
    · cases h

/-- A ready or unready Writeback edge's work (R235, R236). -/
theorem writebackStep_done {s t : State ρ κ} (h : writebackStep K s = .done t) :
    ∃ r, s.instr = some r ∧
    ((∃ d m, pollData s.params r.addr r.kind.opKind r.data s.memc = .ok (false, d, m) ∧ t = s) ∨
     (∃ d m, pollData s.params r.addr r.kind.opKind r.data s.memc = .ok (true, d, m) ∧
        t = ({ s with memc := m }).commit K { r with data := d })) := by
  unfold writebackStep at h
  split at h
  · cases h
  · rename_i r hr
    refine ⟨r, hr, ?_⟩
    split at h
    · cases h
    · cases h
      exact .inl ⟨_, _, ‹_›, rfl⟩
    · cases h
      exact .inr ⟨_, _, ‹_›, rfl⟩

/-- A Writeback edge that raises leaves the state as it is (R256). -/
theorem writebackStep_raised {s t : State ρ κ} {f : Fault} (h : writebackStep K s = .raised f t) :
    t = s ∧ ((s.instr = none ∧ f = .impossible) ∨
      ∃ r, s.instr = some r ∧ pollData s.params r.addr r.kind.opKind r.data s.memc = .error f) := by
  unfold writebackStep at h
  split at h
  · cases h
    exact ⟨rfl, .inl ⟨‹_›, rfl⟩⟩
  · rename_i r hr
    split at h
    · cases h
      exact ⟨rfl, .inr ⟨r, hr, ‹_›⟩⟩
    · cases h
    · cases h

/-- A Fetch edge's work (R232). -/
theorem fetchStep_done {s t : State ρ κ} (h : fetchStep s = .done t) :
    ∃ m, requestFetch s.params s.ip s.memc = .done m ∧
      t = { s with instr := none, memc := m, phase := .decodeExecute } := by
  unfold fetchStep at h
  split at h
  · cases h
  · cases h
    exact ⟨_, ‹_›, rfl⟩

theorem fetchStep_raised {s t : State ρ κ} {f : Fault} (h : fetchStep s = .raised f t) :
    ∃ m, requestFetch s.params s.ip s.memc = .raised f m ∧ t = { s with instr := none, memc := m } := by
  unfold fetchStep at h
  split at h
  · cases h
    exact ⟨_, ‹_›, rfl⟩
  · cases h

/-- The frame of an edge (R230). -/
theorem edge_done {body : State ρ κ → Result (State ρ κ)} {s t : State ρ κ} (h : edge K body s = .done t) :
    ∃ u, body (s.tick K) = .done u ∧ t = u.advance := by
  unfold edge at h
  split at h
  · cases h
  · cases h
    exact ⟨_, ‹_›, rfl⟩

theorem edge_raised {body : State ρ κ → Result (State ρ κ)} {s t : State ρ κ} {f : Fault} (h : edge K body s = .raised f t) :
    body (s.tick K) = .raised f t := by
  unfold edge at h
  split at h
  · cases h; assumption
  · cases h

/-! ## One instruction -/

/-- Every meaning is the run of its instruction's record (R98): the executed instruction and the one the clock edge
decodes are the same. -/
theorem exec_eq_runRecord (i : Instr) (s : State) : exec i s = runRecord i.toRecord s := by
  cases i <;> rfl

/-- The Writeback phase from a state whose data request matches and which is ready after its stalls. -/
theorem finish_next {s t : State ρ κ} (h : finish K s = .next t) :
    ∃ u, writebackStep K ((stall K (dataStalls s) s).tick K) = .done u ∧ t = u.advance := by
  unfold finish at h
  split at h
  · cases h
  · cases h
    exact edge_done ‹_›

theorem finish_fault {s : State ρ κ} {f : Fault} (h : finish K s = .fault f) :
    ∃ u, writebackStep K ((stall K (dataStalls s) s).tick K) = .raised f u := by
  unfold finish at h
  split at h
  · cases h
    exact ⟨_, edge_raised ‹_›⟩
  · cases h

/-- The run of a record that retires: its DecodeExecute edge, then its Writeback phase. -/
theorem runRecordWith_next {r : Record} {s t : State ρ κ} (h : runRecordWith K r s = .next t) :
    s.fault = none ∧ ∃ u, issue K r (s.tick K) = .done u ∧ finish K u.advance = .next t := by
  unfold runRecordWith at h
  split at h
  · cases h
  · rename_i hf
    refine ⟨hf, ?_⟩
    split at h
    · cases h
    · obtain ⟨u, hu, rfl⟩ := edge_done ‹_›
      exact ⟨u, hu, h⟩

/-- The run of a record that stops: it was stopped, its DecodeExecute edge raises, or its Writeback phase does. -/
theorem runRecordWith_fault {r : Record} {s : State ρ κ} {f : Fault} (h : runRecordWith K r s = .fault f) :
    s.fault = some f ∨ (s.fault = none ∧ ((∃ u, issue K r (s.tick K) = .raised f u) ∨
      ∃ u, issue K r (s.tick K) = .done u ∧ finish K u.advance = .fault f)) := by
  unfold runRecordWith at h
  split at h
  · cases h
    exact .inl ‹_›
  · rename_i hf
    refine .inr ⟨hf, ?_⟩
    split at h
    · cases h
      exact .inl ⟨_, edge_raised ‹_›⟩
    · obtain ⟨u, hu, rfl⟩ := edge_done ‹_›
      exact .inr ⟨u, hu, h⟩

/-- No run of a record is refused. -/
theorem runRecordWith_not_refused (r : Record) (s : State ρ κ) (x : Refusal) : runRecordWith K r s ≠ .refused x := by
  unfold runRecordWith finish
  intro h
  repeat' split at h
  all_goals cases h

/-- A poll of kind `Other` is ready at once, whatever `wait` is (R149, R154). -/
theorem pollData_other {p : Params} {a a' d : Word} {m : MemComponent} (hreq : m.dataReq = some (a', .other))
    (hn : m.noMem = true) : pollData p a .other d m = .ok (true, d, m) := by
  simp [pollData, pollMatches, hreq, hn]

/-- The Writeback phase of a record that accesses no memory: one edge (R149, R235). -/
theorem finish_other {s : State ρ κ} {r : Record} {a' : Word} (hi : s.instr = some r) (hk : r.kind.opKind = .other)
    (hreq : s.memc.dataReq = some (a', .other)) (hn : s.memc.noMem = true) :
    finish K s = .next ((s.tick K).commit K r).advance := by
  have hp : pollData (s.tick K).params r.addr r.kind.opKind r.data (s.tick K).memc =
      .ok (true, r.data, (s.tick K).memc) := by
    rw [hk]; exact pollData_other hreq hn
  have hw : writebackStep K (s.tick K) = .done ((s.tick K).commit K r) := by
    simp only [writebackStep, State.tick_instr, hi]
    rw [hp, ← hi]
    rfl
  simp only [finish, dataStalls, hn, if_true, stall, edge, hw]

/-- The state in which a record of kind `Other` is committed: two CSR ticks on, the data latch and flag set, `wait` one
lower. -/
def otherCommitState (K : Collaborators ρ κ) (s : State ρ κ) (r2 : Record) : State ρ κ :=
  { s with
    csr := K.csrs.clockTick (K.csrs.clockTick s.csr)
    memc := { s.memc with wait := s.memc.wait - 1, dataReq := some (0, .other), noMem := true }
    instr := some r2
    phase := .writeback }

/-- The run of a record that accesses no memory takes two edges and never stops once its operands are read (R149, R233
to R236). -/
theorem runRecordWith_other {r r1 : Record} {s : State ρ κ} (hf : s.fault = none) (hk : r.kind.opKind = .other)
    (hr : (s.tick K).readOperands K r = .ok r1) :
    runRecordWith K r s =
      .next ((otherCommitState K s (execute r1 s.ip)).commit K (execute r1 s.ip)).advance := by
  have hk1 : r1.kind = r.kind := by
    obtain ⟨_, _, _, _, rfl⟩ := readOperands_ok hr; rfl
  have haddr : (execute r1 s.ip).addr = 0 := execute_addr_other (by rw [hk1, hk]) s.ip
  have hkind : (execute r1 s.ip).kind.opKind = .other := by rw [execute_kind, hk1, hk]
  generalize he : execute r1 s.ip = e at haddr hkind
  have hissue : issue K r (s.tick K) = .done { s.tick K with
      memc := { s.memc with dataReq := some (0, .other), noMem := true }, instr := some e, phase := .writeback } := by
    simp only [issue, hr, State.tick_ip, he, State.tick_memc, State.tick_params]
    rw [hkind, haddr, requestData_other]
  simp only [runRecordWith, hf, edge, hissue]
  rw [finish_other (a' := 0) rfl hkind rfl rfl]
  rfl

/-- A run is its DecodeExecute edge and then its Writeback phase. -/
theorem runRecordWith_of_issue {r : Record} {s u : State ρ κ} (hf : s.fault = none)
    (h : issue K r (s.tick K) = .done u) : runRecordWith K r s = finish K u.advance := by
  simp only [runRecordWith, hf, edge, h]

/-- A run whose DecodeExecute edge raises is that fault. -/
theorem runRecordWith_of_raised {r : Record} {s u : State ρ κ} {f : Fault} (hf : s.fault = none)
    (h : issue K r (s.tick K) = .raised f u) : runRecordWith K r s = .fault f := by
  simp only [runRecordWith, hf, edge, h]

/-- The DecodeExecute work, from its parts (R233). -/
theorem issue_of_parts {r r1 : Record} {s : State ρ κ} {m : MemComponent} (hr : s.readOperands K r = .ok r1)
    (hm : requestData s.params (execute r1 s.ip).addr r.kind.opKind s.memc = .done m) :
    issue K r s = .done { s with memc := m, instr := some (execute r1 s.ip), phase := .writeback } := by
  have hk : r1.kind = r.kind := by
    obtain ⟨_, _, _, _, rfl⟩ := readOperands_ok hr; rfl
  simp only [issue, hr]
  rw [execute_kind, hk, hm]

/-- The Writeback phase of a load or a store: as many stall edges as `wait` has left, then the ready edge (R235,
R237). -/
theorem finish_mem {s : State ρ κ} {r : Record} {d : Word} {m' : MemComponent} (hi : s.instr = some r)
    (hn : s.memc.noMem = false)
    (hp : pollData s.params r.addr r.kind.opKind r.data { s.memc with wait := 0 } = .ok (true, d, m')) :
    finish K s =
      .next (({ (stall K s.memc.wait s).tick K with memc := m' }).commit K { r with data := d }).advance := by
  have hw : writebackStep K ((stall K s.memc.wait s).tick K) =
      .done (({ (stall K s.memc.wait s).tick K with memc := m' }).commit K { r with data := d }) := by
    have h1 : ((stall K s.memc.wait s).tick K).memc = { s.memc with wait := 0 } := by simp
    have h2 : ((stall K s.memc.wait s).tick K).instr = some r := by simp [hi]
    have h3 : ((stall K s.memc.wait s).tick K).params = s.params := by simp
    simp only [writebackStep, h2]
    rw [h3, h1, hp]
  simp only [finish, dataStalls, hn, Bool.false_eq_true, if_false, edge, hw]

/-! ## A step -/

/-- The machine's decoder refuses a word that `decode` refuses, and else gives its instruction's record (R98). -/
theorem referenceDecoder_eq (w : Word) : referenceDecoder w = (decode w).toOption.map Instr.toRecord := rfl

/-- What an instruction's word does is the same through the record (R98, R254): no record of the reference decoder is
malformed. -/
theorem runDecoded_eq (w : Word) (s : State) : runDecoded w s = runWord (Collaborators.reference s.params) w s := by
  unfold runDecoded runWord
  rw [reference_decoder, referenceDecoder_eq]
  cases decode w with
  | error x => rfl
  | ok i =>
    show exec i s = if i.toRecord.wellFormed then _ else _
    rw [if_pos (by cases i <;> rfl), exec_eq_runRecord]
    rfl

/-- What is delivered and how it ends (R233). -/
theorem deliver_next {run : Word → State ρ κ → Host.Outcome (State ρ κ) Fault Refusal} {s t : State ρ κ}
    (h : deliver K run s = .next t) :
    ∃ w, pollFetch s.params (stall K s.memc.wait s).memc = .ok (some w) ∧ run w (stall K s.memc.wait s) = .next t := by
  unfold deliver at h
  split at h
  · cases h
  · cases h
  · exact ⟨_, ‹_›, h⟩

/-- A delivered word whose run answers a next state (R233, R253, R254). -/
theorem runWord_next {w : Word} {s t : State ρ κ} (h : runWord K w s = .next t) :
    ∃ r, K.decoder w = some r ∧ r.wellFormed = true ∧ runRecordWith K r s = .next t := by
  unfold runWord at h
  split at h
  · cases h
  · split at h
    · exact ⟨_, ‹_›, ‹_›, h⟩
    · cases h

/-- The same of an instruction's word. -/
theorem runDecoded_next {w : Word} {s t : State} (h : runDecoded w s = .next t) :
    ∃ i, decode w = .ok i ∧ exec i s = .next t := by
  unfold runDecoded at h
  split at h
  · cases h
  · exact ⟨_, ‹_›, h⟩

/-- A step that answers a next state (R231). -/
theorem stepBy_next {run : Word → State ρ κ → Host.Outcome (State ρ κ) Fault Refusal} {s t : State ρ κ}
    (h : stepBy K run s = .next t) :
    s.fault = none ∧
    ((s.phase = .fetch ∧ ∃ u, fetchStep (s.tick K) = .done u ∧ deliver K run u.advance = .next t) ∨
     (s.phase = .decodeExecute ∧ deliver K run s = .next t) ∨
     (s.phase = .writeback ∧ finish K s = .next t)) := by
  unfold stepBy at h
  split at h
  · cases h
  · rename_i hf
    refine ⟨hf, ?_⟩
    split at h
    · rename_i hp
      split at h
      · cases h
      · obtain ⟨u, hu, rfl⟩ := edge_done ‹_›
        exact .inl ⟨hp, u, hu, h⟩
    · exact .inr (.inl ⟨‹_›, h⟩)
    · exact .inr (.inr ⟨‹_›, h⟩)

/-- A stopped machine stays stopped (R250). -/
theorem stepBy_stopped {run : Word → State ρ κ → Host.Outcome (State ρ κ) Fault Refusal} {s : State ρ κ} {f : Fault}
    (h : s.fault = some f) : stepBy K run s = .fault f := by
  simp [stepBy, h]

end Sys2Proof.Machine
end

