-- ==== Sys2Proof/Laws/Decode.lean ====
section
/-! SUPPORT. The fields of an encoded word: each field the decoder reads from a word that the encoder built is the part
the encoder put there. -/

namespace Sys2Proof

@[simp] theorem regOfBits_regBits (r : RegId) : regOfBits (regBits r) = r := rfl

@[simp] theorem regBits_regOfBits (b : BitVec 5) : regBits (regOfBits b) = b := rfl

/-- Bits `[lo + n - 1 : lo]` of `a ++ b`, when they all lie in `b`. -/
theorem extract_append_low {n m : Nat} (a : BitVec n) (b : BitVec m) (lo len : Nat) (h : lo + len ≤ m) :
    (a ++ b).extractLsb' lo len = b.extractLsb' lo len := by
  apply BitVec.eq_of_getLsbD_eq
  intro i hi
  simp only [BitVec.getLsbD_extractLsb', BitVec.getLsbD_append, hi, decide_true, Bool.true_and]
  rw [if_pos (by omega)]

/-- Bits `[lo + n - 1 : lo]` of `a ++ b`, when they all lie in `a`. -/
theorem extract_append_high {n m : Nat} (a : BitVec n) (b : BitVec m) (lo len : Nat) (h : m ≤ lo) :
    (a ++ b).extractLsb' lo len = a.extractLsb' (lo - m) len := by
  apply BitVec.eq_of_getLsbD_eq
  intro i hi
  simp only [BitVec.getLsbD_extractLsb', BitVec.getLsbD_append, hi, decide_true, Bool.true_and]
  rw [if_neg (by omega)]
  congr 1
  omega

/-- All the bits of a vector, as a field. -/
theorem extract_all {n : Nat} (a : BitVec n) : a.extractLsb' 0 n = a := by
  apply BitVec.eq_of_getLsbD_eq
  intro i hi
  simp [hi]

/-- The reference decoder never produces a malformed record (R83, R254). -/
theorem toRecord_wellFormed (i : Instr) : i.toRecord.wellFormed = true := by cases i <;> rfl

/-! ## Words of six fields -/

/-- A word laid out as funct7, rs2, rs1, funct3, rd, opcode (R88). -/
theorem fields_R (f7 : BitVec 7) (b2 b1 : BitVec 5) (f3 : BitVec 3) (d : BitVec 5) (op : BitVec 7) :
    let w : Word := (f7 ++ b2 ++ b1 ++ f3 ++ d ++ op : BitVec 32)
    fOpcode w = op ∧ fRd w = regOfBits d ∧ fFunct3 w = f3 ∧ fRs1 w = regOfBits b1 ∧ fRs2 w = regOfBits b2 ∧
      fFunct7 w = f7 := by
  refine ⟨?_, ?_, ?_, ?_, ?_, ?_⟩ <;> simp only [fOpcode, fRd, fFunct3, fRs1, fRs2, fFunct7] <;> try congr 1
  · exact (extract_append_low _ _ _ _ (by omega)).trans (extract_all _)
  · exact (extract_append_high _ _ _ _ (by omega)).trans
      ((extract_append_low _ _ _ _ (by omega)).trans (extract_all _))
  · exact (extract_append_high _ _ _ _ (by omega)).trans
      ((extract_append_high _ _ _ _ (by omega)).trans
        ((extract_append_low _ _ _ _ (by omega)).trans (extract_all _)))
  · exact (extract_append_high _ _ _ _ (by omega)).trans
      ((extract_append_high _ _ _ _ (by omega)).trans
        ((extract_append_high _ _ _ _ (by omega)).trans
          ((extract_append_low _ _ _ _ (by omega)).trans (extract_all _))))
  · exact (extract_append_high _ _ _ _ (by omega)).trans
      ((extract_append_high _ _ _ _ (by omega)).trans
        ((extract_append_high _ _ _ _ (by omega)).trans
          ((extract_append_high _ _ _ _ (by omega)).trans
            ((extract_append_low _ _ _ _ (by omega)).trans (extract_all _)))))
  · exact (extract_append_high _ _ _ _ (by omega)).trans
      ((extract_append_high _ _ _ _ (by omega)).trans
        ((extract_append_high _ _ _ _ (by omega)).trans
          ((extract_append_high _ _ _ _ (by omega)).trans
            ((extract_append_high _ _ _ _ (by omega)).trans (extract_all _)))))

end Sys2Proof
end

