-- ==== Sys2Proof/Laws/Edges.lean ====
section
/-! SUPPORT. Clock edges: which step an edge of each phase runs, polls that still wait, and runs of stall edges. -/

namespace Sys2Proof.Machine

variable {ρ κ : Type} {K : Collaborators ρ κ}

theorem cpuStep_fetch {s : State ρ κ} (h : s.phase = .fetch) :
    cpuStep K s = fetchStep s := by unfold cpuStep; rw [h]

theorem cpuStep_decodeExecute {s : State ρ κ} (h : s.phase = .decodeExecute) :
    cpuStep K s = decodeExecuteStep K s := by unfold cpuStep; rw [h]

theorem cpuStep_writeback {s : State ρ κ} (h : s.phase = .writeback) :
    cpuStep K s = writebackStep K s := by unfold cpuStep; rw [h]

/-- An edge whose step is done (R230). -/
theorem clockEdgeWith_done {s u : State ρ κ} (hr : s.fault = none)
    (h : cpuStep K (s.tick K) = .done u) : clockEdgeWith K s = u.advance := by
  unfold clockEdgeWith edge
  rw [hr, h]

/-- An edge whose step raises a fault: no memory advance (R230, R250). -/
theorem clockEdgeWith_raised {s u : State ρ κ} {f : Fault} (hr : s.fault = none)
    (h : cpuStep K (s.tick K) = .raised f u) : clockEdgeWith K s = u.raise f := by
  unfold clockEdgeWith edge
  rw [hr, h]

theorem clockEdgesWith_add (a b : Nat) (s : State ρ κ) :
    clockEdgesWith K (a + b) s = clockEdgesWith K b (clockEdgesWith K a s) := by
  induction a generalizing s with
  | zero => rw [Nat.zero_add]; rfl
  | succ a ih => rw [Nat.succ_add]; exact ih _

/-- `n` advances in one (R136, R156). -/
theorem advanceCycle_iterate (n : Nat) (m : MemComponent) :
    advanceCycle^[n] m = { m with wait := m.wait - n } := by
  induction n generalizing m with
  | zero => rfl
  | succ n ih =>
    rw [Function.iterate_succ_apply, ih]
    simp [advanceCycle, Nat.sub_sub, Nat.add_comm]

/-- A fetch poll while `wait` is not 0 (R133, R147). -/
theorem pollFetch_waiting {p : Params} {m : MemComponent} {a : Word} (h : m.fetchAddr = some a) (hw : 0 < m.wait) :
    pollFetch p m = .ok none := by
  simp [pollFetch, h, hw]

/-- A data poll while `wait` is not 0 (R135, R154). -/
theorem pollData_waiting {p : Params} {m : MemComponent} {a d : Word} {k : OpKind} (h : pollMatches a k m = true)
    (hn : m.noMem = false) (hw : 0 < m.wait) : pollData p a k d m = .ok (false, d, m) := by
  simp [pollData, h, hw, hn]

/-- The edges of the DecodeExecute phase whose poll is not ready are stall edges (R237). -/
theorem clockEdgesWith_decodeExecute_stall {s : State ρ κ} (hr : s.fault = none) (hp : s.phase = .decodeExecute)
    (ha : s.memc.fetchAddr ≠ none) {n : Nat} (hn : n ≤ s.memc.wait) : clockEdgesWith K n s = stall K n s := by
  induction n generalizing s with
  | zero => rfl
  | succ n ih =>
    obtain ⟨a, hf⟩ := Option.ne_none_iff_exists'.1 ha
    have h1 : clockEdgeWith K s = (s.tick K).advance := by
      apply clockEdgeWith_done hr
      rw [cpuStep_decodeExecute (show (s.tick K).phase = _ from hp)]
      unfold decodeExecuteStep
      rw [State.tick_memc, pollFetch_waiting hf (by omega)]
    show clockEdgesWith K n (clockEdgeWith K s) = stall K n (s.tick K).advance
    rw [h1]
    exact ih hr hp ha (by simp; omega)

/-- The edges of the Writeback phase whose poll is not ready are stall edges (R237). -/
theorem clockEdgesWith_writeback_stall {s : State ρ κ} {r : Record} (hr : s.fault = none) (hp : s.phase = .writeback)
    (hi : s.instr = some r) (hm : pollMatches r.addr r.kind.opKind s.memc = true) {n : Nat} (hn : n ≤ dataStalls s) :
    clockEdgesWith K n s = stall K n s := by
  induction n generalizing s with
  | zero => rfl
  | succ n ih =>
    have hnm : s.memc.noMem = false := by
      cases h : s.memc.noMem with
      | false => rfl
      | true => simp [dataStalls, h] at hn
    have hds : dataStalls s = s.memc.wait := by simp [dataStalls, hnm]
    have h1 : clockEdgeWith K s = (s.tick K).advance := by
      apply clockEdgeWith_done hr
      rw [cpuStep_writeback (show (s.tick K).phase = _ from hp)]
      unfold writebackStep
      rw [State.tick_instr, hi]
      simp only [State.tick_memc, pollData_waiting hm hnm (show 0 < s.memc.wait by omega)]
    show clockEdgesWith K n (clockEdgeWith K s) = stall K n (s.tick K).advance
    rw [h1]
    exact ih hr hp hi hm (by simp [dataStalls, hnm]; omega)

end Sys2Proof.Machine
end

