-- ==== Sys2Proof/Laws/PerInstr.lean ====
section
/-! SUPPORT. Statements made once for each instruction: the record of every instruction has the shape of its kind (R83,
R254: "the reference decoder never produces" a malformed one). -/

namespace Sys2Proof.Laws.RecordShape

/-- The record of an instruction is well formed. -/
def Statement (i : Instr) : Prop := i.toRecord.wellFormed = true

theorem add (rd rs1 rs2 : RegId) : Statement (.add rd rs1 rs2) := rfl
theorem sub (rd rs1 rs2 : RegId) : Statement (.sub rd rs1 rs2) := rfl
theorem sll (rd rs1 rs2 : RegId) : Statement (.sll rd rs1 rs2) := rfl
theorem slt (rd rs1 rs2 : RegId) : Statement (.slt rd rs1 rs2) := rfl
theorem sltu (rd rs1 rs2 : RegId) : Statement (.sltu rd rs1 rs2) := rfl
theorem xor (rd rs1 rs2 : RegId) : Statement (.xor rd rs1 rs2) := rfl
theorem srl (rd rs1 rs2 : RegId) : Statement (.srl rd rs1 rs2) := rfl
theorem sra (rd rs1 rs2 : RegId) : Statement (.sra rd rs1 rs2) := rfl
theorem or (rd rs1 rs2 : RegId) : Statement (.or rd rs1 rs2) := rfl
theorem and (rd rs1 rs2 : RegId) : Statement (.and rd rs1 rs2) := rfl
theorem addi (rd rs1 : RegId) (imm : Word) : Statement (.addi rd rs1 imm) := rfl
theorem slti (rd rs1 : RegId) (imm : Word) : Statement (.slti rd rs1 imm) := rfl
theorem sltiu (rd rs1 : RegId) (imm : Word) : Statement (.sltiu rd rs1 imm) := rfl
theorem xori (rd rs1 : RegId) (imm : Word) : Statement (.xori rd rs1 imm) := rfl
theorem ori (rd rs1 : RegId) (imm : Word) : Statement (.ori rd rs1 imm) := rfl
theorem andi (rd rs1 : RegId) (imm : Word) : Statement (.andi rd rs1 imm) := rfl
theorem slli (rd rs1 : RegId) (shamt : Word) : Statement (.slli rd rs1 shamt) := rfl
theorem srli (rd rs1 : RegId) (shamt : Word) : Statement (.srli rd rs1 shamt) := rfl
theorem srai (rd rs1 : RegId) (shamt : Word) : Statement (.srai rd rs1 shamt) := rfl
theorem lui (rd : RegId) (imm : Word) : Statement (.lui rd imm) := rfl
theorem auipc (rd : RegId) (imm : Word) : Statement (.auipc rd imm) := rfl
theorem jal (rd : RegId) (imm : Word) : Statement (.jal rd imm) := rfl
theorem jalr (rd rs1 : RegId) (imm : Word) : Statement (.jalr rd rs1 imm) := rfl
theorem beq (rs1 rs2 : RegId) (imm : Word) : Statement (.beq rs1 rs2 imm) := rfl
theorem bne (rs1 rs2 : RegId) (imm : Word) : Statement (.bne rs1 rs2 imm) := rfl
theorem blt (rs1 rs2 : RegId) (imm : Word) : Statement (.blt rs1 rs2 imm) := rfl
theorem bge (rs1 rs2 : RegId) (imm : Word) : Statement (.bge rs1 rs2 imm) := rfl
theorem bltu (rs1 rs2 : RegId) (imm : Word) : Statement (.bltu rs1 rs2 imm) := rfl
theorem bgeu (rs1 rs2 : RegId) (imm : Word) : Statement (.bgeu rs1 rs2 imm) := rfl
theorem lw (rd rs1 : RegId) (imm : Word) : Statement (.lw rd rs1 imm) := rfl
theorem sw (rs1 rs2 : RegId) (imm : Word) : Statement (.sw rs1 rs2 imm) := rfl
theorem csrrs (rd : RegId) (csr : CsrId) : Statement (.csrrs rd csr) := rfl
theorem csrrw (csr : CsrId) (rs1 : RegId) : Statement (.csrrw csr rs1) := rfl

end Sys2Proof.Laws.RecordShape
end

