-- ==== Sys2Proof/Tests/Slice0.lean ====
section
/-! SUPPORT. The model's own tests. Expected values are those of the rules' tables and of 95_test_vectors.md (named in
each section), or written out by hand from the encodings of 30_encoding.md; none is the model's own answer. -/

open Sys2Proof Sys2Proof.Machine Sys2Proof.Safety

namespace Sys2Proof.Tests

set_option maxRecDepth 10000

/-! ## Small states -/

/-- A state with some registers written. -/
def put (s : State) (l : List (RegId × Word)) : State := l.foldl (fun t e => { t with regs := t.regs.write e.1 e.2 }) s

/-- The register `r` after an instruction. -/
def regAfter (i : Instr) (s : State) (r : RegId) : Option Word :=
  match exec i s with
  | .next t => t.reg r
  | _ => none

/-- `ip` after an instruction. -/
def ipAfter (i : Instr) (s : State) : Option Word :=
  match exec i s with
  | .next t => some t.ip
  | _ => none

/-- A CSR after an instruction. -/
def csrAfter (i : Instr) (s : State) (c : CsrId) : Option Word :=
  match exec i s with
  | .next t => some (t.csr.read c)
  | _ => none

/-- A memory Word after an instruction. -/
def memAfter (i : Instr) (s : State) (w : Nat) : Option Word :=
  match exec i s with
  | .next t => some (t.memc.mem.word w)
  | _ => none

/-- The fault an instruction ends in. -/
def faultOf (i : Instr) (s : State) : Option Fault :=
  match exec i s with
  | .fault f => some f
  | _ => none

/-- The instruction a word decodes to. -/
def dec (w : Word) : Option Instr := (decode w).toOption

/-- The reset state at another `ip`. -/
def at' (ip : Word) : State := { State.reset with ip := ip }

/-- The reset state with one memory Word. -/
def memWord (w : Nat) (v : Word) : State :=
  { State.reset with memc := { State.reset.memc with mem := State.reset.memc.mem.setWord w v } }

/-! ## WellFormed: an ill-formed term for each check, refused -/

theorem smoke_imm12_above : (Instr.addi 1 0 2048).wellFormed = false := by decide
theorem smoke_imm12_below : (Instr.lw 1 0 (-2049)).wellFormed = false := by decide
theorem smoke_imm12_ends : (Instr.sw 1 0 2047).wellFormed = true ∧ (Instr.jalr 1 0 (-2048)).wellFormed = true := by
  decide
theorem smoke_imm13_above : (Instr.beq 1 2 4096).wellFormed = false := by decide
theorem smoke_imm13_odd : (Instr.bltu 1 2 3).wellFormed = false := by decide
theorem smoke_imm13_ends : (Instr.bge 1 2 4094).wellFormed = true ∧ (Instr.bgeu 1 2 (-4096)).wellFormed = true := by
  decide
theorem smoke_immUpper_low_bits : (Instr.lui 1 0x12345001).wellFormed = false := by decide
theorem smoke_immUpper_ends : (Instr.auipc 1 0xFFFFF000).wellFormed = true := by decide
theorem smoke_imm21_above : (Instr.jal 1 0x100000).wellFormed = false := by decide
theorem smoke_imm21_odd : (Instr.jal 1 5).wellFormed = false := by decide
theorem smoke_imm21_ends : (Instr.jal 1 0xFFFFE).wellFormed = true ∧ (Instr.jal 1 0xFFF00000).wellFormed = true := by
  decide
theorem smoke_shamt_above : (Instr.srai 1 2 32).wellFormed = false := by decide
theorem smoke_shamt_end : (Instr.slli 1 2 31).wellFormed = true := by decide

/-- R83, one ill-formed record for each kind. -/
theorem smoke_record_alu_no_rs1 : ({ kind := .alu, imm := some 1, rd := some 1 } : Record).wellFormed = false := by
  decide
theorem smoke_record_alu_rs2_and_imm :
    ({ kind := .alu, rs1 := some 1, rs2 := some 2, imm := some 1, rd := some 1 } : Record).wellFormed = false := by
  decide
theorem smoke_record_ld_no_rd : ({ kind := .ld, rs1 := some 1, imm := some 4 } : Record).wellFormed = false := by
  decide
theorem smoke_record_st_rd :
    ({ kind := .st, rs1 := some 1, rs2 := some 2, rd := some 3, imm := some 4 } : Record).wellFormed = false := by
  decide
theorem smoke_record_csrw_rd :
    ({ kind := .csrw, rs1 := some 1, rd := some 1, csr := some 1 } : Record).wellFormed = false := by decide
theorem smoke_record_csrr_rs1 :
    ({ kind := .csrr, rs1 := some 1, rd := some 1, csr := some 1 } : Record).wellFormed = false := by decide
theorem smoke_record_j_no_imm : ({ kind := .j, rd := some 1 } : Record).wellFormed = false := by decide
theorem smoke_record_br_no_rs2 : ({ kind := .br, rs1 := some 1, imm := some 4 } : Record).wellFormed = false := by
  decide
theorem smoke_record_jr_csr :
    ({ kind := .jr, rs1 := some 1, rd := some 1, imm := some 4, csr := some 1 } : Record).wellFormed = false := by
  decide
theorem smoke_record_auipc_rs1 :
    ({ kind := .auipc, rs1 := some 1, rd := some 1, imm := some 0 } : Record).wellFormed = false := by decide

/-! ## Decode: one word of each instruction, written out field by field from R88 and R98

The fields stand from bit 31 down, as in the rows of R88. -/

theorem decode_add : dec 0b0000000_00010_00001_000_00011_0110011 = some (.add 3 1 2) := by decide
theorem decode_sub : dec 0b0100000_00010_00001_000_00011_0110011 = some (.sub 3 1 2) := by decide
theorem decode_sll : dec 0b0000000_00010_00001_001_00011_0110011 = some (.sll 3 1 2) := by decide
theorem decode_slt : dec 0b0000000_00010_00001_010_00011_0110011 = some (.slt 3 1 2) := by decide
theorem decode_sltu : dec 0b0000000_00010_00001_011_00011_0110011 = some (.sltu 3 1 2) := by decide
theorem decode_xor : dec 0b0000000_11111_10000_100_01000_0110011 = some (.xor 8 16 31) := by decide
theorem decode_srl : dec 0b0000000_00010_00001_101_00011_0110011 = some (.srl 3 1 2) := by decide
theorem decode_sra : dec 0b0100000_00010_00001_101_00011_0110011 = some (.sra 3 1 2) := by decide
theorem decode_or : dec 0b0000000_00010_00001_110_00011_0110011 = some (.or 3 1 2) := by decide
theorem decode_and : dec 0b0000000_00010_00001_111_00011_0110011 = some (.and 3 1 2) := by decide
theorem decode_addi : dec 0b100000000000_00000_000_00001_0010011 = some (.addi 1 0 0xFFFFF800) := by decide
theorem decode_slti : dec 0b111111111111_00100_010_00101_0010011 = some (.slti 5 4 0xFFFFFFFF) := by decide
theorem decode_sltiu : dec 0b000000000001_00100_011_00101_0010011 = some (.sltiu 5 4 1) := by decide
theorem decode_xori : dec 0b011111111111_00100_100_00101_0010011 = some (.xori 5 4 0x7FF) := by decide
theorem decode_ori : dec 0b010101010101_00100_110_00101_0010011 = some (.ori 5 4 0x555) := by decide
theorem decode_andi : dec 0b101010101010_00100_111_00101_0010011 = some (.andi 5 4 0xFFFFFAAA) := by decide
theorem decode_slli : dec 0b0000000_11111_00010_001_00001_0010011 = some (.slli 1 2 31) := by decide
theorem decode_srli : dec 0b0000000_00100_00010_101_00001_0010011 = some (.srli 1 2 4) := by decide
theorem decode_srai : dec 0b0100000_00100_00010_101_00001_0010011 = some (.srai 1 2 4) := by decide
theorem decode_lui : dec 0b11111111111111111111_00101_0110111 = some (.lui 5 0xFFFFF000) := by decide
theorem decode_auipc : dec 0b00010010001101000101_00110_0010111 = some (.auipc 6 0x12345000) := by decide
/-- Imm 0x4A814: imm[20] 0, imm[10:1] 0000001010, imm[11] 1, imm[19:12] 01001010. -/
theorem decode_jal : dec 0b0_0000001010_1_01001010_00001_1101111 = some (.jal 1 0x4A814) := by decide
theorem decode_jalr : dec 0b111111111100_00101_000_00001_1100111 = some (.jalr 1 5 0xFFFFFFFC) := by decide
/-- Imm 0xA14: imm[12] 0, imm[10:5] 010000, imm[4:1] 1010, imm[11] 1. -/
theorem decode_beq : dec 0b0_010000_00010_00001_000_1010_1_1100011 = some (.beq 1 2 0xA14) := by decide
/-- Imm -8: imm[12] 1, imm[10:5] 111111, imm[4:1] 1100, imm[11] 1. -/
theorem decode_bne : dec 0b1_111111_00000_00001_001_1100_1_1100011 = some (.bne 1 0 0xFFFFFFF8) := by decide
theorem decode_blt : dec 0b1_111111_00010_00001_100_1110_1_1100011 = some (.blt 1 2 0xFFFFFFFC) := by decide
theorem decode_bge : dec 0b0_000000_00010_00001_101_0100_0_1100011 = some (.bge 1 2 8) := by decide
theorem decode_bltu : dec 0b0_111111_00010_00001_110_1111_1_1100011 = some (.bltu 1 2 4094) := by decide
theorem decode_bgeu : dec 0b1_000000_00010_00001_111_0000_0_1100011 = some (.bgeu 1 2 0xFFFFF000) := by decide
theorem decode_lw : dec 0b000001000000_00001_010_00100_0000011 = some (.lw 4 1 0x40) := by decide
/-- Imm -4: imm[11:5] 1111111, imm[4:0] 11100. -/
theorem decode_sw : dec 0b1111111_00010_00001_010_11100_0100011 = some (.sw 1 2 0xFFFFFFFC) := by decide
theorem decode_csrrs : dec 0b110000000000_00000_010_00101_1110011 = some (.csrrs 5 0xC00) := by decide
theorem decode_csrrw : dec 0b011110000000_00001_001_00000_1110011 = some (.csrrw 0x780 1) := by decide

/-- The host's numbering is the Word's own. -/
theorem decodeTableWord_add : decodeTableWord 32 0x002081B3 = some (.add 3 1 2) := by decide

/-! ## Arithmetic (V20 to V49) -/

theorem test_add_wraps : regAfter (.add 3 1 2) (put State.reset [(1, 0xFFFFFFFF), (2, 1)]) 3 = some 0 := by decide
theorem test_add_onto_source : regAfter (.add 1 1 1) (put State.reset [(1, 0x40000000)]) 1 = some 0x80000000 := by
  decide
theorem test_sub : regAfter (.sub 3 1 2) (put State.reset [(1, 5), (2, 7)]) 3 = some 0xFFFFFFFE := by decide
theorem test_sub_overflow : regAfter (.sub 3 1 2) (put State.reset [(1, 0x80000000), (2, 1)]) 3 = some 0x7FFFFFFF := by
  decide
theorem test_sll_masks_amount : regAfter (.sll 3 1 2) (put State.reset [(1, 1), (2, 0x20)]) 3 = some 1 := by decide
theorem test_sll_largest : regAfter (.sll 3 1 2) (put State.reset [(1, 1), (2, 0x1F)]) 3 = some 0x80000000 := by decide
theorem test_slt_extremes :
    regAfter (.slt 3 1 2) (put State.reset [(1, 0x80000000), (2, 0x7FFFFFFF)]) 3 = some 1 := by decide
theorem test_sltu_unsigned : regAfter (.sltu 3 1 2) (put State.reset [(1, 0xFFFFFFFF), (2, 0)]) 3 = some 0 := by decide
theorem test_xor :
    regAfter (.xor 3 1 2) (put State.reset [(1, 0xF0F0F0F0), (2, 0x0FF00FF0)]) 3 = some 0xFF00FF00 := by decide
theorem test_srl_masks_amount : regAfter (.srl 3 1 2) (put State.reset [(1, 0xFFFFFFFF), (2, 0x3F)]) 3 = some 1 := by
  decide
theorem test_sra_masks_amount :
    regAfter (.sra 3 1 2) (put State.reset [(1, 0x80000000), (2, 0x21)]) 3 = some 0xC0000000 := by decide
theorem test_sra_positive : regAfter (.sra 3 1 2) (put State.reset [(1, 0x7FFFFFFF), (2, 0x1F)]) 3 = some 0 := by
  decide
theorem test_or :
    regAfter (.or 3 1 2) (put State.reset [(1, 0xF0F0F0F0), (2, 0x0FF00FF0)]) 3 = some 0xFFF0FFF0 := by decide
theorem test_and :
    regAfter (.and 3 1 2) (put State.reset [(1, 0xF0F0F0F0), (2, 0x0FF00FF0)]) 3 = some 0x00F000F0 := by decide
theorem test_and_x0 : regAfter (.and 0 1 0) (put State.reset [(1, 0xFFFFFFFF)]) 0 = some 0 := by decide
theorem test_addi_smallest : regAfter (.addi 1 0 0xFFFFF800) State.reset 1 = some 0xFFFFF800 := by decide
theorem test_nop_ip : ipAfter (.addi 0 0 0) (at' 0xFFFFFFFC) = some 0 := by decide
theorem test_slti : regAfter (.slti 3 1 0) (put State.reset [(1, 0xFFFFFFFF)]) 3 = some 1 := by decide
theorem test_sltiu_is_zero : regAfter (.sltiu 3 1 1) State.reset 3 = some 1 := by decide
theorem test_sltiu_extended : regAfter (.sltiu 3 1 0xFFFFFFFF) (put State.reset [(1, 0x7FF)]) 3 = some 1 := by decide
theorem test_xori_not : regAfter (.xori 3 1 0xFFFFFFFF) (put State.reset [(1, 0x0F0F0F0F)]) 3 = some 0xF0F0F0F0 := by
  decide
theorem test_ori : regAfter (.ori 3 1 0x555) (put State.reset [(1, 0xA0)]) 3 = some 0x5F5 := by decide
theorem test_andi : regAfter (.andi 3 1 0xFFFFFFF0) (put State.reset [(1, 0x1234567F)]) 3 = some 0x12345670 := by decide
theorem test_slli : regAfter (.slli 1 2 31) (put State.reset [(2, 3)]) 1 = some 0x80000000 := by decide
theorem test_srli : regAfter (.srli 1 2 4) (put State.reset [(2, 0x80000000)]) 1 = some 0x08000000 := by decide
theorem test_srai : regAfter (.srai 1 2 4) (put State.reset [(2, 0x80000000)]) 1 = some 0xF8000000 := by decide
theorem test_lui : regAfter (.lui 1 0x12345000) State.reset 1 = some 0x12345000 := by decide
theorem test_auipc_wraps : regAfter (.auipc 2 0x2000) (at' 0xFFFFF000) 2 = some 0x1000 := by decide

/-! ## Control transfer (V50 to V69) -/

theorem test_jal_link : regAfter (.jal 1 0xFFFFFFF8) (at' 0x100) 1 = some 0x104 := by decide
theorem test_jal_target : ipAfter (.jal 1 0xFFFFFFF8) (at' 0x100) = some 0xF8 := by decide
theorem test_jalr_keeps_bit0 : ipAfter (.jalr 1 5 0xFFFFFFFC) (put (at' 0x40) [(5, 0x101)]) = some 0xFD := by decide
theorem test_jalr_onto_base :
    regAfter (.jalr 5 5 8) (put State.reset [(5, 0xFFFFFFFC)]) 5 = some 4 ∧
    ipAfter (.jalr 5 5 8) (put State.reset [(5, 0xFFFFFFFC)]) = some 4 := by decide
theorem test_beq_wraps : ipAfter (.beq 1 2 0xFFFFF000) (put (at' 0x200) [(1, 1), (2, 1)]) = some 0xFFFFF200 := by decide
theorem test_beq_not_taken : ipAfter (.beq 1 2 0x10) (put (at' 0x200) [(1, 1), (2, 2)]) = some 0x204 := by decide
theorem test_bne_taken : ipAfter (.bne 1 2 8) (put State.reset [(1, 5), (2, 6)]) = some 8 := by decide
theorem test_blt_signed : ipAfter (.blt 1 2 8) (put State.reset [(1, 0x80000000), (2, 0x7FFFFFFF)]) = some 8 := by
  decide
theorem test_bge_signed : ipAfter (.bge 1 2 8) (put State.reset [(1, 0), (2, 0xFFFFFFFF)]) = some 8 := by decide
theorem test_bge_equal : ipAfter (.bge 1 2 8) (put State.reset [(1, 3), (2, 3)]) = some 8 := by decide
theorem test_bltu_unsigned : ipAfter (.bltu 1 2 8) (put State.reset [(1, 0x80000000), (2, 0x7FFFFFFF)]) = some 4 := by
  decide
theorem test_bgeu_unsigned : ipAfter (.bgeu 1 2 8) (put State.reset [(1, 0), (2, 0xFFFFFFFF)]) = some 4 := by decide
theorem test_bgeu_equal : ipAfter (.bgeu 1 2 8) (put State.reset [(1, 3), (2, 3)]) = some 8 := by decide

/-! ## Loads, stores, CSRs (V95 to V104, V133) -/

theorem test_lw : regAfter (.lw 4 1 0x40) (put (memWord 0x410 7) [(1, 0x1000)]) 4 = some 7 := by decide
theorem test_lw_low_bits : regAfter (.lw 2 1 0) (put (memWord 0x400 9) [(1, 0x1001)]) 2 = some 9 := by decide
theorem test_sw : memAfter (.sw 1 2 0xFFFFFFFC) (put State.reset [(1, 0x104), (2, 5)]) 0x40 = some 5 := by decide
theorem test_sw_out_of_range : faultOf (.sw 1 2 0) (put State.reset [(1, 0x4000)]) = some (.addr 0x4000) := by decide
/-- The DecodeExecute edge of the instruction is edge 1 of a CSR file at reset. -/
theorem test_csrrs_cycle : regAfter (.csrrs 5 0xC00) State.reset 5 = some 1 := by decide
theorem test_csrrs_x0 : regAfter (.csrrs 0 0xC00) State.reset 0 = some 0 := by decide
theorem test_csrrw_instret : csrAfter (.csrrw 0xC02 1) (put State.reset [(1, 100)]) 0xC02 = some 101 := by decide
theorem test_csrrw_host :
    (match exec (.csrrw 0x780 1) (put State.reset [(1, 1)]) with
      | .next t => t.pendingHostMessage
      | _ => none) = some 1 := by decide

/-! ## A step, and the memory component -/

/-- A step from reset with one word placed: V40's word, with the 138 edges of V143. -/
def first (w : Nat) : Host.Outcome State Fault Refusal := step (State.reset.withFetchWord 32 w)

theorem test_step_first :
    (match first 0x80000093 with
      | .next t => decide (t.reg 1 = some 0xFFFFF800 ∧ t.ip = 4 ∧ t.csr.read 0xC00 = 138 ∧ t.csr.read 0xC02 = 1)
      | _ => false) = true := by decide

/-- V98, `lw x1, 0(x0)` at address 0, in the 273 edges of V145. -/
theorem test_step_load :
    (match first 0x00002083 with
      | .next t => decide (t.reg 1 = some 0x00002083 ∧ t.csr.read 0xC00 = 273)
      | _ => false) = true := by decide

/-- V113, ECALL. -/
theorem test_step_refused :
    (match first 0x00000073 with
      | .fault f => decide (f = .decode 0x00000073)
      | _ => false) = true := by decide

/-- V131. -/
theorem test_fetch_out_of_range : (clockEdge (at' 0x4000)).fault = some (.addr 0x4000) ∧
    (clockEdge (at' 0x4000)).phase = .fetch := by decide

/-- V132: a decoder that returns a record with no `rs1`. -/
theorem test_record_fault :
    (clockEdgeWith
      { Collaborators.reference Params.reference with
        decoder := fun _ => some { kind := .alu, imm := some 1, rd := some 1 } }
      { State.reset with
        params := { Params.reference with memModel := .uncached }, phase := .decodeExecute,
        memc := { State.reset.memc with front := .uncached, fetchAddr := some 0 } }).fault = some (.record 0) := by
  decide

/-- T4, on a cache of two lines: the least recently used tag is the one evicted. -/
def twoLines : MemComponent := MemComponent.create { Params.reference with icacheLines := 2, dcacheLines := 2 }

/-- Fetch requests one after the other. -/
def fetches (p : Params) : List Word → MemComponent → MemComponent
  | [], m => m
  | a :: l, m =>
    match requestFetch p a m with
    | .done m' => fetches p l m'
    | .raised _ m' => m'

/-- The instruction cache's recency list. -/
def icRecency (m : MemComponent) : List Nat :=
  match m.front with
  | .cached ic _ => ic.recency
  | .uncached => []

theorem test_lru : icRecency (fetches Params.reference [0x000, 0x040, 0x000, 0x080] twoLines) = [0x080, 0x000] := by
  decide

/-! ## Witnesses: for each obligation with hypotheses, concrete states and operands that meet all of them -/

/-- One-line caches, short latencies, two lines of memory. -/
def pC : Params :=
  { Params.reference with
    icacheLines := 1, dcacheLines := 1, lineLatency := 2, dhitPenalty := 1, uncachedLatency := 2, memBytes := 128 }

/-- The same core with the Uncached port. -/
def pU : Params := { pC with memModel := .uncached }

/-- `pC` with EVICT_ON_REACH and the capacities it needs. -/
def pE : Params := { pC with evictOnReach := true, icacheLines := 2, dcacheLines := 2 }

/-- `pC`, and a register that holds no value (REG_INIT of V130). -/
def pN : Params := { pC with regInit := pC.regInit.set 7 none }

theorem legal_params : Params.reference.Legal ∧ pC.Legal ∧ pU.Legal ∧ pE.Legal ∧ pN.Legal := by
  refine ⟨?_, ?_, ?_, ?_, ?_⟩ <;> decide

/-- The four cores at power-on. -/
def sC : State := State.powerOn pC
def sU : State := State.powerOn pU
def sN : State := State.powerOn pN

/-- A cache of one line, tag 0, of memory that reads 0. -/
def warm : Cache := { resident := [(0, fillLine [] 0)], recency := [0], capacity := 1 }

/-- The memory component of `pC` with both caches warm. -/
def mW : MemComponent := { MemComponent.create pC with front := .cached warm warm }

/-- The core with both caches warm. -/
def sW : State := { sC with memc := mW }

theorem cacheOk_empty {p : Params} (n : Nat) (h : p.evictOnReach = true → 0 < n) : CacheOk p (Cache.empty n) where
  sorted := List.Pairwise.nil
  nodup := List.Pairwise.nil
  same := fun t => Iff.rfl
  tags := fun t ht => absurd ht (by simp [Cache.empty, Assoc.keys])
  size := Nat.zero_le _
  reach := h

theorem memOk_create {p : Params} (h : p.Legal) : MemOk p (MemComponent.create p) where
  wf := rfl
  bound := fun e he => absurd he (by simp [MemComponent.create])
  front := by
    obtain ⟨h1, h2, h3, -⟩ := h
    unfold MemComponent.create Front.create
    cases hm : p.memModel with
    | uncached => exact hm
    | cached =>
      exact ⟨hm, rfl, rfl, cacheOk_empty _ (fun _ => h1), cacheOk_empty _ (fun _ => h2),
        fun e he => absurd he (by simp [Cache.empty])⟩

theorem cacheOk_warm : CacheOk pC warm where
  sorted := List.pairwise_singleton _ _
  nodup := by simp [warm]
  same := fun t => by simp [warm, Assoc.keys]
  tags := fun t ht => by simp [warm, Assoc.keys] at ht; subst ht; decide
  size := by decide
  reach := fun h => absurd h (by decide)

theorem memOk_warm : MemOk pC mW :=
  ⟨rfl, fun e he => absurd he (by simp [mW, MemComponent.create]), rfl, rfl, rfl, cacheOk_warm, cacheOk_warm,
    fun e he => by simp [warm] at he; subst he; rfl⟩

theorem inv_powerOn {p : Params} (h : p.Legal) : Inv (State.powerOn p) := ⟨h, rfl, memOk_create h, trivial⟩

/-- The invariant holds of reset, of the small cores and of the warm one. -/
theorem witness_inv : Inv State.reset ∧ Inv sC ∧ Inv sU ∧ Inv sN ∧ Inv sW :=
  ⟨inv_powerOn legal_params.1, inv_powerOn legal_params.2.1, inv_powerOn legal_params.2.2.1,
    inv_powerOn legal_params.2.2.2.2, legal_params.2.1, rfl, memOk_warm, trivial⟩

theorem witness_PowerOnState : pC.memModel = .cached ∧ pU.memModel = .uncached ∧ (7 : RegId) ≠ 0 := by decide

/-- Both cases of the first fetch after a reset: a miss from the cold core, a hit from the warm one. -/
theorem witness_CpuResetEffects :
    (∃ ic dc u, sC.memc.front = .cached ic dc ∧ Running sC ∧ fetchStep (sC.cpuReset 0) = .done u ∧
      tagOf 0 ∉ ic.recency) ∧
    (∃ ic dc u, sW.memc.front = .cached ic dc ∧ Running sW ∧ fetchStep (sW.cpuReset 0) = .done u ∧
      tagOf 0 ∈ ic.recency) :=
  ⟨⟨_, _, _, rfl, rfl, rfl, by decide⟩, ⟨_, _, _, rfl, rfl, rfl, by decide⟩⟩

/-- A segment at the end of memory with a file part and a zero part. -/
theorem witness_LoadedSegmentBytes :
    ∃ m', loadSegment 64 [] { paddr := 60, bytes := [1, 2], fileSize := 2, memSize := 4 } = .ok m' ∧
      Memory.wf [] = true := ⟨_, rfl, rfl⟩

theorem witness_PlacedWordIsFetched :
    MemOk sW.params sW.memc ∧ sW.ip.toNat < sW.params.memBytes ∧ sW.params.Legal ∧
    MemOk ({ sC with ip := 127 } : State).params sC.memc ∧ ({ sC with ip := 127 } : State).ip.toNat < pC.memBytes :=
  ⟨memOk_warm, by decide, legal_params.2.1, memOk_create legal_params.2.1, by decide⟩

theorem witness_DecodeEncodeRoundTrip :
    (Instr.addi 31 31 0xFFFFF800).wellFormed = true ∧ (Instr.beq 0 31 4094).wellFormed = true ∧
    (Instr.jal 0 0xFFF00000).wellFormed = true ∧ (Instr.srai 31 0 31).wellFormed = true ∧
    (Instr.lui 1 0xFFFFF000).wellFormed = true := by decide

theorem witness_EncodeDecodedWord : decode 0x00000013 = .ok (.addi 0 0 0) := by decide

/-- A register file in which register `i` holds no value any more. -/
def forget (f : RegFile) (i : RegId) : RegFile := { f with noValue := f.noValue.set i true }

/-- The reference collaborators of the small cores with caches and without. -/
def kC : Collaborators RegFile CsrFile := Collaborators.reference pC
def kU : Collaborators RegFile CsrFile := Collaborators.reference pU

/-- A core on the edge that decodes the word 0. -/
def sD : State := { sU with phase := .decodeExecute, memc := { sU.memc with fetchAddr := some 0 } }

theorem witness_RefusedWordFaults :
    Running sD ∧ sD.phase = .decodeExecute ∧ pollFetch sD.params sD.memc = .ok (some 0) ∧
    ∀ row ∈ decoderTable, (0 : Word) &&& row.mask ≠ row.bits := by
  refine ⟨rfl, rfl, rfl, ?_⟩
  decide

/-- The last address in range and the first out of it. -/
theorem witness_BackingStoreAccess : (127 : Word).toNat < 128 ∧ 128 ≤ (128 : Word).toNat := by decide

/-- An in-range address with low bits set, and a request of each side that is done. -/
theorem witness_LowAddressBitsIgnored :
    (127 : Word).toNat < pC.memBytes ∧ (∃ m', requestFetch pC 127 mW = .done m') ∧
    (∃ m', requestData pC 127 .store mW = .done m') ∧ ∃ m', requestData pC 127 .other mW = .done m' :=
  ⟨by decide, ⟨_, rfl⟩, ⟨_, rfl⟩, _, rfl⟩

/-- Each case of `wait` after a request: uncached, hit, miss, and kind Other. -/
theorem witness_WaitAfterRequest :
    (∃ m, requestFetch pU 0 sU.memc = .done m) ∧ (∃ m, requestFetch pC 127 mW = .done m) ∧
    (∃ m, requestFetch pC 63 mW = .done m) ∧ (∃ m, requestData pC 127 .load mW = .done m) ∧
    (∃ m, requestData pC 63 .store mW = .done m) ∧ (∃ m, requestData pU 127 .store sU.memc = .done m) ∧
    OpKind.load ≠ .other ∧ ∃ m, requestData pC 0xFFFFFFFF .other mW = .done m :=
  ⟨⟨_, rfl⟩, ⟨_, rfl⟩, ⟨_, rfl⟩, ⟨_, rfl⟩, ⟨_, rfl⟩, ⟨_, rfl⟩, by decide, ⟨_, rfl⟩⟩

theorem witness_UncachedLatencyExact : sU.memc.front = .uncached ∧ (127 : Word).toNat < pU.memBytes := ⟨rfl, by decide⟩

theorem witness_CachedFetchDelivers :
    pC.Legal ∧ MemOk pC mW ∧ (∃ ic dc, mW.front = .cached ic dc) ∧ (127 : Word).toNat < pC.memBytes :=
  ⟨legal_params.2.1, memOk_warm, ⟨_, _, rfl⟩, by decide⟩

theorem witness_FetchHitKeepsLine :
    ∃ ic dc ln m', mW.front = .cached ic dc ∧ tagOf 63 ∈ ic.recency ∧ ic.line? (tagOf 63) = some ln ∧
      requestFetch pC 63 mW = .done m' := ⟨_, _, _, _, rfl, by decide, rfl, rfl⟩

/-- Each of the three operations on a component with caches. -/
theorem witness_CachesAreIndependent :
    ∃ ic dc, mW.front = .cached ic dc ∧ (∃ m', requestFetch pC 64 mW = .done m') ∧
      (∃ m', requestData pC 64 .load mW = .done m') ∧
      ∃ b w m', pollData pC 0 .load 0 { mW with dataReq := some (0, .load) } = .ok (b, w, m') :=
  ⟨_, _, rfl, ⟨_, rfl⟩, ⟨_, rfl⟩, ⟨_, _, _, rfl⟩⟩

/-- Both caches full: of one line, and, with EVICT_ON_REACH, of one line in a capacity of two. -/
theorem witness_FullCacheMissEvictsTail :
    (∃ ic dc, pC.Legal ∧ MemOk pC mW ∧ mW.front = .cached ic dc ∧ (64 : Word).toNat < pC.memBytes ∧
      tagOf 64 ∉ ic.recency ∧ ic.resident.length = fullLines pC ic ∧ OpKind.load ≠ .other ∧
      tagOf 64 ∉ dc.recency ∧ dc.resident.length = fullLines pC dc) ∧
    warm.resident.length = fullLines pE { warm with capacity := 2 } :=
  ⟨⟨_, _, legal_params.2.1, memOk_warm, rfl, by decide, by decide, rfl, by decide, by decide, rfl⟩, rfl⟩

theorem witness_EvictionWritesWholeLine :
    ∃ ic dc dc' m' ln, CacheOk pC dc ∧ OpKind.load ≠ .other ∧ mW.front = .cached ic dc ∧
      requestData pC 64 .load mW = .done m' ∧ m'.front = .cached ic dc' ∧ dc.line? 0 = some ln ∧ dc'.line? 0 = none :=
  ⟨_, _, _, _, _, cacheOk_warm, by decide, rfl, rfl, rfl, rfl, rfl⟩

/-- Both sides of each equivalence occur, and a state of the second clause. -/
theorem witness_UnmatchedPollFaults :
    mW.fetchAddr = none ∧ sD.memc.fetchAddr ≠ none ∧ mW.dataReq = none ∧ Inv sC ∧ Running sC :=
  ⟨rfl, by decide, rfl, witness_inv.2.1, rfl⟩

theorem witness_StoreThenLoad :
    let m : MemComponent := { mW with dataReq := some (63, .store) }
    pC.Legal ∧ MemOk pC m ∧ m.noMem = false ∧ ∃ w m1, pollData pC 63 .store 5 m = .ok (true, w, m1) :=
  ⟨legal_params.2.1, ⟨memOk_warm.wf, memOk_warm.bound, memOk_warm.front⟩, rfl, _, _, rfl⟩

/-- The hypotheses of every clause: each operation done, a hit and a miss, the last address in range. -/
theorem witness_OperationsKeepCaches :
    pC.Legal ∧ MemOk pC mW ∧ (∃ m', requestFetch pC 0 mW = .done m') ∧ (∃ m', requestFetch pC 127 mW = .done m') ∧
    (∃ m', requestData pC 0 .store mW = .done m') ∧ (∃ m', requestData pC 127 .load mW = .done m') ∧
    (∃ b w m', pollData pC 0 .store 5 { mW with dataReq := some (0, .store) } = .ok (b, w, m')) ∧
    (127 : Word).toNat < pC.memBytes ∧ OpKind.load ≠ .other ∧
    ∃ ic dc, mW.front = .cached ic dc :=
  ⟨legal_params.2.1, memOk_warm, ⟨_, rfl⟩, ⟨_, rfl⟩, ⟨_, rfl⟩, ⟨_, rfl⟩, ⟨_, _, _, rfl⟩, by decide, by decide,
    _, _, rfl⟩

/-- A record of each kind. -/
theorem witness_ExecutorKinds :
    ∀ k : Kind, ({ kind := k, imm := some 4 } : Record).kind = k ∧ ({ kind := k, imm := some 4 } : Record).imm = some 4 :=
  fun _ => ⟨rfl, rfl⟩

/-- A stopped state, and an edge that faults. -/
theorem witness_StoppedModelStays :
    (sD.raise .poll).fault = some .poll ∧ Running sD ∧ (clockEdgeWith kU sD).fault ≠ none :=
  ⟨rfl, rfl, by decide⟩

/-- A fault of each phase that can fault. -/
theorem witness_FaultsArePrecise :
    (Inv ({ sC with ip := 128 } : State) ∧ Running { sC with ip := 128 } ∧
      (clockEdge { sC with ip := 128 }).fault = some (.addr 128)) ∧
    (Inv sD ∧ Running sD ∧ (clockEdge sD).fault = some (.decode 0)) :=
  ⟨⟨⟨legal_params.2.1, rfl, memOk_create legal_params.2.1, trivial⟩, rfl, by decide⟩,
    ⟨⟨legal_params.2.2.1, rfl,
      ⟨(memOk_create legal_params.2.2.1).wf, (memOk_create legal_params.2.2.1).bound,
        (memOk_create legal_params.2.2.1).front⟩, ⟨rfl, rfl, by decide, trivial⟩⟩, rfl, by decide⟩⟩

/-- A fault of each of the three kinds. -/
theorem witness_ControllerFaultKinds :
    (clockEdge { sC with ip := 128 }).fault = some (.addr 128) ∧ (clockEdge sD).fault = some (.decode 0) ∧
    (clockEdge { sD with
      memc := { sD.memc with mem := Memory.setWord [] 0 0x00038093 }
      regs := forget sD.regs 7 }).fault = some (.uninit 7) := by
  refine ⟨?_, ?_, ?_⟩ <;> decide

/-- `sD` with `x7` and `x8` holding no value, or `x8` alone. -/
def sD7 : State := { sD with regs := forget (forget sD.regs 7) 8 }
def sD8 : State := { sD with regs := forget sD.regs 8 }

/-- V131, V130 and the rest of the order: fetch; no row; no shape; first source; second source; address. -/
theorem witness_FaultPriority :
    (Running { sC with ip := 128 } ∧ ({ sC with ip := 128 } : State).phase = .fetch ∧
      pC.memBytes ≤ (128 : Word).toNat) ∧ Running sD ∧ sD.phase = .decodeExecute ∧ pollFetch sD.params sD.memc = .ok (some 0) ∧
    kU.decoder 0 = none ∧ ({ kind := .alu } : Record).wellFormed = false ∧
    (pollFetch sD7.params sD7.memc = .ok (some 0) ∧ (recAluReg .add 1 7 8).wellFormed = true ∧ kU.regs.read sD7.regs 7 = none) ∧
    (pollFetch sD8.params sD8.memc = .ok (some 0) ∧ kU.regs.read sD8.regs 7 ≠ none ∧ kU.regs.read sD8.regs 8 = none) ∧
    ((recLoad 1 0 128).wellFormed = true ∧ kU.regs.read sD.regs 0 ≠ none ∧
      ∃ r1, (sD.tick kU).readOperands kU (recLoad 1 0 128) = .ok r1 ∧
        sD.params.memBytes ≤ (execute r1 sD.ip).addr.toNat) := by
  refine ⟨⟨rfl, rfl, by decide⟩, rfl, rfl, rfl, by decide, by decide, ⟨rfl, by decide, by decide⟩, ⟨rfl, by decide, by decide⟩, by decide,
    by decide, _, rfl, by decide⟩

/-- A fetch that still waits, a load that still waits, and a Fetch edge that does not fault. -/
theorem witness_StallEdge :
    (Running sC ∧ sC.phase = .fetch ∧ (clockEdgeWith kC sC).fault = none) ∧
    (let s : State := { sD with memc := { sD.memc with wait := 1 } }
     Running s ∧ s.phase = .decodeExecute ∧ pollFetch s.params s.memc = .ok none) ∧
    (let r : Record := { kind := .ld, rs1 := some 0, rd := some 1, imm := some 0 }
     let s : State :=
       { sU with
         phase := .writeback, instr := some r
         memc := { sU.memc with wait := 1, dataReq := some (0, .load) } }
     Running s ∧ s.phase = .writeback ∧ s.instr = some r ∧
       ∃ d m, pollData s.params r.addr r.kind.opKind r.data s.memc = .ok (false, d, m)) :=
  ⟨⟨rfl, rfl, by decide⟩, ⟨rfl, rfl, rfl⟩, rfl, rfl, rfl, _, _, rfl⟩

/-- A Writeback edge that stalls, the one that completes a store, and the one that completes a CSR write. -/
theorem witness_WritebackEdge :
    (let r : Record := { kind := .st, rs1 := some 0, rs2 := some 0, imm := some 0 }
     let s : State :=
       { sU with
         phase := .writeback, instr := some r
         memc := { sU.memc with wait := 1, dataReq := some (0, .store) } }
     Running s ∧ s.phase = .writeback ∧ s.instr = some r ∧
       (∃ d m, pollData s.params r.addr r.kind.opKind r.data s.memc = .ok (false, d, m)) ∧
       ∃ d m, pollData s.params r.addr r.kind.opKind r.data { s.memc with wait := 0 } = .ok (true, d, m)) ∧
    (let r : Record := { kind := .csrw, rs1 := some 0, csr := some 5 }
     let s : State :=
       { sU with
         phase := .writeback, instr := some r
         memc := { sU.memc with dataReq := some (0, .other), noMem := true } }
     Running s ∧ s.phase = .writeback ∧ s.instr = some r ∧
       ∃ d m, pollData s.params r.addr r.kind.opKind r.data s.memc = .ok (true, d, m)) :=
  ⟨⟨rfl, rfl, rfl, ⟨_, _, rfl⟩, _, _, rfl⟩, rfl, rfl, rfl, _, _, rfl⟩

/-- The word of `addi x1, x0, 5` placed in the warm core: it fetches by a hit, and completes. -/
def sA : State := sW.withFetchWord 32 0x00500093

/-- A run that retires, and one that stops. -/
theorem witness_StepIsClockEdges :
    (Running sA ∧ ∃ t, stepWith kC sA = .next t) ∧ (Running sW ∧ ∃ f, stepWith kC sW = .fault f) :=
  ⟨⟨rfl, _, rfl⟩, rfl, _, rfl⟩

/-- Placing a word keeps the cores in order (what the obligation PlacedWordIsFetched says for all, here of two states). -/
theorem inv_sA : Inv sA where
  legal := legal_params.2.1
  csr := rfl
  mem := {
    wf := by decide
    bound := by decide
    front :=
      ⟨rfl, rfl, rfl, cacheOk_warm.storeWord (t := 0) rfl, cacheOk_warm.storeWord (t := 0) rfl,
        memOk_warm.front.2.2.2.2.2.store (a := 0) (d := 0x00500093) cacheOk_warm rfl⟩ }
  phase := trivial

theorem witness_EdgesPerInstruction :
    Inv sA ∧ Running sA ∧ sA.phase = .fetch ∧ sA.memc.wait = 0 ∧
    decode (fetchedWord sA) = .ok (.addi 1 0 5) ∧ ∃ t, step sA = .next t :=
  ⟨inv_sA, rfl, rfl, rfl, by decide, _, rfl⟩

theorem witness_ControllerNeverHangs : Running sC ∧ Running sD := ⟨rfl, rfl⟩

/-- A fetched word that decodes, and one that does not. -/
theorem witness_StepRunsDecoded :
    (Inv sA ∧ Running sA ∧ sA.phase = .fetch ∧ sA.ip.toNat < sA.params.memBytes ∧
      decode (fetchedWord sA) = .ok (.addi 1 0 5)) ∧
    (Inv sW ∧ Running sW ∧ sW.phase = .fetch ∧ sW.ip.toNat < sW.params.memBytes ∧
      decode (fetchedWord sW) = .error .compressedSpace) ∧ sU.memc.front = .uncached :=
  ⟨⟨inv_sA, rfl, rfl, by decide, by decide⟩, ⟨witness_inv.2.2.2.2, rfl, rfl, by decide, by decide⟩, rfl⟩

/-- The image of `lw x1, 0(x0)`. -/
def image : List Segment := [{ paddr := 0, bytes := [0x83, 0x20, 0x00, 0x00], fileSize := 4, memSize := 64 }]

/-- The core booted from it. -/
def sB : State := { sC with memc := { sC.memc with mem := [(0, 0x83), (1, 0x20)] } }

theorem boot_image : boot pC image = .ok sB := by decide

theorem witness_BootGivesInv : pC.Legal ∧ pU.Legal ∧ pE.Legal ∧ ∃ s, boot pC image = .ok s :=
  ⟨legal_params.2.1, legal_params.2.2.1, legal_params.2.2.2.1, _, boot_image⟩

theorem witness_InvKeptByClockEdge : Inv sC := witness_inv.2.1

theorem witness_InvKeptByStep : Inv sA ∧ ∃ t, step sA = .next t := ⟨inv_sA, _, rfl⟩

/-- After four edges of the load the data line of tag 0 is resident. -/
theorem witness_DataCacheCoherent :
    ∃ s ic dc ln, Reachable s ∧ s.memc.front = .cached ic dc ∧ dc.line? 0 = some ln :=
  ⟨clockEdges 4 sB, _, _, _, .edge (.edge (.edge (.edge (.boot legal_params.2.1 boot_image)))), rfl, rfl⟩

theorem witness_SafeRunKeepsInv :
    Inv sA ∧ Running sA ∧ sA.phase = .fetch ∧ ∃ t, Host.Core.run Sys2Proof.core 1 sA = .next t :=
  ⟨inv_sA, rfl, rfl, _, rfl⟩

/-- The hypotheses of the results: a running core with legal parameters, its memory in order, source registers that hold
values, an address in range (here the last Word) and one out of range (the first). -/
theorem witness_results :
    Running sC ∧ sC.params.Legal ∧ MemOk sC.params sC.memc ∧ sC.reg 1 = some 0 ∧ sC.reg 2 = some 0 ∧
    (0 + 127 : Word).toNat < sC.params.memBytes ∧ sC.params.memBytes ≤ (0 + 128 : Word).toNat :=
  ⟨rfl, legal_params.2.1, memOk_create legal_params.2.1, by decide, by decide, by decide, by decide⟩

theorem witness_RegisterAluResults : Running sC ∧ sC.params.Legal ∧ sC.reg 1 = some 0 ∧ sC.reg 0 = some 0 :=
  ⟨rfl, legal_params.2.1, by decide, by decide⟩

theorem witness_ImmediateAluResults : Running sC ∧ sC.params.Legal ∧ sC.reg 1 = some 0 :=
  ⟨rfl, legal_params.2.1, by decide⟩

theorem witness_LuiAlwaysCompletes : Running sN ∧ sN.params.Legal := ⟨rfl, legal_params.2.2.2.2⟩

theorem witness_BranchResults : Running sC ∧ sC.params.Legal ∧ sC.reg 1 = some 0 ∧ sC.reg 2 = some 0 :=
  ⟨rfl, legal_params.2.1, by decide, by decide⟩

theorem witness_JumpResults : Running sC ∧ sC.params.Legal ∧ sC.reg 5 = some 0 :=
  ⟨rfl, legal_params.2.1, by decide⟩

/-- A miss, a hit and the Uncached port. -/
theorem witness_LoadResult :
    (Running sC ∧ sC.params.Legal ∧ MemOk sC.params sC.memc ∧ sC.reg 1 = some 0 ∧
      (0 + 127 : Word).toNat < sC.params.memBytes) ∧
    (Running sW ∧ MemOk sW.params sW.memc ∧ sW.reg 1 = some 0 ∧ (0 + 63 : Word).toNat < sW.params.memBytes) ∧
    (Running sU ∧ sU.params.Legal ∧ MemOk sU.params sU.memc ∧ sU.reg 1 = some 0 ∧ sU.memc.front = .uncached) :=
  ⟨⟨rfl, legal_params.2.1, memOk_create legal_params.2.1, by decide, by decide⟩, ⟨rfl, memOk_warm, by decide, by decide⟩,
    rfl, legal_params.2.2.1, memOk_create legal_params.2.2.1, by decide, rfl⟩

theorem witness_StoreResult :
    (Running sC ∧ sC.params.Legal ∧ MemOk sC.params sC.memc ∧ sC.reg 1 = some 0 ∧ sC.reg 2 = some 0 ∧
      (0 + 127 : Word).toNat < sC.params.memBytes) ∧ sU.memc.front = .uncached :=
  ⟨⟨rfl, legal_params.2.1, memOk_create legal_params.2.1, by decide, by decide, by decide⟩, rfl⟩

theorem witness_CsrReadResult : Running sC ∧ sC.params.Legal := ⟨rfl, legal_params.2.1⟩

/-- Each CSR the clauses tell apart, and values of the host message's two cases. -/
theorem witness_CsrWriteResult :
    Running sC ∧ sC.params.Legal ∧ sC.reg 1 = some 0 ∧ (put sC [(1, 7)]).reg 1 = some 7 ∧
    pC.cycleCsr ≠ pC.instretCsr ∧ pC.hostCsr ≠ pC.cycleCsr ∧ pC.hostCsr ≠ pC.instretCsr :=
  ⟨rfl, legal_params.2.1, by decide⟩

/-- A first source that holds no value, and a second alone that holds none. -/
theorem witness_UnsetSourceFaults : Running sN ∧ sN.reg 7 = none ∧ sN.reg 1 ≠ none := ⟨rfl, by decide, by decide⟩

theorem witness_OutOfRangeAccessFaults :
    Running sC ∧ sC.reg 1 = some 0 ∧ sC.params.memBytes ≤ (0 + 128 : Word).toNat ∧ sC.reg 2 = some 0 :=
  ⟨rfl, by decide, by decide, by decide⟩

theorem witness_ExecStopsOnlyAsSpecified : Running sN ∧ sN.params.Legal ∧ MemOk sN.params sN.memc :=
  ⟨rfl, legal_params.2.2.2.2, memOk_create legal_params.2.2.2.2⟩

/-- An instruction of each shape that retires: with a destination, a store, a CSR write. -/
theorem witness_OnlyDestinationChanges :
    (∃ t, exec (.lw 1 0 127) sC = .next t) ∧ (∃ t, exec (.sw 0 0 127) sC = .next t) ∧
    ∃ t, exec (.csrrw 1 0) sC = .next t := ⟨⟨_, rfl⟩, ⟨_, rfl⟩, ⟨_, rfl⟩⟩

theorem witness_OnlyStoreChangesMemory :
    sW.params.Legal ∧ MemOk sW.params sW.memc ∧ (∃ t, exec (.lw 1 0 127) sW = .next t) ∧
    ∀ rs1 rs2 imm, Instr.lw 1 0 127 ≠ .sw rs1 rs2 imm :=
  ⟨legal_params.2.1, memOk_warm, ⟨_, rfl⟩, fun _ _ _ => by simp⟩

theorem witness_OnlyCsrWriteChangesCsrs :
    sC.params.Legal ∧ (∃ t, exec (.csrrs 1 0xC00) sC = .next t) ∧ (∃ t, exec (.lw 1 0 127) sC = .next t) ∧
    ∀ c rs1, Instr.csrrs 1 0xC00 ≠ .csrrw c rs1 ∧ Instr.lw 1 0 127 ≠ .csrrw c rs1 :=
  ⟨legal_params.2.1, ⟨_, rfl⟩, ⟨_, rfl⟩, fun _ _ => by simp⟩

/-- The two cores of one memory, with an instruction that retires and one that stops. -/
theorem witness_CachesInvisibleButForTime :
    sC.params.Legal ∧ sC.params.memModel = .cached ∧ MemOk sC.params sC.memc ∧
    sU.params = { sC.params with memModel := .uncached } ∧ MemOk sU.params sU.memc ∧ sU.memc.mem = sC.memc.mem ∧
    sU.ip = sC.ip ∧ KeepsRegs sC sU ∧ sU.csr = sC.csr ∧ Running sC ∧ Running sU ∧
    (∃ t, exec (.sw 0 0 127) sC = .next t) ∧ ∃ f, exec (.sw 0 0 128) sC = .fault f :=
  ⟨legal_params.2.1, rfl, memOk_create legal_params.2.1, rfl, memOk_create legal_params.2.2.1, rfl, rfl, fun _ => rfl,
    rfl, rfl, rfl, ⟨_, rfl⟩, ⟨_, rfl⟩⟩

/-- The reference CSR file beside a count of the CPU resets, which no read shows: a file with a state of its own. -/
def countingFile : ControlFile (CsrFile × Nat) where
  launch := (kC.csrs.launch, 0)
  read := fun f => kC.csrs.read f.1
  write := fun f c v => (kC.csrs.write f.1 c v, f.2)
  clockTick := fun f => (kC.csrs.clockTick f.1, f.2)
  instructionRetired := fun f => (kC.csrs.instructionRetired f.1, f.2)
  reset := fun f => (kC.csrs.reset f.1, f.2 + 1)
  getPendingHostMessage := fun f => kC.csrs.getPendingHostMessage f.1

/-- A core on its ready DecodeExecute edge, with that CSR file and a decoder that gives one record. -/
def kN (r : Record) : Collaborators RegFile (CsrFile × Nat) := { kU with csrs := countingFile, decoder := fun _ => some r }
def sK : State RegFile (CsrFile × Nat) := { sD with csr := (sD.csr, 7) }

/-- A record of each shape: two sources, a CSR, a load and a store of the last Word, with their requests done. -/
theorem witness_DecodeExecuteEdge :
    (Running sK ∧ sK.phase = .decodeExecute ∧ pollFetch sK.params sK.memc = .ok (some 0)) ∧
    ∀ r ∈ [recAluReg .add 1 2 3, recCsrRead 1 0xC00, recLoad 1 2 127, recStore 2 3 127],
      (kN r).decoder 0 = some r ∧ r.wellFormed = true ∧
      (r.rs1 ≠ none → (kN r).regs.read sK.regs 2 = some 0) ∧ (r.rs2 ≠ none → (kN r).regs.read sK.regs 3 = some 0) ∧
      (r.csr ≠ none → 1 = (kN r).csrs.read ((kN r).csrs.clockTick sK.csr) 0xC00) ∧
      ∃ m, requestData sK.params (execute { r with csrVal := if r.csr = none then 0 else 1 } sK.ip).addr r.kind.opKind
        sK.memc = .done m := by
  refine ⟨⟨rfl, rfl, rfl⟩, fun r hr => ?_⟩
  simp only [List.mem_cons, List.not_mem_nil, or_false] at hr
  obtain rfl | rfl | rfl | rfl := hr
  all_goals exact ⟨rfl, rfl, fun _ => by decide, fun _ => by decide, fun _ => by decide, _, rfl⟩

/-! ## The loader's reading of an image (R66, R67) -/

/-- A loader that takes any bytes as one segment at 0. -/
def flatImage (bytes : List Byte) : Except LoadError (List Segment) :=
  .ok [{ paddr := 0, bytes := bytes, fileSize := bytes.length, memSize := bytes.length }]

theorem test_boot_flat_image : bootWith kC flatImage pC [0x83, 0x20, 0x00, 0x00] = .ok sB := by decide
theorem test_boot_bad_magic : bootWith kC (fun _ => .error .badMagic) pC [] = .error .badMagic := rfl

end Sys2Proof.Tests
end

section
/-! PROOF. A load after a completed store of the same address (R70): what a ready store leaves, a request of a resident
line, and the poll of a load whose wait is over. -/

namespace Sys2Proof

open Machine Safety

/-- A tag with a line is in the recency list. -/
theorem Safety.CacheOk.mem_recency_of_line {p : Params} {c : Cache} (h : CacheOk p c) {t : Nat} {ln : Line}
    (hl : c.line? t = some ln) : t ∈ c.recency := by
  by_contra ht
  simp [h.line_of_miss ht] at hl

/-- The slot of an address in range lies whole below MEM_BYTES (R12). -/
theorem Safety.slot_inRange {p : Params} (hp : p.Legal) {a : Word} (ha : a.toNat < p.memBytes) :
    4 * wordIndex a + 4 ≤ p.memBytes := by
  obtain ⟨-, -, -, hmod, -⟩ := hp
  unfold lineBytes at hmod
  rw [wordIndex_eq]
  omega

/-- A ready store keeps the component in order (R157). -/
theorem Safety.MemOk.completeStore {p : Params} (hp : p.Legal) {m m' : MemComponent} (h : MemOk p m) {a d : Word}
    (hs : completeStore p a d m = .ok m') : MemOk p m' := by
  obtain ⟨ha, hcase⟩ := completeStore_ok hs
  have hwf := Memory.wf_setWord h.wf (wordIndex a) d
  have hbound := Memory.bound_setWord (v := d) h.bound (slot_inRange hp ha)
  have hfront := h.front
  obtain ⟨hf, rfl⟩ | ⟨ic, dc, ln, hf, hl, rfl⟩ := hcase <;> rw [hf] at hfront
  · exact ⟨hwf, hbound, by rw [hf]; exact hfront⟩
  · obtain ⟨hmodel, hicap, hdcap, hic, hdc, hcoh⟩ := hfront
    exact ⟨hwf, hbound, hmodel, hicap, hdcap, hic, hdc.storeWord hl, hcoh.store hdc hl⟩

/-- A ready load of a resident line (R155). -/
theorem Machine.completeLoad_cached {p : Params} {m : MemComponent} {a : Word} {ic dc : Cache} {ln : Line}
    (hf : m.front = .cached ic dc) (hl : dc.line? (tagOf a) = some ln) :
    completeLoad p a m = .ok ln[lineOffset a] := by
  unfold completeLoad
  rw [hf]
  simp only [hl]

/-- A ready store leaves its Word in the BackingStore (R135, R155). -/
theorem Machine.completeStore_word {p : Params} {a d : Word} {m m' : MemComponent}
    (h : completeStore p a d m = .ok m') : m'.mem.word (wordIndex a) = d := by
  obtain ⟨-, ⟨-, rfl⟩ | ⟨_, _, _, -, -, rfl⟩⟩ := completeStore_ok h <;>
    exact (Memory.word_setWord ..).trans (if_pos rfl)

/-- What a ready store wrote is what a ready load reads, from the line or from the BackingStore (R135, R155). -/
theorem Machine.completeLoad_of_completeStore {p : Params} {a d : Word} {m m' : MemComponent}
    (h : completeStore p a d m = .ok m') : completeLoad p a m' = .ok d := by
  have hword := completeStore_word h
  obtain ⟨ha, ⟨hf, rfl⟩ | ⟨_, _, _, -, -, rfl⟩⟩ := completeStore_ok h
  · simp only at hword
    simp [completeLoad, hf, backingRead, hword, ha]
  · rw [completeLoad_cached rfl ((Cache.storeWord_line? ..).trans (if_pos rfl))]
    simp

/-- A ready load depends on nothing but the BackingStore and the caches. -/
theorem Machine.completeLoad_congr {p : Params} {a : Word} {m n : MemComponent} (hmem : n.mem = m.mem)
    (hfront : n.front = m.front) : completeLoad p a n = completeLoad p a m := by
  unfold completeLoad
  rw [hmem, hfront]

/-- A load request of an address whose Word the component can already give is accepted, and the component can still
give that Word: the Uncached port keeps its memory, and the resident line is a hit (R134, R150). -/
theorem Safety.MemOk.requestLoad {p : Params} {m : MemComponent} (h : MemOk p m) {a v : Word}
    (ha : a.toNat < p.memBytes) (hv : completeLoad p a m = .ok v) :
    ∃ m', requestData p a .load m = .done m' ∧ m'.dataReq = some (a, .load) ∧ m'.noMem = false ∧
      completeLoad p a m' = .ok v := by
  have ha' : ¬p.memBytes ≤ a.toNat := Nat.not_le.2 ha
  obtain ⟨hf, -, -⟩ | ⟨ic, dc, ln, hf, hl, rfl⟩ := completeLoad_ok hv
  · refine ⟨{ m with dataReq := some (a, .load), noMem := false, wait := p.uncachedLatency }, ?_, rfl, rfl,
      (completeLoad_congr rfl rfl).trans hv⟩
    simp [requestData, requestDataU, hf, ha']
  · have hfront := h.front
    rw [hf] at hfront
    obtain ⟨-, -, -, -, hdc, -⟩ := hfront
    have hhit : dc.hit (tagOf a) = true := Cache.hit_iff.2 (hdc.mem_recency_of_line hl)
    refine ⟨{ m with
        dataReq := some (a, .load), noMem := false, wait := m.wait + p.dhitPenalty,
        front := .cached ic ((dc.remove (tagOf a)).pushFront (tagOf a)) }, ?_, rfl, rfl, ?_⟩
    · simp [requestData, requestDataC, hf, ha', hhit]
    · exact completeLoad_cached rfl hl

/-- The poll of the latched load when `wait` is 0 (R131, R135, R155). -/
theorem Machine.pollData_load_ready {p : Params} {a v : Word} {m : MemComponent} (hreq : m.dataReq = some (a, .load))
    (hno : m.noMem = false) (hw : m.wait = 0) (hv : completeLoad p a m = .ok v) (x : Word) :
    pollData p a .load x m = .ok (true, v, m) := by
  have hmatch : pollMatches a .load m = true := pollMatches_iff.2 ⟨a, hreq, .inr rfl⟩
  simp [pollData, hmatch, hno, hw, hv, Except.map]

/-- After `wait` advances the poll of the latched load is ready and changes nothing (R131, R135, R155). -/
theorem Machine.pollData_load_afterWait {p : Params} {a v : Word} {m : MemComponent}
    (hreq : m.dataReq = some (a, .load)) (hno : m.noMem = false) (hv : completeLoad p a m = .ok v) (x : Word) :
    pollData p a .load x (advanceCycle^[m.wait] m) = .ok (true, v, advanceCycle^[m.wait] m) := by
  rw [advanceCycle_iterate]
  exact pollData_load_ready (m := { m with wait := m.wait - m.wait }) hreq hno (Nat.sub_self _)
    ((completeLoad_congr rfl rfl).trans hv) x

/-- A ready store poll without the no-memory flag completed the store (R135, R155). -/
theorem Machine.completeStore_of_pollData {p : Params} {a d w : Word} {m m' : MemComponent} (hno : m.noMem = false)
    (h : pollData p a .store d m = .ok (true, w, m')) : completeStore p a d m = .ok m' := by
  obtain ⟨-, ⟨hyes, -, -⟩ | ⟨-, -, hk, -, -⟩ | ⟨-, -, -, -, hs⟩⟩ := pollData_ready h
  · rw [hno] at hyes; cases hyes
  · cases hk
  · exact hs

/-- Settles O22: the store leaves its Word where a load reads it, and the load's request is a hit or uncached, so that
it moves no Word before the poll. -/
theorem storeThenLoad : Obligations.StoreThenLoad := by
  intro p m m1 a d w hp hm hno hpoll
  have hs := completeStore_of_pollData hno hpoll
  obtain ⟨ha, -⟩ := completeStore_ok hs
  obtain ⟨m2, hreq, hlatch, hflag, hload⟩ := (hm.completeStore hp hs).requestLoad ha (completeLoad_of_completeStore hs)
  exact ⟨completeStore_word hs, m2, hreq, pollData_load_afterWait hlatch hflag hload⟩

end Sys2Proof
end

section
/-! PROOF. The Cache Engine (41_cache_engine.md): a fetch hit (R148), the independence of the two caches (R158) and the
write-back of an evicted data line (R153). The requests and polls come first, each with one equation per case. -/

namespace Sys2Proof

open Machine Safety

/-! ## Requests and polls, by their cases -/

section
variable {p : Params} {m : MemComponent} {a : Word} {ic dc : Cache}

/-- A fetch request that hits (R146). -/
theorem Machine.requestFetch_hit (hf : m.front = .cached ic dc) (ha : a.toNat < p.memBytes)
    (hhit : ic.hit (tagOf a) = true) :
    requestFetch p a m =
      .done { m with fetchAddr := some a, front := .cached ((ic.remove (tagOf a)).pushFront (tagOf a)) dc } := by
  simp [requestFetch, requestFetchC, hf, Nat.not_le.2 ha, hhit]

/-- A fetch request that misses (R146). -/
theorem Machine.requestFetch_miss {ic' : Cache} {o : Option (Nat × Line)} (hf : m.front = .cached ic dc)
    (ha : a.toNat < p.memBytes) (hmiss : ic.hit (tagOf a) = false)
    (hal : ic.allocate p.evictOnReach (tagOf a) (fillLine m.mem (tagOf a)) = some (ic', o)) :
    requestFetch p a m =
      .done { m with
        fetchAddr := some a, wait := p.lineLatency, front := .cached (ic'.pushFront (tagOf a)) dc } := by
  simp [requestFetch, requestFetchC, hf, Nat.not_le.2 ha, hmiss, hal]

/-- A load or store request on the caches is the Cache Engine's (R130, R150). -/
theorem Machine.requestData_cached {k : OpKind} (hk : k ≠ .other) (hf : m.front = .cached ic dc) :
    requestData p a k m = requestDataC p a k m ic dc := by
  cases k with
  | load => simp [requestData, hf]
  | store => simp [requestData, hf]
  | other => exact absurd rfl hk

/-- A load or store request that hits (R150). -/
theorem Machine.requestData_hit {k : OpKind} (hk : k ≠ .other) (hf : m.front = .cached ic dc)
    (ha : a.toNat < p.memBytes) (hhit : dc.hit (tagOf a) = true) :
    requestData p a k m =
      .done { m with
        dataReq := some (a, k), noMem := false, wait := m.wait + p.dhitPenalty,
        front := .cached ic ((dc.remove (tagOf a)).pushFront (tagOf a)) } := by
  rw [requestData_cached hk hf]
  simp [requestDataC, Nat.not_le.2 ha, hhit]

/-- A load or store request that misses (R150, R151). -/
theorem Machine.requestData_miss {k : OpKind} {dc' : Cache} {o : Option (Nat × Line)} (hk : k ≠ .other)
    (hf : m.front = .cached ic dc) (ha : a.toNat < p.memBytes) (hmiss : dc.hit (tagOf a) = false)
    (hal : dc.allocate p.evictOnReach (tagOf a) (fillLine m.mem (tagOf a)) = some (dc', o)) :
    requestData p a k m =
      .done { m with
        dataReq := some (a, k), noMem := false, mem := writeBackVictim m.mem o, wait := p.lineLatency,
        front := .cached ic (dc'.pushFront (tagOf a)) } := by
  rw [requestData_cached hk hf]
  simp [requestDataC, Nat.not_le.2 ha, hmiss, hal]

/-- A ready fetch poll of a resident line (R147). -/
theorem Machine.pollFetch_resident {ln : Line} (hreq : m.fetchAddr = some a) (hw : m.wait = 0)
    (hf : m.front = .cached ic dc) (hl : ic.line? (tagOf a) = some ln) :
    pollFetch p m = .ok (some ln[lineOffset a]) := by
  simp [pollFetch, hreq, hw, hf, hl]

/-- A ready store to a resident line (R155). -/
theorem Machine.completeStore_cached {d : Word} {ln : Line} (hf : m.front = .cached ic dc) (ha : a.toNat < p.memBytes)
    (hl : dc.line? (tagOf a) = some ln) :
    completeStore p a d m =
      .ok { m with
        mem := m.mem.setWord (wordIndex a) d
        front := .cached ic (dc.storeWord (tagOf a) ln (lineOffset a) d) } := by
  simp [completeStore, backingWrite, hf, hl, Nat.not_le.2 ha, Except.map]

/-- A data poll that answers matches the last data request (R131). -/
theorem Machine.pollMatches_of_pollData {k : OpKind} {d : Word} {r : Bool × Word × MemComponent}
    (h : pollData p a k d m = .ok r) : pollMatches a k m = true := by
  cases hm : pollMatches a k m with
  | true => rfl
  | false => simp [pollData, hm] at h

/-- The poll of a request with the no-memory flag (R135, R154). -/
theorem Machine.pollData_noMem {k : OpKind} {d : Word} (hm : pollMatches a k m = true) (hno : m.noMem = true) :
    pollData p a k d m = .ok (true, d, m) := by
  simp [pollData, hm, hno]

/-- The poll of a store when `wait` is 0 (R135, R155). -/
theorem Machine.pollData_store {d : Word} {m' : MemComponent} (hm : pollMatches a .store m = true)
    (hno : m.noMem = false) (hw : m.wait = 0) (hc : completeStore p a d m = .ok m') :
    pollData p a .store d m = .ok (true, d, m') := by
  simp [pollData, hm, hno, hw, hc, Except.map]

end

/-- Settles O18: the request is a hit, which moves the tag to the front of the recency list and keeps every line. -/
theorem fetchHitKeepsLine : Obligations.FetchHitKeepsLine := by
  intro p m m' a ic dc ln hf ht hl h
  obtain ⟨ha, -⟩ := requestFetch_done h
  rw [requestFetch_hit hf ha (Cache.hit_iff.2 ht)] at h
  cases h
  exact ⟨rfl, fun mem' => pollFetch_resident rfl rfl rfl hl⟩

/-! ## The independence of the caches (R158) -/

section
variable {p : Params} {m m' : MemComponent} {a d w : Word} {k : OpKind} {ic dc : Cache}

/-- A fetch request keeps the data cache and does the same whatever it holds. -/
theorem Machine.requestFetch_ignores_dcache (hf : m.front = .cached ic dc) (h : requestFetch p a m = .done m') :
    ∃ ic', m'.front = .cached ic' dc ∧
      ∀ dc2, requestFetch p a { m with front := .cached ic dc2 } = .done { m' with front := .cached ic' dc2 } := by
  obtain ⟨ha, ⟨hu, -⟩ | ⟨_, _, hc, hhit, rfl⟩ | ⟨_, _, ic', o, hc, hmiss, hal, rfl⟩⟩ := requestFetch_done h
  · simp [hf] at hu
  · cases hf.symm.trans hc
    exact ⟨_, rfl, fun _ => requestFetch_hit rfl ha hhit⟩
  · cases hf.symm.trans hc
    exact ⟨_, rfl, fun _ => requestFetch_miss rfl ha hmiss hal⟩

/-- A data request of any kind keeps the instruction cache and does the same whatever it holds. -/
theorem Machine.requestData_ignores_icache (hf : m.front = .cached ic dc) (h : requestData p a k m = .done m') :
    ∃ dc', m'.front = .cached ic dc' ∧
      ∀ ic2, requestData p a k { m with front := .cached ic2 dc } = .done { m' with front := .cached ic2 dc' } := by
  by_cases hk : k = .other
  · subst hk
    cases h
    exact ⟨dc, hf, fun _ => rfl⟩
  obtain ⟨ha, ⟨hu, -⟩ | ⟨_, _, hc, hhit, rfl⟩ | ⟨_, _, dc', o, hc, hmiss, hal, rfl⟩⟩ := requestData_done hk h
  · simp [hf] at hu
  · cases hf.symm.trans hc
    exact ⟨_, rfl, fun _ => requestData_hit hk rfl ha hhit⟩
  · cases hf.symm.trans hc
    exact ⟨_, rfl, fun _ => requestData_miss hk rfl ha hmiss hal⟩

/-- A fetch poll gives the same whatever the data cache holds. -/
theorem Machine.pollFetch_ignores_dcache (hf : m.front = .cached ic dc) (dc2 : Cache) :
    pollFetch p { m with front := .cached ic dc2 } = pollFetch p m := by
  simp [pollFetch, hf]

/-- A ready load gives the same whatever the instruction cache holds. -/
theorem Machine.completeLoad_ignores_icache (hf : m.front = .cached ic dc) (ic2 : Cache) :
    completeLoad p a { m with front := .cached ic2 dc } = completeLoad p a m := by
  simp [completeLoad, hf]

/-- A ready store keeps the instruction cache and does the same whatever it holds. -/
theorem Machine.completeStore_ignores_icache (hf : m.front = .cached ic dc) (h : completeStore p a d m = .ok m') :
    ∃ dc', m'.front = .cached ic dc' ∧
      ∀ ic2, completeStore p a d { m with front := .cached ic2 dc } = .ok { m' with front := .cached ic2 dc' } := by
  obtain ⟨ha, ⟨hu, -⟩ | ⟨_, _, ln, hc, hl, rfl⟩⟩ := completeStore_ok h
  · simp [hf] at hu
  · cases hf.symm.trans hc
    exact ⟨_, rfl, fun _ => completeStore_cached rfl ha hl⟩

/-- A data poll keeps the instruction cache and answers the same whatever it holds. -/
theorem Machine.pollData_ignores_icache {b : Bool} (hf : m.front = .cached ic dc)
    (h : pollData p a k d m = .ok (b, w, m')) :
    ∃ dc', m'.front = .cached ic dc' ∧
      ∀ ic2, pollData p a k d { m with front := .cached ic2 dc } =
        .ok (b, w, { m' with front := .cached ic2 dc' }) := by
  have hm := pollMatches_of_pollData h
  cases b with
  | false =>
    obtain ⟨rfl, rfl, hno, hw⟩ := pollData_unready h
    exact ⟨dc, hf, fun _ => pollData_waiting hm hno hw⟩
  | true =>
    obtain ⟨-, ⟨hno, rfl, rfl⟩ | ⟨hno, hw, rfl, hc, rfl⟩ | ⟨hno, hw, rfl, rfl, hc⟩⟩ := pollData_ready h
    · exact ⟨dc, hf, fun _ => pollData_noMem hm hno⟩
    · obtain ⟨_, hreq, hk | rfl⟩ := pollMatches_iff.1 hm
      · cases hk
      · exact ⟨dc, hf, fun ic2 =>
          pollData_load_ready (m := { m' with front := .cached ic2 dc }) hreq hno hw
            ((completeLoad_ignores_icache hf ic2).trans hc) d⟩
    · obtain ⟨dc', hf', hall⟩ := completeStore_ignores_icache hf hc
      exact ⟨dc', hf', fun ic2 => pollData_store hm hno hw (hall ic2)⟩

end

/-- A cache of capacity `n` that holds one line. -/
def Machine.Cache.single (t : Nat) (ln : Line) (n : Nat) : Cache :=
  { resident := [(t, ln)], recency := [t], capacity := n }

@[simp] theorem Machine.Cache.single_line? (t : Nat) (ln : Line) (n : Nat) : (Cache.single t ln n).line? t = some ln :=
  if_pos rfl

/-- One line at a line address is a cache of this hardware, for every capacity the parameters allow. -/
theorem Safety.cacheOk_single {p : Params} {t n : Nat} (ln : Line) (hn : CapacityLegal p n) (ht : t % lineBytes = 0)
    (hlt : t < p.memBytes) : CacheOk p (Cache.single t ln n) where
  sorted := List.pairwise_singleton _ _
  nodup := List.nodup_singleton t
  same _ := Iff.rfl
  tags u hu := by
    obtain rfl := List.mem_singleton.1 hu
    exact ⟨ht, hlt⟩
  size := hn.1
  reach := hn.2

/-- A component of the reference parameters whose byte at address 0 is 1: the data cache agrees with memory, the
instruction cache holds line 0 as it was when that byte was 0 (R73). -/
def Machine.staleFetchLine : MemComponent :=
  { MemComponent.create Params.reference with
    mem := [(0, 1)]
    front := .cached (Cache.single 0 (fillLine [] 0) Params.reference.icacheLines)
      (Cache.single 0 (fillLine [(0, 1)] 0) Params.reference.dcacheLines) }

theorem Safety.reference_legal : Params.reference.Legal := by decide

theorem Safety.memOk_staleFetchLine : MemOk Params.reference staleFetchLine where
  wf := by decide
  bound := by decide
  front := by
    obtain ⟨hi, hd⟩ := capacityLegal_of reference_legal
    refine ⟨rfl, rfl, rfl, cacheOk_single _ hi rfl (by decide), cacheOk_single _ hd rfl (by decide), ?_⟩
    intro e he
    obtain rfl := List.mem_singleton.1 he
    rfl

/-- The Word at index 0 tells the two lines of tag 0 apart. -/
theorem Machine.fillLine_stale_ne : fillLine [] 0 ≠ fillLine [(0, 1)] 0 := by
  intro h
  have hword := congrArg (fun ln : Line => ln[0]) h
  simp only [fillLine_getElem] at hword
  exact absurd hword (by decide)

/-- Settles O19: each operation's cases speak of its own cache alone; `staleFetchLine` holds line 0 in both
caches, with different Words. -/
theorem cachesAreIndependent : Obligations.CachesAreIndependent :=
  ⟨fun _ _ _ _ _ _ _ _ _ _ hf =>
    ⟨requestFetch_ignores_dcache hf, requestData_ignores_icache hf, pollData_ignores_icache hf,
      pollFetch_ignores_dcache hf⟩,
    Params.reference, staleFetchLine, _, _, 0, _, _, reference_legal, memOk_staleFetchLine, rfl,
      Cache.single_line? .., Cache.single_line? .., fillLine_stale_ne⟩

/-! ## The write-back of an evicted line (R153) -/

/-- The Words of a line that was written back. -/
theorem Machine.word_writeBackLine_inside (m : Memory) (v : Nat) (ln : Line) {i : Nat} (hi : i < lineWords) :
    (writeBackLine m v ln).word (v / 4 + i) = ln[i] := by
  rw [word_writeBackLine, dif_pos ⟨by omega, by omega⟩]
  simp

/-- A write-back to a line address changes no byte outside that line. -/
theorem Machine.read_writeBackLine_outside (m : Memory) {v b : Nat} (ln : Line) (hv : v % lineBytes = 0)
    (hb : b < v ∨ v + lineBytes ≤ b) : (writeBackLine m v ln).read b = m.read b := by
  refine Memory.read_setWords_outside _ _ _ _ ?_
  rw [Vector.length_toList]
  unfold lineBytes at hv hb
  unfold lineWords
  omega

/-- The tag of a resident line is a line address (R32, R53). -/
theorem Safety.CacheOk.tag_mod {p : Params} {c : Cache} (h : CacheOk p c) {t : Nat} {ln : Line}
    (hl : c.line? t = some ln) : t % lineBytes = 0 :=
  (h.tags t ((h.same t).1 (h.mem_recency_of_line hl))).1

/-- The line that an allocation of another tag removes is the evicted one, unchanged (R145). -/
theorem Safety.CacheOk.victim_of_removed {p : Params} {c c' : Cache} (h : CacheOk p c) {e : Bool} {t v : Nat}
    {new ln : Line} {o : Option (Nat × Line)} (ht : t ∉ c.recency) (ha : c.allocate e t new = some (c', o))
    (hl : c.line? v = some ln) (hgone : c'.line? v = none) : o = some (v, ln) := by
  have hvt : v ≠ t := by
    rintro rfl
    exact ht (h.mem_recency_of_line hl)
  have hins : Assoc.find? (Assoc.insert c.resident t new) v = some ln := by
    rw [Assoc.find?_insert, if_neg hvt]
    exact hl
  obtain ⟨-, rfl, -⟩ | ⟨-, u, old, -, hold, rfl, rfl⟩ := Cache.allocate_cases ha
  · exact absurd (hins.symm.trans hgone) (by simp)
  · have hvu : v = u := by
      by_contra hne
      have hkept : Assoc.find? (Assoc.erase (Assoc.insert c.resident t new) u) v = some ln := by
        rw [Assoc.find?_erase, if_neg hne, hins]
      exact absurd (hkept.symm.trans hgone) (by simp)
    subst hvu
    cases hins.symm.trans hold
    rfl

/-- A load or store request that removes a line from a data cache in order writes that line back (R150, R152). -/
theorem Safety.CacheOk.writeBack_of_removed {p : Params} {m m' : MemComponent} {a : Word} {k : OpKind}
    {ic dc dc' : Cache} {v : Nat} {ln : Line} (hdc : CacheOk p dc) (hk : k ≠ .other) (hf : m.front = .cached ic dc)
    (h : requestData p a k m = .done m') (hf' : m'.front = .cached ic dc') (hl : dc.line? v = some ln)
    (hgone : dc'.line? v = none) : m'.mem = writeBackLine m.mem v ln := by
  obtain ⟨-, ⟨hu, -⟩ | ⟨_, _, hc, -, rfl⟩ | ⟨_, _, c, o, hc, hmiss, hal, rfl⟩⟩ := requestData_done hk h
  · simp [hf] at hu
  · cases hf.symm.trans hc
    cases hf'
    rw [Cache.touch_line?, hl] at hgone
    cases hgone
  · cases hf.symm.trans hc
    cases hf'
    cases hdc.victim_of_removed (Cache.hit_false_iff.1 hmiss) hal hl hgone
    rfl

/-- Settles O21: only an eviction removes a line, and its write-back writes that line whole. -/
theorem evictionWritesWholeLine : Obligations.EvictionWritesWholeLine := by
  intro p m m' a k ic dc dc' v ln hdc hk hf h hf' hl hgone
  rw [hdc.writeBack_of_removed hk hf h hf' hl hgone]
  exact ⟨fun _ hi => word_writeBackLine_inside _ _ _ hi,
    fun _ hb => read_writeBackLine_outside _ _ (hdc.tag_mod hl) hb⟩

end Sys2Proof
end

section
/-! PROOF. The clock edges of the CPU Controller (45_cpu_controller.md): the edge whose poll is not ready (R237), how
every edge ends, and the Writeback edge (R235, R236). -/

namespace Sys2Proof

open Machine Safety

/-! ## Stall edges (R237) -/

section
variable {ρ κ : Type} {K : Collaborators ρ κ} {s : State ρ κ}

/-- The poll of the DecodeExecute or Writeback phase is not ready: what the spec calls a stall (R237). -/
def Machine.PollUnready (s : State ρ κ) : Prop :=
  (s.phase = .decodeExecute ∧ pollFetch s.params s.memc = .ok none) ∨
  (s.phase = .writeback ∧ ∃ r d m, s.instr = some r ∧
    pollData s.params r.addr r.kind.opKind r.data s.memc = .ok (false, d, m))

/-- A fetch poll that answers without a Word still waits (R133, R147). -/
theorem Machine.pollFetch_unready {p : Params} {m : MemComponent} (h : pollFetch p m = .ok none) : 0 < m.wait := by
  obtain ⟨_, -, ⟨hw, -⟩ | ⟨-, -, -, hnone⟩ | ⟨-, _, _, _, -, -, hnone⟩⟩ := pollFetch_ok h
  · exact hw
  · cases hnone
  · cases hnone

/-- Only a wait counter that is not 0 makes a poll unready (R133, R135, R147, R154). -/
theorem Machine.PollUnready.wait_pos (h : PollUnready s) : 0 < s.memc.wait := by
  obtain ⟨-, hpoll⟩ | ⟨-, _, _, _, -, hpoll⟩ := h
  · exact pollFetch_unready hpoll
  · obtain ⟨-, -, -, hw⟩ := pollData_unready hpoll
    exact hw

/-- A step whose poll is not ready does nothing (R233, R235). -/
theorem Machine.PollUnready.cpuStep_eq (h : PollUnready s) : cpuStep K s = .done s := by
  obtain ⟨hp, hpoll⟩ | ⟨hp, _, _, _, hi, hpoll⟩ := h
  · rw [cpuStep_decodeExecute hp]
    unfold decodeExecuteStep
    rw [hpoll]
  · rw [cpuStep_writeback hp]
    unfold writebackStep
    simp only [hi, hpoll]

/-- The edge of a running state whose poll is not ready is a stall edge (R237). -/
theorem Machine.PollUnready.clockEdgeWith_eq (h : PollUnready s) (hr : Running s) :
    clockEdgeWith K s = (s.tick K).advance :=
  clockEdgeWith_done hr (PollUnready.cpuStep_eq (s := s.tick K) h)

/-! ## How an edge ends -/

/-- An edge that does not fault is the memory advance after a step that is done (R230). -/
theorem Machine.cpuStep_done_of_fault_none (hr : Running s) (h : (clockEdgeWith K s).fault = none) :
    ∃ u, cpuStep K (s.tick K) = .done u ∧ clockEdgeWith K s = u.advance := by
  cases hstep : cpuStep K (s.tick K) with
  | done u => exact ⟨u, rfl, clockEdgeWith_done hr hstep⟩
  | raised f u =>
    rw [clockEdgeWith_raised hr hstep] at h
    cases h

/-- A DecodeExecute step that is done stalled, or went to Writeback (R233). -/
theorem Machine.decodeExecuteStep_done {t : State ρ κ} (h : decodeExecuteStep K s = .done t) :
    pollFetch s.params s.memc = .ok none ∨ t.phase = .writeback := by
  unfold decodeExecuteStep at h
  split at h
  · cases h
  · exact .inl ‹_›
  · split at h
    · cases h
    · split at h
      · obtain ⟨_, _, -, -, rfl⟩ := issue_done h
        exact .inr rfl
      · cases h

/-- A step that is done had a poll that is not ready, or left its phase (R231 to R237). -/
theorem Machine.cpuStep_done {t : State ρ κ} (h : cpuStep K s = .done t) : PollUnready s ∨ t.phase ≠ s.phase := by
  cases hp : s.phase with
  | fetch =>
    rw [cpuStep_fetch hp] at h
    obtain ⟨_, -, rfl⟩ := fetchStep_done h
    exact .inr (by simp)
  | decodeExecute =>
    rw [cpuStep_decodeExecute hp] at h
    obtain hpoll | ht := decodeExecuteStep_done h
    · exact .inl (.inl ⟨hp, hpoll⟩)
    · exact .inr (by simp [ht])
  | writeback =>
    rw [cpuStep_writeback hp] at h
    obtain ⟨r, hi, ⟨d, m, hpoll, -⟩ | ⟨_, _, -, rfl⟩⟩ := writebackStep_done h
    · exact .inl (.inr ⟨hp, r, d, m, hi, hpoll⟩)
    · exact .inr (by simp)

/-- The edge of a running state stalls, faults, or leaves its phase (R231 to R237). -/
theorem Machine.clockEdgeWith_cases (K : Collaborators ρ κ) (hr : Running s) :
    PollUnready s ∨ (clockEdgeWith K s).fault ≠ none ∨ (clockEdgeWith K s).phase ≠ s.phase := by
  by_cases hf : (clockEdgeWith K s).fault = none
  · obtain ⟨u, hstep, hu⟩ := cpuStep_done_of_fault_none hr hf
    rw [hu]
    exact (cpuStep_done hstep).imp_right .inr
  · exact .inr (.inl hf)

/-- The Fetch edge never stalls (R232, R237). -/
theorem Machine.clockEdgeWith_fetch_phase (hr : Running s) (hp : s.phase = .fetch)
    (h : (clockEdgeWith K s).fault = none) : (clockEdgeWith K s).phase = .decodeExecute := by
  obtain ⟨u, hstep, hu⟩ := cpuStep_done_of_fault_none hr h
  rw [cpuStep_fetch (s := s.tick K) hp] at hstep
  obtain ⟨_, -, rfl⟩ := fetchStep_done hstep
  rw [hu]
  rfl

/-- No stall lasts for ever: every stall edge lowers `wait`, which is not 0 while the poll is not ready (R138, R237). -/
theorem Machine.clockEdgesWith_leave_phase (K : Collaborators ρ κ) (hr : Running s) :
    ∃ n, (clockEdgesWith K n s).fault ≠ none ∨ (clockEdgesWith K n s).phase ≠ s.phase := by
  induction hw : s.memc.wait generalizing s with
  | zero =>
    obtain hstall | hend := clockEdgeWith_cases K hr
    · exact absurd hstall.wait_pos (by omega)
    · exact ⟨1, hend⟩
  | succ w ih =>
    obtain hstall | hend := clockEdgeWith_cases K hr
    · obtain ⟨n, hn⟩ := ih (s := (s.tick K).advance) hr (by simp [hw])
      refine ⟨n + 1, ?_⟩
      rw [clockEdgesWith, hstall.clockEdgeWith_eq hr]
      exact hn
    · exact ⟨1, hend⟩

/-! ## The Writeback edge (R235, R236) -/

/-- The Writeback edge whose poll is ready commits the record with the polled Word (R235). -/
theorem Machine.clockEdgeWith_writeback_ready {r : Record} {d : Word} {m : MemComponent} (hr : Running s)
    (hp : s.phase = .writeback) (hi : s.instr = some r)
    (hpoll : pollData s.params r.addr r.kind.opKind r.data s.memc = .ok (true, d, m)) :
    clockEdgeWith K s = ({ s.tick K with memc := m }.commit K { r with data := d }).advance := by
  apply clockEdgeWith_done hr
  rw [cpuStep_writeback (s := s.tick K) hp]
  unfold writebackStep
  simp only [State.tick_instr, State.tick_params, State.tick_memc, hi, hpoll]

/-- The register file after commit of a record without a destination (R236). -/
theorem Machine.State.commit_regs_none {r : Record} (h : r.rd = none) : (s.commit K r).regs = s.regs := by
  simp [State.writeDest, h]

/-- The register file after commit of a record with a destination (R236). -/
theorem Machine.State.commit_regs_some {r : Record} {i : RegId} (h : r.rd = some i) :
    (s.commit K r).regs = K.regs.write s.regs i r.data := by
  simp [State.writeDest, h]

end

/-- Settles O33: an unready poll means that `wait` is not 0, its edge is a stall edge, and induction on `wait` bounds
the stalls. -/
theorem stallEdge : Obligations.StallEdge := by
  intro ρ κ K s hr
  refine ⟨fun h => ?_, clockEdgeWith_fetch_phase hr, clockEdgesWith_leave_phase K hr⟩
  have hstall : PollUnready s := h
  exact ⟨hstall.clockEdgeWith_eq hr, hstall.wait_pos⟩

/-- Settles O34: the unready edge is a stall edge; the ready one is a commit, field by field. -/
theorem writebackEdge : Obligations.WritebackEdge := by
  intro ρ κ K s r ok d m hr hp hi hpoll
  cases ok with
  | false =>
    have hstall : PollUnready s := .inr ⟨hp, r, d, m, hi, hpoll⟩
    simp only [hstall.clockEdgeWith_eq hr]
    exact ⟨hr, rfl, fun _ => rfl, nofun⟩
  | true =>
    simp only [clockEdgeWith_writeback_ready hr hp hi hpoll]
    refine ⟨(State.commit_fault ..).trans hr, State.commit_params .., nofun,
      fun _ => ⟨rfl, rfl, rfl, congrArg advanceCycle (State.commit_memc ..), ?_, ?_, ?_, ?_⟩⟩
    · exact fun hrd => State.commit_regs_none hrd
    · exact fun i hrd => State.commit_regs_some hrd
    · exact fun hk => State.commit_csr_of_ne _ _ _ hk
    · exact fun c hk hc => State.commit_csr_write _ _ _ c hk hc

end Sys2Proof
end

section
/-! PROOF. The encoding (30_encoding.md): the decoder and the encoder undo one another (R88 to R98), and the decoder is
the first-match reading of the table of R98. The fields and immediates of each format come first. -/

namespace Sys2Proof

/-! ## Fields -/

/-- Two neighbouring fields are one field. -/
theorem append_extract {w : Nat} (x : BitVec w) (lo len len' : Nat) :
    x.extractLsb' (lo + len) len' ++ x.extractLsb' lo len = x.extractLsb' lo (len' + len) := by
  apply BitVec.eq_of_getLsbD_eq
  intro i hi
  simp only [BitVec.getLsbD_append, BitVec.getLsbD_extractLsb']
  by_cases h : i < len
  · simp [h, hi]
  · simp [h, hi, show i - len < len' by omega, show lo + len + (i - len) = lo + i by omega]

/-- A field of a sign-extended value that lies within the value. -/
theorem extract_signExtend {n lo len : Nat} (x : BitVec n) (h : lo + len ≤ n) (h32 : n ≤ 32) :
    (x.signExtend 32).extractLsb' lo len = x.extractLsb' lo len := by
  apply BitVec.eq_of_getLsbD_eq
  intro i hi
  simp only [BitVec.getLsbD_extractLsb', BitVec.getLsbD_signExtend]
  simp [show lo + i < 32 by omega, show lo + i < n by omega]

/-- The low bits of a vector, as a field. -/
theorem setWidth_eq_extract {n len : Nat} (x : BitVec n) : x.setWidth len = x.extractLsb' 0 len := by
  apply BitVec.eq_of_getLsbD_eq
  intro i hi
  simp

/-- The low bit of an even value. -/
theorem extract_low_bit {v : Word} : v.extractLsb' 0 1 = 0#1 ↔ v.getLsbD 0 = false := by
  constructor
  · intro h
    simpa using congrArg (fun b => b.getLsbD 0) h
  · intro h
    apply BitVec.eq_of_getLsbD_eq
    intro i hi
    obtain rfl : i = 0 := by omega
    simpa using h

/-! ## The fields of an encoded word, by format (R88) -/

section
variable (f7 : BitVec 7) (rs2 rs1 rd : RegId) (f3 : BitVec 3) (op : BitVec 7) (v : Word) (csr : CsrId)

theorem fields_encR : fOpcode (encR f7 rs2 rs1 f3 rd op) = op ∧ fRd (encR f7 rs2 rs1 f3 rd op) = rd ∧
    fFunct3 (encR f7 rs2 rs1 f3 rd op) = f3 ∧ fRs1 (encR f7 rs2 rs1 f3 rd op) = rs1 ∧
    fRs2 (encR f7 rs2 rs1 f3 rd op) = rs2 ∧ fFunct7 (encR f7 rs2 rs1 f3 rd op) = f7 := fields_R ..

theorem fields_encI : fOpcode (encI v rs1 f3 rd op) = op ∧ fRd (encI v rs1 f3 rd op) = rd ∧
    fFunct3 (encI v rs1 f3 rd op) = f3 ∧ fRs1 (encI v rs1 f3 rd op) = rs1 := by
  simp (disch := omega) only [fOpcode, fRd, fFunct3, fRs1, encI, extract_append_high, extract_append_low,
    extract_all, Nat.reduceSub, regOfBits_regBits, and_self]

theorem fields_encShift : fOpcode (encShift f7 v rs1 f3 rd op) = op ∧ fRd (encShift f7 v rs1 f3 rd op) = rd ∧
    fFunct3 (encShift f7 v rs1 f3 rd op) = f3 ∧ fRs1 (encShift f7 v rs1 f3 rd op) = rs1 ∧
    fFunct7 (encShift f7 v rs1 f3 rd op) = f7 := by
  simp (disch := omega) only [fOpcode, fRd, fFunct3, fRs1, fFunct7, encShift, extract_append_high, extract_append_low,
    extract_all, Nat.reduceSub, regOfBits_regBits, and_self]

theorem fields_encS : fOpcode (encS v rs2 rs1 f3 op) = op ∧ fFunct3 (encS v rs2 rs1 f3 op) = f3 ∧
    fRs1 (encS v rs2 rs1 f3 op) = rs1 ∧ fRs2 (encS v rs2 rs1 f3 op) = rs2 := by
  simp (disch := omega) only [fOpcode, fFunct3, fRs1, fRs2, encS, extract_append_high, extract_append_low,
    extract_all, Nat.reduceSub, regOfBits_regBits, and_self]

theorem fields_encB : fOpcode (encB v rs2 rs1 f3 op) = op ∧ fFunct3 (encB v rs2 rs1 f3 op) = f3 ∧
    fRs1 (encB v rs2 rs1 f3 op) = rs1 ∧ fRs2 (encB v rs2 rs1 f3 op) = rs2 := by
  simp (disch := omega) only [fOpcode, fFunct3, fRs1, fRs2, encB, extract_append_high, extract_append_low,
    extract_all, Nat.reduceSub, regOfBits_regBits, and_self]

theorem fields_encU : fOpcode (encU v rd op) = op ∧ fRd (encU v rd op) = rd := by
  simp (disch := omega) only [fOpcode, fRd, encU, extract_append_high, extract_append_low,
    extract_all, Nat.reduceSub, regOfBits_regBits, and_self]

theorem fields_encJ : fOpcode (encJ v rd op) = op ∧ fRd (encJ v rd op) = rd := by
  simp (disch := omega) only [fOpcode, fRd, encJ, extract_append_high, extract_append_low,
    extract_all, Nat.reduceSub, regOfBits_regBits, and_self]

theorem fields_encCsr : fOpcode (encCsr csr rs1 f3 rd op) = op ∧ fRd (encCsr csr rs1 f3 rd op) = rd ∧
    fFunct3 (encCsr csr rs1 f3 rd op) = f3 ∧ fRs1 (encCsr csr rs1 f3 rd op) = rs1 ∧
    fCsr (encCsr csr rs1 f3 rd op) = csr := by
  simp (disch := omega) only [fOpcode, fRd, fFunct3, fRs1, fCsr, encCsr, extract_append_high, extract_append_low,
    extract_all, Nat.reduceSub, regOfBits_regBits, and_self]

/-! ## The immediate of an encoded word (R90 to R95) -/

theorem immI_encI (h : isImm12 v = true) : immI (encI v rs1 f3 rd op) = v := by
  simp (disch := omega) only [immI, encI, extract_append_high, extract_all, Nat.reduceSub]
  simpa [isImm12, setWidth_eq_extract] using (eq_of_beq h).symm

theorem immShamt_encShift (h : isShamt v = true) : immShamt (encShift f7 v rs1 f3 rd op) = v := by
  have hlt : v.toNat < 32 := by simpa [isShamt] using h
  simp (disch := omega) only [immShamt, encShift, extract_append_high, extract_append_low, extract_all, Nat.reduceSub]
  apply BitVec.eq_of_toNat_eq
  simp
  omega

theorem immS_encS (h : isImm12 v = true) : immS (encS v rs2 rs1 f3 op) = v := by
  simp (disch := omega) only [immS, encS, extract_append_high, extract_append_low, extract_all, Nat.reduceSub]
  rw [append_extract v 0 5 7]
  simpa [isImm12, setWidth_eq_extract] using (eq_of_beq h).symm

theorem immB_encB (h : isImm13Even v = true) : immB (encB v rs2 rs1 f3 op) = v := by
  obtain ⟨hext, heven⟩ : v = (v.setWidth 13).signExtend 32 ∧ v.getLsbD 0 = false := by
    simpa only [isImm13Even, Bool.and_eq_true, beq_iff_eq, Bool.not_eq_true'] using h
  simp (disch := omega) only [immB, encB, extract_append_high, extract_append_low, extract_all, Nat.reduceSub]
  rw [append_extract v 11 1 1, append_extract v 5 6 2, append_extract v 1 4 8, ← extract_low_bit.2 heven,
    append_extract v 0 1 12, ← setWidth_eq_extract]
  exact hext.symm

theorem immU_encU (h : isImmUpper v = true) : immU (encU v rd op) = v := by
  have hlow : v.extractLsb' 0 12 = 0#12 := by
    rw [← setWidth_eq_extract]
    exact eq_of_beq h
  simp (disch := omega) only [immU, encU, extract_append_high, extract_all, Nat.reduceSub]
  rw [← hlow, append_extract v 0 12 20]
  exact extract_all v

theorem immJ_encJ (h : isImm21Even v = true) : immJ (encJ v rd op) = v := by
  obtain ⟨hext, heven⟩ : v = (v.setWidth 21).signExtend 32 ∧ v.getLsbD 0 = false := by
    simpa only [isImm21Even, Bool.and_eq_true, beq_iff_eq, Bool.not_eq_true'] using h
  simp (disch := omega) only [immJ, encJ, extract_append_high, extract_append_low, extract_all, Nat.reduceSub]
  rw [append_extract v 12 8 1, append_extract v 11 1 9, append_extract v 1 10 10, ← extract_low_bit.2 heven,
    append_extract v 0 1 20, ← setWidth_eq_extract]
  exact hext.symm

end

/-- Settles O5: each format's fields and immediate are read back, so that the decoder takes the instruction's branch. -/
theorem decodeEncodeRoundTrip : Obligations.DecodeEncodeRoundTrip := by
  intro i h
  cases i
  case add | sub | sll | slt | sltu | xor | srl | sra | or | and =>
    simp [encode, decode, decodeOp, fields_encR]
  case addi | slti | sltiu | xori | ori | andi =>
    simp [encode, decode, decodeOpImm, fields_encI, immI_encI _ _ _ _ _ h]
  case slli | srli | srai =>
    simp [encode, decode, decodeOpImm, fields_encShift, immShamt_encShift _ _ _ _ _ _ h]
  case lui | auipc => simp [encode, decode, fields_encU, immU_encU _ _ _ h]
  case jal => simp [encode, decode, fields_encJ, immJ_encJ _ _ _ h]
  case jalr | lw => simp [encode, decode, fields_encI, immI_encI _ _ _ _ _ h]
  case beq | bne | blt | bge | bltu | bgeu =>
    simp [encode, decode, decodeBranch, fields_encB, immB_encB _ _ _ _ _ h]
  case sw => simp [encode, decode, fields_encS, immS_encS _ _ _ _ _ h]
  case csrrs | csrrw => simp [encode, decode, decodeSystem, fields_encCsr]

/-! ## A word put together again from its fields and its immediate -/

section
variable (w : Word)

theorem encR_fields : encR (fFunct7 w) (fRs2 w) (fRs1 w) (fFunct3 w) (fRd w) (fOpcode w) = w := by
  simp only [encR, fFunct7, fRs2, fRs1, fFunct3, fRd, fOpcode, regBits_regOfBits]
  rw [append_extract w 20 5 7, append_extract w 15 5 12, append_extract w 12 3 17, append_extract w 7 5 20,
    append_extract w 0 7 25]
  exact extract_all w

theorem encI_fields : encI (immI w) (fRs1 w) (fFunct3 w) (fRd w) (fOpcode w) = w := by
  simp (disch := omega) only [encI, immI, fRs1, fFunct3, fRd, fOpcode, regBits_regOfBits, extract_signExtend,
    extract_all]
  rw [append_extract w 15 5 12, append_extract w 12 3 17, append_extract w 7 5 20, append_extract w 0 7 25]
  exact extract_all w

theorem encShift_fields : encShift (fFunct7 w) (immShamt w) (fRs1 w) (fFunct3 w) (fRd w) (fOpcode w) = w := by
  have hsh : (immShamt w).extractLsb' 0 5 = regBits (fRs2 w) := by
    rw [immShamt, ← setWidth_eq_extract]
    simp [fRs2]
  rw [encShift, hsh]
  exact encR_fields w

theorem encS_fields : encS (immS w) (fRs2 w) (fRs1 w) (fFunct3 w) (fOpcode w) = w := by
  simp (disch := omega) only [encS, immS, fRs2, fRs1, fFunct3, fOpcode, regBits_regOfBits, extract_signExtend,
    extract_append_high, extract_append_low, extract_all, Nat.reduceSub]
  rw [append_extract w 20 5 7, append_extract w 15 5 12, append_extract w 12 3 17, append_extract w 7 5 20,
    append_extract w 0 7 25]
  exact extract_all w

theorem encB_fields : encB (immB w) (fRs2 w) (fRs1 w) (fFunct3 w) (fOpcode w) = w := by
  simp (disch := omega) only [encB, immB, fRs2, fRs1, fFunct3, fOpcode, regBits_regOfBits, extract_signExtend,
    extract_append_high, extract_append_low, extract_all, Nat.reduceSub]
  rw [append_extract w 25 6 1, append_extract w 20 5 7, append_extract w 15 5 12, append_extract w 12 3 17,
    append_extract w 8 4 20, append_extract w 7 1 24, append_extract w 0 7 25]
  exact extract_all w

theorem encU_fields : encU (immU w) (fRd w) (fOpcode w) = w := by
  simp (disch := omega) only [encU, immU, fRd, fOpcode, regBits_regOfBits, extract_append_high, extract_all,
    Nat.reduceSub]
  rw [append_extract w 7 5 20, append_extract w 0 7 25]
  exact extract_all w

theorem encJ_fields : encJ (immJ w) (fRd w) (fOpcode w) = w := by
  simp (disch := omega) only [encJ, immJ, fRd, fOpcode, regBits_regOfBits, extract_signExtend,
    extract_append_high, extract_append_low, extract_all, Nat.reduceSub]
  rw [append_extract w 21 10 1, append_extract w 20 1 11, append_extract w 12 8 12, append_extract w 7 5 20,
    append_extract w 0 7 25]
  exact extract_all w

theorem encCsr_fields : encCsr (fCsr w) (fRs1 w) (fFunct3 w) (fRd w) (fOpcode w) = w := by
  simp only [encCsr, fCsr, fRs1, fFunct3, fRd, fOpcode, regBits_regOfBits]
  rw [append_extract w 15 5 12, append_extract w 12 3 17, append_extract w 7 5 20, append_extract w 0 7 25]
  exact extract_all w

/-! ## Every decoded immediate is one its format holds (R90 to R95) -/

theorem isImm12_immI : isImm12 (immI w) = true := by
  simp (disch := omega) only [isImm12, immI, setWidth_eq_extract, extract_signExtend, extract_all, beq_self_eq_true]

theorem isImm12_immS : isImm12 (immS w) = true := by
  simp (disch := omega) only [isImm12, immS, setWidth_eq_extract, extract_signExtend, extract_all, beq_self_eq_true]

theorem isImm13Even_immB : isImm13Even (immB w) = true := by
  have hlow : (immB w).getLsbD 0 = false := by
    apply extract_low_bit.1
    simp (disch := omega) only [immB, extract_signExtend, extract_append_low, extract_all]
  rw [isImm13Even, hlow]
  simp (disch := omega) only [immB, setWidth_eq_extract, extract_signExtend, extract_all, beq_self_eq_true,
    Bool.not_false, Bool.and_self]

theorem isImmUpper_immU : isImmUpper (immU w) = true := by
  simp (disch := omega) only [isImmUpper, immU, setWidth_eq_extract, extract_append_low, extract_all]
  rfl

theorem isImm21Even_immJ : isImm21Even (immJ w) = true := by
  have hlow : (immJ w).getLsbD 0 = false := by
    apply extract_low_bit.1
    simp (disch := omega) only [immJ, extract_signExtend, extract_append_low, extract_all]
  rw [isImm21Even, hlow]
  simp (disch := omega) only [immJ, setWidth_eq_extract, extract_signExtend, extract_all, beq_self_eq_true,
    Bool.not_false, Bool.and_self]

theorem isShamt_immShamt : isShamt (immShamt w) = true := by
  simp [isShamt, immShamt]
  omega

end

/-- What a decoder owes of the instruction it gives for `w`: it is well formed, and `w` is its word. -/
def Spells (w : Word) (i : Instr) : Prop := i.wellFormed = true ∧ encode i = w

section
variable {w : Word} {i : Instr}

theorem decodeOp_spells (hop : fOpcode w = 0x33#7) (h : decodeOp w = .ok i) : Spells w i := by
  have word : ∀ {f7 f3}, fFunct7 w = f7 → fFunct3 w = f3 → encR f7 (fRs2 w) (fRs1 w) f3 (fRd w) 0x33#7 = w := by
    rintro _ _ rfl rfl
    rw [← hop]
    exact encR_fields w
  unfold decodeOp at h
  split_ifs at h <;> cases h <;> exact ⟨rfl, word ‹_› (by bv_omega)⟩

theorem decodeOpImm_spells (hop : fOpcode w = 0x13#7) (h : decodeOpImm w = .ok i) : Spells w i := by
  have word : ∀ {f3}, fFunct3 w = f3 → encI (immI w) (fRs1 w) f3 (fRd w) 0x13#7 = w := by
    rintro _ rfl
    rw [← hop]
    exact encI_fields w
  have shift : ∀ {f7 f3}, fFunct7 w = f7 → fFunct3 w = f3 →
      encShift f7 (immShamt w) (fRs1 w) f3 (fRd w) 0x13#7 = w := by
    rintro _ _ rfl rfl
    rw [← hop]
    exact encShift_fields w
  unfold decodeOpImm at h
  split_ifs at h <;> cases h
  case pos | pos | pos | pos | pos | pos => exact ⟨isImm12_immI w, word ‹_›⟩
  all_goals exact ⟨isShamt_immShamt w, shift ‹_› (by bv_omega)⟩

theorem decodeBranch_spells (hop : fOpcode w = 0x63#7) (h : decodeBranch w = .ok i) : Spells w i := by
  have word : ∀ {f3}, fFunct3 w = f3 → encB (immB w) (fRs2 w) (fRs1 w) f3 0x63#7 = w := by
    rintro _ rfl
    rw [← hop]
    exact encB_fields w
  unfold decodeBranch at h
  split_ifs at h <;> cases h <;> exact ⟨isImm13Even_immB w, word ‹_›⟩

theorem decodeSystem_spells (hop : fOpcode w = 0x73#7) (h : decodeSystem w = .ok i) : Spells w i := by
  have word : ∀ {rs1 f3 rd}, fRs1 w = rs1 → fFunct3 w = f3 → fRd w = rd → encCsr (fCsr w) rs1 f3 rd 0x73#7 = w := by
    rintro _ _ _ rfl rfl rfl
    rw [← hop]
    exact encCsr_fields w
  unfold decodeSystem at h
  split_ifs at h <;> cases h
  · exact ⟨rfl, word ‹_› ‹_› rfl⟩
  · exact ⟨rfl, word rfl ‹_› ‹_›⟩

end

/-- The opcodes of the decoder table (R97). -/
def opcodes : List (BitVec 7) := [0x33#7, 0x13#7, 0x37#7, 0x17#7, 0x6F#7, 0x67#7, 0x63#7, 0x03#7, 0x23#7, 0x73#7]

/-- The decoder by opcode (R97): one group each, and a refusal of every other opcode. -/
theorem decode_cases (w : Word) :
    (fOpcode w = 0x33#7 ∧ decode w = decodeOp w) ∨
    (fOpcode w = 0x13#7 ∧ decode w = decodeOpImm w) ∨
    (fOpcode w = 0x37#7 ∧ decode w = .ok (.lui (fRd w) (immU w))) ∨
    (fOpcode w = 0x17#7 ∧ decode w = .ok (.auipc (fRd w) (immU w))) ∨
    (fOpcode w = 0x6F#7 ∧ decode w = .ok (.jal (fRd w) (immJ w))) ∨
    (fOpcode w = 0x67#7 ∧
      decode w = if fFunct3 w = 0b000#3 then .ok (.jalr (fRd w) (fRs1 w) (immI w)) else .error .jalrFunct3) ∨
    (fOpcode w = 0x63#7 ∧ decode w = decodeBranch w) ∨
    (fOpcode w = 0x03#7 ∧
      decode w = if fFunct3 w = 0b010#3 then .ok (.lw (fRd w) (fRs1 w) (immI w)) else .error .loadFunct3) ∨
    (fOpcode w = 0x23#7 ∧
      decode w = if fFunct3 w = 0b010#3 then .ok (.sw (fRs1 w) (fRs2 w) (immS w)) else .error .storeFunct3) ∨
    (fOpcode w = 0x73#7 ∧ decode w = decodeSystem w) ∨
    (fOpcode w ∉ opcodes ∧ ∃ x, decode w = .error x) := by
  by_cases hmem : fOpcode w ∈ opcodes
  · simp only [opcodes, List.mem_cons, List.not_mem_nil, or_false] at hmem
    rcases hmem with h | h | h | h | h | h | h | h | h | h <;> simp [decode, h]
  · have hrefused : ∃ x, decode w = .error x := by
      simp only [opcodes, List.mem_cons, List.not_mem_nil, or_false, not_or] at hmem
      simp only [decode, hmem, if_false]
      split_ifs <;> exact ⟨_, rfl⟩
    simp only [hmem, not_false_eq_true, hrefused, and_self, or_true]

/-- Settles O6: by the opcode groups of the decoder; in each, the word's fields put together again are the word. -/
theorem encodeDecodedWord : Obligations.EncodeDecodedWord := by
  intro w i h
  show Spells w i
  obtain ⟨hop, hw⟩ | ⟨hop, hw⟩ | ⟨hop, hw⟩ | ⟨hop, hw⟩ | ⟨hop, hw⟩ | ⟨hop, hw⟩ | ⟨hop, hw⟩ | ⟨hop, hw⟩ | ⟨hop, hw⟩ |
    ⟨hop, hw⟩ | ⟨-, x, hw⟩ := decode_cases w <;> rw [hw] at h
  · exact decodeOp_spells hop h
  · exact decodeOpImm_spells hop h
  · cases h
    have hword := encU_fields w
    rw [hop] at hword
    exact ⟨isImmUpper_immU w, hword⟩
  · cases h
    have hword := encU_fields w
    rw [hop] at hword
    exact ⟨isImmUpper_immU w, hword⟩
  · cases h
    have hword := encJ_fields w
    rw [hop] at hword
    exact ⟨isImm21Even_immJ w, hword⟩
  · split_ifs at h with hf3
    cases h
    have hword := encI_fields w
    rw [hop, hf3] at hword
    exact ⟨isImm12_immI w, hword⟩
  · exact decodeBranch_spells hop h
  · split_ifs at h with hf3
    cases h
    have hword := encI_fields w
    rw [hop, hf3] at hword
    exact ⟨isImm12_immI w, hword⟩
  · split_ifs at h with hf3
    cases h
    have hword := encS_fields w
    rw [hop, hf3] at hword
    exact ⟨isImm12_immS w, hword⟩
  · exact decodeSystem_spells hop h
  · cases h

/-! ## The table of R98 -/

/-- A word is its six fields (R88). -/
theorem word_ext_fields {x y : Word} : x = y ↔ fFunct7 x = fFunct7 y ∧ fRs2 x = fRs2 y ∧ fRs1 x = fRs1 y ∧
    fFunct3 x = fFunct3 y ∧ fRd x = fRd y ∧ fOpcode x = fOpcode y := by
  constructor
  · rintro rfl
    simp only [and_self]
  · rintro ⟨h7, h2, h1, h3, hd, hop⟩
    rw [← encR_fields x, ← encR_fields y, h7, h2, h1, h3, hd, hop]

theorem regBits_inj {r q : RegId} : regBits r = regBits q ↔ r = q :=
  ⟨fun h => congrArg regOfBits h, congrArg regBits⟩

/-- A word and a mask agree with a row's bits exactly when they do field by field. -/
theorem masked_eq_iff {w m b : Word} : w &&& m = b ↔
    fFunct7 w &&& fFunct7 m = fFunct7 b ∧ regBits (fRs2 w) &&& regBits (fRs2 m) = regBits (fRs2 b) ∧
    regBits (fRs1 w) &&& regBits (fRs1 m) = regBits (fRs1 b) ∧ fFunct3 w &&& fFunct3 m = fFunct3 b ∧
    regBits (fRd w) &&& regBits (fRd m) = regBits (fRd b) ∧ fOpcode w &&& fOpcode m = fOpcode b := by
  rw [word_ext_fields]
  simp only [← regBits_inj]
  simp only [fFunct7, fRs2, fRs1, fFunct3, fRd, fOpcode, BitVec.extractLsb'_and, regBits_regOfBits]

/-- A field that a mask covers whole. -/
theorem and_ones : (∀ b : BitVec 7, b &&& 127#7 = b) ∧ (∀ b : BitVec 5, b &&& 31#5 = b) ∧
    ∀ b : BitVec 3, b &&& 7#3 = b :=
  ⟨fun _ => BitVec.and_allOnes, fun _ => BitVec.and_allOnes, fun _ => BitVec.and_allOnes⟩

/-- The constructors of `Instr` stand in the table's order, and an instruction's word matches its row. -/
theorem encode_matches_row (i : Instr) :
    ∃ row, decoderTable[i.ctorIdx]? = some row ∧ encode i &&& row.mask = row.bits := by
  cases i <;> refine ⟨_, rfl, masked_eq_iff.2 ?_⟩ <;>
    simp only [encode, fields_encR, fields_encI, fields_encShift, fields_encS, fields_encB, fields_encU, fields_encJ,
      fields_encCsr] <;>
    simp [fFunct7, fRs2, fRs1, fFunct3, fRd, fOpcode] <;> rfl

/-- A row that matches gives the decoder's record. -/
theorem referenceDecoder_of_match {w : Word} : ∀ row ∈ decoderTable, w &&& row.mask = row.bits →
    referenceDecoder w = some (row.record w) := by
  simp only [decoderTable, tableOp, tableImm, tableRest, List.forall_mem_append, List.forall_mem_cons, List.not_mem_nil,
    false_imp_iff, implies_true, and_true, masked_eq_iff]
  and_intros
  all_goals
    intro h
    simp [fFunct7, fRs2, fRs1, fFunct3, fRd, fOpcode, and_ones] at h
    simp [fFunct7, fRs2, fRs1, fFunct3, fRd, fOpcode, referenceDecoder, decode, decodeOp, decodeOpImm, decodeBranch,
      decodeSystem, h]
    exact ⟨_, rfl, rfl⟩

/-- A word that matches no row is refused. -/
theorem referenceDecoder_of_no_match {w : Word} (h : ∀ row ∈ decoderTable, w &&& row.mask ≠ row.bits) :
    referenceDecoder w = none := by
  cases hdec : decode w with
  | error x => simp [referenceDecoder, hdec, Except.toOption]
  | ok i =>
    obtain ⟨row, hget, hmatch⟩ := encode_matches_row i
    obtain ⟨-, hword⟩ := encodeDecodedWord w i hdec
    rw [hword] at hmatch
    exact absurd hmatch (h row (List.mem_of_getElem? hget))

/-- Settles O7: a row that matches gives the decoder's record, and a word without one is refused. -/
theorem decoderFollowsTable : Obligations.DecoderFollowsTable := by
  refine ⟨fun w => ?_, by decide⟩
  unfold tableDecoder
  cases hrow : decoderTable.find? fun r => w &&& r.mask == r.bits with
  | some row =>
    exact referenceDecoder_of_match row (List.mem_of_find?_eq_some hrow) (by simpa using List.find?_some hrow)
  | none => exact referenceDecoder_of_no_match (by simpa using hrow)

/-- Settles O8, by running the decoder on each word. -/
theorem sampleWordsDecode : Obligations.SampleWordsDecode := by
  unfold Obligations.SampleWordsDecode
  decide

/-- Settles O9, by running the decoder on each word. -/
theorem sampleWordsRefused : Obligations.SampleWordsRefused := by
  unfold Obligations.SampleWordsRefused
  decide

end Sys2Proof
end

section
/-! PROOF. The memory protocol (20_memory.md, 40_uncached_port.md, 41_cache_engine.md): what a request leaves of the
cache it reaches, the four operations on a component in order, and the statements about them. -/

namespace Sys2Proof

open Machine Safety

/-! ## What a request leaves of its cache (R142 to R146, R150) -/

/-- The cache `c'` that a request of tag `t` leaves of `c`, when a missing line is filled from `mem`. -/
structure Safety.Requested (p : Params) (mem : Memory) (c c' : Cache) (t : Nat) : Prop where
  ok : CacheOk p c'
  capacity : c'.capacity = c.capacity
  recency : ∃ l, c'.recency = t :: l ∧ l.Sublist c.recency ∧ t ∉ l
  line : c'.line? t = some ((c.line? t).getD (fillLine mem t))
  length : c'.resident.length =
    if t ∈ c.recency then c.resident.length else min (c.resident.length + 1) (fullLines p c)
  coherent : Coherent mem c → Coherent mem c'

/-- The tag of a request stands in the resident set after it. -/
theorem Safety.Requested.mem_keys {p : Params} {mem : Memory} {c c' : Cache} {t : Nat} (h : Requested p mem c c' t) :
    t ∈ Assoc.keys c'.resident := Assoc.find?_isSome_iff.1 (Option.isSome_iff_exists.2 ⟨_, h.line⟩)

section
variable {p : Params} {c : Cache} {t : Nat}

/-- A miss evicts exactly when the cache is full (R145, R159). -/
theorem Safety.CacheOk.overCapacity_iff (h : CacheOk p c) (hc : CapacityLegal p c.capacity) :
    overCapacity p.evictOnReach (c.resident.length + 1) c.capacity = true ↔ c.resident.length = fullLines p c := by
  have hsize := h.size
  unfold overCapacity fullLines
  cases he : p.evictOnReach with
  | false => simp; omega
  | true =>
    have hreach := h.reach he
    have hcap := hc.2 he
    simp
    omega

theorem Safety.CacheOk.length_le_full (h : CacheOk p c) : c.resident.length ≤ fullLines p c := by
  have hsize := h.size
  unfold fullLines
  cases he : p.evictOnReach with
  | false => simpa using hsize
  | true =>
    have hreach := h.reach he
    simp
    omega

/-- A hit keeps every line and moves the tag to the front (R142, R146, R150). -/
theorem Safety.CacheOk.requested_hit (h : CacheOk p c) (ht : t ∈ c.recency) (mem : Memory) :
    Requested p mem c ((c.remove t).pushFront t) t where
  ok := h.touch ht
  capacity := rfl
  recency := ⟨_, rfl, List.erase_sublist, fun hm => (h.nodup.mem_erase_iff.1 hm).1 rfl⟩
  line := by
    obtain ⟨ln, hl⟩ := h.line_of_hit ht
    rw [Cache.touch_line?, hl, Option.getD_some]
  length := by rw [Cache.touch_resident, if_pos ht]
  coherent hcoh := hcoh

/-- A miss inserts the BackingStore's line at the front, evicting the tail of a full cache (R144 to R146, R150). -/
theorem Safety.CacheOk.requested_miss (h : CacheOk p c) (hc : CapacityLegal p c.capacity) (ht : t ∉ c.recency)
    (ht4 : t % lineBytes = 0) (htn : t < p.memBytes) (mem : Memory) :
    ∃ c' o, c.allocate p.evictOnReach t (fillLine mem t) = some (c', o) ∧ Requested p mem c (c'.pushFront t) t := by
  obtain ⟨c', o, ha, hcase⟩ := h.allocate hc ht (fillLine mem t)
  have hfull := h.overCapacity_iff hc
  have hle := h.length_le_full
  have hcap : c'.capacity = c.capacity := by
    obtain ⟨-, hfree⟩ | ⟨-, v, old, hev⟩ := hcase
    · rw [hfree.cache]
    · rw [hev.cache]
  have hsub : c'.recency.Sublist c.recency := by
    obtain ⟨-, hfree⟩ | ⟨-, v, old, hev⟩ := hcase
    · rw [hfree.cache]
    · rw [hev.cache]
      exact List.erase_sublist
  have hline : c'.line? t = some (fillLine mem t) := by
    obtain ⟨-, hfree⟩ | ⟨-, v, old, hev⟩ := hcase
    · simp [hfree.line?]
    · simp [hev.line?]
  have hlen : c'.resident.length = min (c.resident.length + 1) (fullLines p c) := by
    obtain ⟨hov, hfree⟩ | ⟨hov, v, old, hev⟩ := hcase
    · have hne : c.resident.length ≠ fullLines p c := fun e => by simp [hfull.2 e] at hov
      rw [hfree.length h ht]
      omega
    · rw [hev.length h ht]
      have := hfull.1 hov
      omega
  exact ⟨c', o, ha, {
    ok := h.push_allocate hc ht ht4 htn ha
    capacity := hcap
    recency := ⟨_, rfl, hsub, fun hm => ht (hsub.subset hm)⟩
    line := by simp [hline, h.line_of_miss ht]
    length := by simp [ht, hlen]
    coherent := fun hcoh => show Coherent mem c' from hcoh.allocate ha }⟩

end

/-! ## Requests on a component in order -/

theorem Safety.tagOf_inRange {p : Params} {a : Word} (ha : a.toNat < p.memBytes) :
    tagOf a % lineBytes = 0 ∧ tagOf a < p.memBytes :=
  ⟨tagOf_mod a, Nat.lt_of_le_of_lt (tagOf_le a) ha⟩

/-- The write-back of an allocation's victim changes nothing on a coherent data cache (R42, R152). -/
theorem Safety.Coherent.writeBack_allocate {m : Memory} {dc dc' : Cache} {e : Bool} {t : Nat}
    {o : Option (Nat × Line)} (hcoh : Coherent m dc) (hm : m.wf = true)
    (ha : dc.allocate e t (fillLine m t) = some (dc', o)) : Machine.writeBackVictim m o = m := by
  obtain ⟨-, -, rfl⟩ | ⟨-, v, old, -, hold, -, rfl⟩ := Cache.allocate_cases ha
  · rfl
  · obtain he | hmem := Assoc.mem_insert (Assoc.mem_of_find? hold)
    · cases he
      exact writeBackLine_coherent hm rfl
    · exact writeBackLine_coherent hm (hcoh _ hmem)

section
variable {p : Params} {m : MemComponent} {a : Word}

/-- A component in order with caches: each is a cache of this hardware, of a capacity that the parameters allow. -/
theorem Safety.MemOk.cached (h : MemOk p m) (hp : p.Legal) {ic dc : Cache} (hf : m.front = .cached ic dc) :
    (CacheOk p ic ∧ CapacityLegal p ic.capacity) ∧ (CacheOk p dc ∧ CapacityLegal p dc.capacity) ∧
      Coherent m.mem dc := by
  have hfront := h.front
  rw [hf] at hfront
  obtain ⟨-, hicap, hdcap, hic, hdc, hcoh⟩ := hfront
  obtain ⟨hi, hd⟩ := capacityLegal_of hp
  exact ⟨⟨hic, hicap ▸ hi⟩, ⟨hdc, hdcap ▸ hd⟩, hcoh⟩

/-- A component in order keeps that when a cache is replaced by what a request leaves of it. -/
theorem Safety.MemOk.replace_icache (h : MemOk p m) {n : MemComponent} {ic ic' dc : Cache} {t : Nat}
    (hf : m.front = .cached ic dc) (hr : Requested p m.mem ic ic' t) (hmem : n.mem = m.mem)
    (hn : n.front = .cached ic' dc) : MemOk p n := by
  have hfront := h.front
  rw [hf] at hfront
  obtain ⟨hmodel, hicap, hdcap, -, hdc, hcoh⟩ := hfront
  refine ⟨hmem ▸ h.wf, hmem ▸ h.bound, ?_⟩
  rw [hn, hmem]
  exact ⟨hmodel, hr.capacity.trans hicap, hdcap, hr.ok, hdc, hcoh⟩

theorem Safety.MemOk.replace_dcache (h : MemOk p m) {n : MemComponent} {ic dc dc' : Cache} {t : Nat}
    (hf : m.front = .cached ic dc) (hr : Requested p m.mem dc dc' t) (hmem : n.mem = m.mem)
    (hn : n.front = .cached ic dc') : MemOk p n := by
  have hfront := h.front
  rw [hf] at hfront
  obtain ⟨hmodel, hicap, hdcap, hic, -, hcoh⟩ := hfront
  refine ⟨hmem ▸ h.wf, hmem ▸ h.bound, ?_⟩
  rw [hn, hmem]
  exact ⟨hmodel, hicap, hr.capacity.trans hdcap, hic, hr.ok, hr.coherent hcoh⟩

/-- Only memory and the caches make a component in order. -/
theorem Safety.MemOk.congr (h : MemOk p m) {n : MemComponent} (hmem : n.mem = m.mem) (hfront : n.front = m.front) :
    MemOk p n :=
  ⟨hmem ▸ h.wf, hmem ▸ h.bound, by rw [hmem, hfront]; exact h.front⟩

/-- The fetch request on the Uncached port, in range (R132). -/
theorem Machine.requestFetch_uncached (hf : m.front = .uncached) (ha : a.toNat < p.memBytes) :
    requestFetch p a m = .done { m with fetchAddr := some a, wait := p.uncachedLatency } := by
  simp [requestFetch, requestFetchU, hf, Nat.not_le.2 ha]

/-- The load or store request on the Uncached port, in range (R134). -/
theorem Machine.requestData_uncached {k : OpKind} (hk : k ≠ .other) (hf : m.front = .uncached)
    (ha : a.toNat < p.memBytes) :
    requestData p a k m = .done { m with dataReq := some (a, k), noMem := false, wait := p.uncachedLatency } := by
  cases k with
  | load => simp [requestData, requestDataU, hf, Nat.not_le.2 ha]
  | store => simp [requestData, requestDataU, hf, Nat.not_le.2 ha]
  | other => exact absurd rfl hk

/-- The fetch request on the caches, in range (R146). -/
theorem Safety.MemOk.requestFetch_cached (h : MemOk p m) (hp : p.Legal) (ha : a.toNat < p.memBytes) {ic dc : Cache}
    (hf : m.front = .cached ic dc) :
    ∃ ic', requestFetch p a m = .done { m with
        fetchAddr := some a, wait := if tagOf a ∈ ic.recency then m.wait else p.lineLatency,
        front := .cached ic' dc } ∧ Requested p m.mem ic ic' (tagOf a) := by
  obtain ⟨⟨hic, hicap⟩, -, -⟩ := h.cached hp hf
  by_cases ht : tagOf a ∈ ic.recency
  · refine ⟨_, ?_, hic.requested_hit ht m.mem⟩
    rw [requestFetch_hit hf ha (Cache.hit_iff.2 ht), if_pos ht]
  · obtain ⟨ht4, htn⟩ := tagOf_inRange ha
    obtain ⟨c', o, hal, hreq⟩ := hic.requested_miss hicap ht ht4 htn m.mem
    refine ⟨_, ?_, hreq⟩
    rw [requestFetch_miss hf ha (Cache.hit_false_iff.2 ht) hal, if_neg ht]

/-- The load or store request on the caches, in range; an eviction leaves memory as it is (R42, R150, R152). -/
theorem Safety.MemOk.requestData_cached (h : MemOk p m) (hp : p.Legal) (ha : a.toNat < p.memBytes) {ic dc : Cache}
    (hf : m.front = .cached ic dc) {k : OpKind} (hk : k ≠ .other) :
    ∃ dc', requestData p a k m = .done { m with
        dataReq := some (a, k), noMem := false,
        wait := if tagOf a ∈ dc.recency then m.wait + p.dhitPenalty else p.lineLatency,
        front := .cached ic dc' } ∧ Requested p m.mem dc dc' (tagOf a) := by
  obtain ⟨-, ⟨hdc, hdcap⟩, hcoh⟩ := h.cached hp hf
  by_cases ht : tagOf a ∈ dc.recency
  · refine ⟨_, ?_, hdc.requested_hit ht m.mem⟩
    rw [requestData_hit hk hf ha (Cache.hit_iff.2 ht), if_pos ht]
  · obtain ⟨ht4, htn⟩ := tagOf_inRange ha
    obtain ⟨c', o, hal, hreq⟩ := hdc.requested_miss hdcap ht ht4 htn m.mem
    refine ⟨_, ?_, hreq⟩
    rw [requestData_miss hk hf ha (Cache.hit_false_iff.2 ht) hal, hcoh.writeBack_allocate h.wf hal, if_neg ht]

end

/-! ## The wait counter right after a request (R162) -/

/-- `wait` right after a fetch request of `a`. -/
def Machine.waitAfterFetch (p : Params) (a : Word) (m : MemComponent) : Nat :=
  match m.front with
  | .uncached => p.uncachedLatency
  | .cached ic _ => if tagOf a ∈ ic.recency then m.wait else p.lineLatency

/-- `wait` right after a load or store request of `a`. -/
def Machine.waitAfterData (p : Params) (a : Word) (m : MemComponent) : Nat :=
  match m.front with
  | .uncached => p.uncachedLatency
  | .cached _ dc => if tagOf a ∈ dc.recency then m.wait + p.dhitPenalty else p.lineLatency

section
variable {p : Params} {a : Word} {m m' : MemComponent}

theorem Machine.waitAfterFetch_uncached (hf : m.front = .uncached) : waitAfterFetch p a m = p.uncachedLatency := by
  simp [waitAfterFetch, hf]

theorem Machine.waitAfterFetch_cached {ic dc : Cache} (hf : m.front = .cached ic dc) :
    waitAfterFetch p a m = if tagOf a ∈ ic.recency then m.wait else p.lineLatency := by
  simp [waitAfterFetch, hf]

theorem Machine.waitAfterData_uncached (hf : m.front = .uncached) : waitAfterData p a m = p.uncachedLatency := by
  simp [waitAfterData, hf]

theorem Machine.waitAfterData_cached {ic dc : Cache} (hf : m.front = .cached ic dc) :
    waitAfterData p a m = if tagOf a ∈ dc.recency then m.wait + p.dhitPenalty else p.lineLatency := by
  simp [waitAfterData, hf]

theorem Machine.requestFetch_wait (h : requestFetch p a m = .done m') : m'.wait = waitAfterFetch p a m := by
  obtain ⟨-, ⟨hf, rfl⟩ | ⟨ic, dc, hf, hhit, rfl⟩ | ⟨ic, dc, _, _, hf, hmiss, -, rfl⟩⟩ := requestFetch_done h
  · rw [waitAfterFetch_uncached hf]
  · rw [waitAfterFetch_cached hf, if_pos (Cache.hit_iff.1 hhit)]
  · rw [waitAfterFetch_cached hf, if_neg (Cache.hit_false_iff.1 hmiss)]

theorem Machine.requestData_wait {k : OpKind} (hk : k ≠ .other) (h : requestData p a k m = .done m') :
    m'.wait = waitAfterData p a m := by
  obtain ⟨-, ⟨hf, rfl⟩ | ⟨ic, dc, hf, hhit, rfl⟩ | ⟨ic, dc, _, _, hf, hmiss, -, rfl⟩⟩ := requestData_done hk h
  · rw [waitAfterData_uncached hf]
  · rw [waitAfterData_cached hf, if_pos (Cache.hit_iff.1 hhit)]
  · rw [waitAfterData_cached hf, if_neg (Cache.hit_false_iff.1 hmiss)]

end

/-- Settles O15: by the cases of each request. -/
theorem waitAfterRequest : Obligations.WaitAfterRequest := by
  intro p a k m m'
  refine ⟨fun h => (requestFetch_wait h).trans rfl, fun hk h => (requestData_wait hk h).trans rfl, fun h => ?_⟩
  cases h
  exact ⟨rfl, rfl⟩

/-! ## The operations on a component in order -/

/-- What a fetch request of `a` leaves of a component in order (R132, R146). -/
structure Safety.FetchDone (p : Params) (a : Word) (m m' : MemComponent) : Prop where
  ok : MemOk p m'
  mem : m'.mem = m.mem
  wait : m'.wait = waitAfterFetch p a m
  fetchAddr : m'.fetchAddr = some a
  dataReq : m'.dataReq = m.dataReq
  noMem : m'.noMem = m.noMem
  uncached : m.front = .uncached → m'.front = .uncached
  cached : ∀ ic dc, m.front = .cached ic dc →
    ∃ ic', m'.front = .cached ic' dc ∧ Requested p m.mem ic ic' (tagOf a)

/-- What a load or store request of `a` leaves of a component in order (R134, R150). -/
structure Safety.DataDone (p : Params) (a : Word) (k : OpKind) (m m' : MemComponent) : Prop where
  ok : MemOk p m'
  mem : m'.mem = m.mem
  wait : m'.wait = waitAfterData p a m
  fetchAddr : m'.fetchAddr = m.fetchAddr
  dataReq : m'.dataReq = some (a, k)
  noMem : m'.noMem = false
  uncached : m.front = .uncached → m'.front = .uncached
  cached : ∀ ic dc, m.front = .cached ic dc →
    ∃ dc', m'.front = .cached ic dc' ∧ Requested p m.mem dc dc' (tagOf a)

section
variable {p : Params} {a : Word} {m : MemComponent}

/-- A fetch request in range is done (R143, R251). -/
theorem Safety.MemOk.requestFetch (h : MemOk p m) (hp : p.Legal) (ha : a.toNat < p.memBytes) :
    ∃ m', Machine.requestFetch p a m = .done m' ∧ FetchDone p a m m' := by
  cases hf : m.front with
  | uncached =>
    have hreq := requestFetch_uncached hf ha
    exact ⟨_, hreq, h.congr rfl rfl, rfl, requestFetch_wait hreq, rfl, rfl, rfl, fun _ => hf,
      fun _ _ hc => by simp [hf] at hc⟩
  | cached ic dc =>
    obtain ⟨ic', hreq, hr⟩ := h.requestFetch_cached hp ha hf
    refine ⟨_, hreq, h.replace_icache hf hr rfl rfl, rfl, requestFetch_wait hreq, rfl, rfl, rfl,
      fun hu => by simp [hf] at hu, fun _ _ hc => ?_⟩
    cases hf.symm.trans hc
    exact ⟨ic', rfl, hr⟩

theorem Safety.MemOk.fetchDone (h : MemOk p m) (hp : p.Legal) {m' : MemComponent}
    (hreq : Machine.requestFetch p a m = .done m') : FetchDone p a m m' := by
  obtain ⟨ha, -⟩ := requestFetch_done hreq
  obtain ⟨_, hreq', hdone⟩ := h.requestFetch hp ha
  cases hreq.symm.trans hreq'
  exact hdone

/-- A load or store request in range is done (R251). -/
theorem Safety.MemOk.requestData (h : MemOk p m) (hp : p.Legal) (ha : a.toNat < p.memBytes) {k : OpKind}
    (hk : k ≠ .other) : ∃ m', Machine.requestData p a k m = .done m' ∧ DataDone p a k m m' := by
  cases hf : m.front with
  | uncached =>
    have hreq := requestData_uncached hk hf ha
    exact ⟨_, hreq, h.congr rfl rfl, rfl, requestData_wait hk hreq, rfl, rfl, rfl, fun _ => hf,
      fun _ _ hc => by simp [hf] at hc⟩
  | cached ic dc =>
    obtain ⟨dc', hreq, hr⟩ := h.requestData_cached hp ha hf hk
    refine ⟨_, hreq, h.replace_dcache hf hr rfl rfl, rfl, requestData_wait hk hreq, rfl, rfl, rfl,
      fun hu => by simp [hf] at hu, fun _ _ hc => ?_⟩
    cases hf.symm.trans hc
    exact ⟨dc', rfl, hr⟩

theorem Safety.MemOk.dataDone (h : MemOk p m) (hp : p.Legal) {m' : MemComponent} {k : OpKind} (hk : k ≠ .other)
    (hreq : Machine.requestData p a k m = .done m') : DataDone p a k m m' := by
  obtain ⟨ha, -⟩ := requestData_done hk hreq
  obtain ⟨_, hreq', hdone⟩ := h.requestData hp ha hk
  cases hreq.symm.trans hreq'
  exact hdone

/-- After its request the line of a fetch is resident, if there is an instruction cache (R147). -/
theorem Safety.FetchDone.there {m' : MemComponent} (h : FetchDone p a m m') : FetchLineThere m'.front a := by
  cases hf : m.front with
  | uncached =>
    rw [h.uncached hf]
    trivial
  | cached ic dc =>
    obtain ⟨ic', hf', hr⟩ := h.cached ic dc hf
    rw [hf']
    exact hr.mem_keys

/-- After its request the line of a load or store is resident, if there is a data cache (R155). -/
theorem Safety.DataDone.there {m' : MemComponent} {k : OpKind} (h : DataDone p a k m m') :
    DataLineThere m'.front a := by
  cases hf : m.front with
  | uncached =>
    rw [h.uncached hf]
    trivial
  | cached ic dc =>
    obtain ⟨dc', hf', hr⟩ := h.cached ic dc hf
    rw [hf']
    exact hr.mem_keys

/-- A data request of any kind keeps a component in order. -/
theorem Safety.MemOk.of_requestData (h : MemOk p m) (hp : p.Legal) {m' : MemComponent} {k : OpKind}
    (hreq : Machine.requestData p a k m = .done m') : MemOk p m' := by
  by_cases hk : k = .other
  · subst hk
    cases hreq
    exact h.congr rfl rfl
  · exact (h.dataDone hp hk hreq).ok

/-- A data poll keeps a component in order (R155, R157). -/
theorem Safety.MemOk.of_pollData (h : MemOk p m) (hp : p.Legal) {m' : MemComponent} {k : OpKind} {d w : Word} {b : Bool}
    (hpoll : pollData p a k d m = .ok (b, w, m')) : MemOk p m' := by
  cases b with
  | false =>
    obtain ⟨rfl, -⟩ := pollData_unready hpoll
    exact h
  | true =>
    obtain ⟨-, ⟨-, -, rfl⟩ | ⟨-, -, -, -, rfl⟩ | ⟨-, -, -, -, hs⟩⟩ := pollData_ready hpoll
    · exact h
    · exact h
    · exact h.completeStore hp hs

theorem Safety.MemOk.advance (h : MemOk p m) : MemOk p (advanceCycle m) := h.congr rfl rfl

/-- A data poll changes no cache but the data cache, and there neither the number of lines nor the recency list. -/
theorem Safety.MemOk.pollData_front (h : MemOk p m) (hp : p.Legal) {m' : MemComponent} {k : OpKind} {d w : Word}
    {b : Bool} {ic dc : Cache} (hf : m.front = .cached ic dc) (hpoll : pollData p a k d m = .ok (b, w, m')) :
    ∃ dc', m'.front = .cached ic dc' ∧ dc'.resident.length = dc.resident.length ∧ dc'.recency = dc.recency := by
  cases b with
  | false =>
    obtain ⟨rfl, -⟩ := pollData_unready hpoll
    exact ⟨dc, hf, rfl, rfl⟩
  | true =>
    obtain ⟨-, ⟨-, -, rfl⟩ | ⟨-, -, -, -, rfl⟩ | ⟨-, -, -, -, hs⟩⟩ := pollData_ready hpoll
    · exact ⟨dc, hf, rfl, rfl⟩
    · exact ⟨dc, hf, rfl, rfl⟩
    · obtain ⟨-, ⟨hu, -⟩ | ⟨_, _, ln, hc, hl, rfl⟩⟩ := completeStore_ok hs
      · simp [hf] at hu
      · cases hf.symm.trans hc
        obtain ⟨-, ⟨hdc, -⟩, -⟩ := h.cached hp hf
        have hkey := (hdc.same _).1 (hdc.mem_recency_of_line hl)
        exact ⟨_, rfl, Assoc.length_insert_of_mem hdc.sorted hkey, rfl⟩

end

/-- Settles O25: each operation on a component in order, by the lemma that says what it leaves. -/
theorem operationsKeepCaches : Obligations.OperationsKeepCaches := by
  intro p m hp h
  refine ⟨fun a m' hreq => (h.fetchDone hp hreq).ok, fun a k m' hreq => h.of_requestData hp hreq,
    fun a k d b w m' hpoll => h.of_pollData hp hpoll, h.advance, fun a k ha => ⟨?_, ?_⟩, ?_, ?_, ?_, ?_, ?_⟩
  · obtain ⟨m', hreq, -⟩ := h.requestFetch hp ha
    exact ⟨m', hreq⟩
  · by_cases hk : k = .other
    · exact hk ▸ ⟨_, rfl⟩
    · obtain ⟨m', hreq, -⟩ := h.requestData hp ha hk
      exact ⟨m', hreq⟩
  · intro ic dc a m' hf hreq
    obtain ⟨ic', hf', hr⟩ := (h.fetchDone hp hreq).cached ic dc hf
    exact ⟨ic', hf', hr.length⟩
  · intro ic dc a k m' hk hf hreq
    obtain ⟨dc', hf', hr⟩ := (h.dataDone hp hk hreq).cached ic dc hf
    exact ⟨dc', hf', hr.length⟩
  · exact fun ic dc a k d b w m' hf hpoll => h.pollData_front hp hf hpoll
  · intro ic dc a m' hf hreq
    obtain ⟨ic', hf', hr⟩ := (h.fetchDone hp hreq).cached ic dc hf
    obtain ⟨l, hl⟩ := hr.recency
    exact ⟨ic', l, hf', hl⟩
  · intro ic dc a k m' hk hf hreq
    obtain ⟨dc', hf', hr⟩ := (h.dataDone hp hk hreq).cached ic dc hf
    obtain ⟨l, hl⟩ := hr.recency
    exact ⟨dc', l, hf', hl⟩

/-! ## What a fetch delivers (R133, R147) -/

/-- The Word that a fetch of `a` delivers: the resident line's, else the BackingStore's (R73, R146). -/
def Machine.wordFetched (a : Word) (m : MemComponent) : Word :=
  match m.front with
  | .uncached => m.mem.word (wordIndex a)
  | .cached ic _ =>
    match ic.line? (tagOf a) with
    | some ln => ln[lineOffset a]
    | none => m.mem.word (wordIndex a)

theorem Machine.wordFetched_uncached {a : Word} {m : MemComponent} (hf : m.front = .uncached) :
    wordFetched a m = m.mem.word (wordIndex a) := by
  simp [wordFetched, hf]

theorem Machine.wordFetched_cached {a : Word} {m : MemComponent} {ic dc : Cache} (hf : m.front = .cached ic dc) :
    wordFetched a m = ((ic.line? (tagOf a)).getD (fillLine m.mem (tagOf a)))[lineOffset a] := by
  cases hl : ic.line? (tagOf a) with
  | some ln => simp [wordFetched, hf, hl]
  | none => simp only [wordFetched, hf, hl, Option.getD_none, fillLine_lineOffset]

/-- The poll after a fetch request, when `w` advances are left: the Word once none is (R133, R147). -/
theorem Safety.FetchDone.pollFetch {p : Params} {a : Word} {m m' : MemComponent} (h : FetchDone p a m m')
    (ha : a.toNat < p.memBytes) (w : Nat) :
    Machine.pollFetch p { m' with wait := w } = .ok (if 0 < w then none else some (wordFetched a m)) := by
  by_cases hw : 0 < w
  · rw [if_pos hw]
    exact pollFetch_waiting (m := { m' with wait := w }) h.fetchAddr hw
  · rw [if_neg hw]
    obtain rfl : w = 0 := by omega
    cases hf : m.front with
    | uncached =>
      simp [Machine.pollFetch, h.fetchAddr, h.uncached hf, backingRead, Nat.not_le.2 ha, h.mem, Except.map,
        wordFetched_uncached hf]
    | cached ic dc =>
      obtain ⟨ic', hf', hr⟩ := h.cached ic dc hf
      rw [wordFetched_cached hf]
      exact pollFetch_resident (m := { m' with wait := 0 }) h.fetchAddr rfl hf' hr.line

/-- Settles O17: the request is done, and what it leaves delivers the Word after its wait. -/
theorem cachedFetchDelivers : Obligations.CachedFetchDelivers := by
  intro p m a ic dc hp h hf ha
  obtain ⟨m', hreq, hdone⟩ := h.requestFetch hp ha
  refine ⟨m', hreq, hdone.mem, fun n => ?_⟩
  rw [advanceCycle_iterate, hdone.pollFetch ha]
  by_cases hn : n < m'.wait
  · rw [if_pos (by omega), if_pos hn]
  · rw [if_neg (by omega), if_neg hn]
    cases hl : ic.line? (tagOf a) <;> simp only [wordFetched, hf, hl]

/-! ## A miss in a full cache (R144, R145, R160) -/

/-- The cache after a miss of tag `t` in the full cache `c`, whose least recently used tag is `v`. -/
structure Safety.EvictedTail (mem : Memory) (c c' : Cache) (t v : Nat) : Prop where
  tail : c.recency.getLast? = some v
  recency : c'.recency = t :: c.recency.erase v
  gone : v ∉ c'.recency
  capacity : c'.capacity = c.capacity
  length : c'.resident.length = c.resident.length
  line : ∀ u, c'.line? u = if u = t then some (fillLine mem u) else if u = v then none else c.line? u

theorem Safety.CacheOk.evictedTail {p : Params} {c : Cache} {t : Nat} (h : CacheOk p c)
    (hc : CapacityLegal p c.capacity) (ht : t ∉ c.recency) (hfull : c.resident.length = fullLines p c) (mem : Memory) :
    ∃ c' o v, c.allocate p.evictOnReach t (fillLine mem t) = some (c', o) ∧
      EvictedTail mem c (c'.pushFront t) t v := by
  obtain ⟨c', o, ha, ⟨hov, -⟩ | ⟨-, v, old, hev⟩⟩ := h.allocate hc ht (fillLine mem t)
  · simp [(h.overCapacity_iff hc).2 hfull] at hov
  have hrec : (c'.pushFront t).recency = t :: c.recency.erase v := by
    rw [hev.cache, Cache.pushFront_recency]
  refine ⟨c', o, v, ha, hev.tail, hrec, ?_, ?_, hev.length h ht, fun u => ?_⟩
  · rw [hrec]
    simp [hev.ne, h.nodup.mem_erase_iff]
  · rw [hev.cache, Cache.pushFront_capacity]
  · rw [Cache.pushFront_line?, hev.line?]
    split
    · next hu => rw [hu]
    · rfl

/-- Settles O20: the allocation of a full cache evicts, and the write-back of a coherent data cache changes nothing. -/
theorem fullCacheMissEvictsTail : Obligations.FullCacheMissEvictsTail := by
  intro p m a ic dc hp h hf ha
  obtain ⟨⟨hic, hicap⟩, ⟨hdc, hdcap⟩, hcoh⟩ := h.cached hp hf
  constructor
  · intro ht hfull
    obtain ⟨c', o, v, hal, hev⟩ := hic.evictedTail hicap ht hfull m.mem
    exact ⟨_, v, requestFetch_miss hf ha (Cache.hit_false_iff.2 ht) hal, hev.tail, hev.recency, hev.gone, hev.capacity,
      hev.length, hev.line⟩
  · intro k hk ht hfull
    obtain ⟨c', o, v, hal, hev⟩ := hdc.evictedTail hdcap ht hfull m.mem
    have hreq := requestData_miss hk hf ha (Cache.hit_false_iff.2 ht) hal
    rw [hcoh.writeBack_allocate h.wf hal] at hreq
    exact ⟨_, v, hreq, hev.tail, hev.recency, hev.gone, hev.capacity, hev.length, hev.line⟩

/-! ## The Uncached port, and requests of kind `Other` (R137, R149) -/

/-- Settles O23: the poll of kind `Other` looks at the latch and the flag, which no advance changes. -/
theorem otherRequestIsInstant : Obligations.OtherRequestIsInstant := by
  intro p m a b d
  refine ⟨rfl, fun n => ?_⟩
  rw [advanceCycle_iterate]
  exact pollData_other rfl rfl

/-- Settles O16: `wait` is UNCACHED_LATENCY after the request and one lower after each advance. -/
theorem uncachedLatencyExact : Obligations.UncachedLatencyExact := by
  intro p m a hf
  refine ⟨fun ha => ⟨⟨_, requestFetch_uncached hf ha, fun n => ?_⟩,
    ⟨_, requestData_uncached nofun hf ha, fun n d => ?_⟩, ⟨_, requestData_uncached nofun hf ha, fun n d => ?_⟩⟩,
    _, rfl, fun d => pollData_other rfl rfl⟩
  all_goals
    simp only [advanceCycle_iterate]
    have hin : ¬p.memBytes ≤ a.toNat := Nat.not_le.2 ha
    by_cases hn : n < p.uncachedLatency
  · rw [if_pos hn]
    exact pollFetch_waiting rfl (Nat.sub_pos_of_lt hn)
  · simp [hn, pollFetch, hf, backingRead, hin, Except.map, Nat.sub_eq_zero_of_le (Nat.not_lt.1 hn)]
  · rw [if_pos hn]
    exact pollData_waiting (pollMatches_iff.2 ⟨a, rfl, .inr rfl⟩) rfl (Nat.sub_pos_of_lt hn)
  · rw [if_neg hn]
    refine pollData_load_ready rfl rfl (Nat.sub_eq_zero_of_le (Nat.not_lt.1 hn)) ?_ d
    simp [completeLoad, hf, backingRead, hin]
  · rw [if_pos hn]
    exact pollData_waiting (pollMatches_iff.2 ⟨a, rfl, .inr rfl⟩) rfl (Nat.sub_pos_of_lt hn)
  · rw [if_neg hn]
    refine pollData_store (pollMatches_iff.2 ⟨a, rfl, .inr rfl⟩) rfl (Nat.sub_eq_zero_of_le (Nat.not_lt.1 hn)) ?_
    simp [completeStore, hf, backingWrite, hin, Except.map]

/-! ## The low two address bits (R59) -/

/-- The address with its low two bits cleared. -/
theorem Machine.toNat_clearLow (a : Word) : (a &&& ~~~(3 : Word)).toNat = a.toNat / 4 * 4 := by
  have h : a &&& ~~~(3 : Word) = (a >>> 2) <<< 2 := by
    apply BitVec.eq_of_getLsbD_eq
    intro i hi
    have hm : (~~~(3 : Word)).getLsbD i = decide (2 ≤ i) := by
      have : ∀ i : Fin 32, (~~~(3 : Word)).getLsbD i = decide (2 ≤ i.val) := by decide
      exact this ⟨i, hi⟩
    rw [BitVec.getLsbD_and, hm, BitVec.getLsbD_shiftLeft, BitVec.getLsbD_ushiftRight]
    by_cases h2 : i < 2
    · simp [h2, show ¬2 ≤ i by omega]
    · simp [h2, hi, show 2 ≤ i by omega, show 2 + (i - 2) = i by omega]
  have ha := a.isLt
  rw [h, BitVec.toNat_shiftLeft, BitVec.toNat_ushiftRight, Nat.shiftRight_eq_div_pow, Nat.shiftLeft_eq]
  omega

section
variable (a : Word)

theorem Machine.tagOf_clearLow : tagOf (a &&& ~~~(3 : Word)) = tagOf a := by
  rw [tagOf_eq, tagOf_eq, toNat_clearLow]
  omega

theorem Machine.wordIndex_clearLow : wordIndex (a &&& ~~~(3 : Word)) = wordIndex a := by
  rw [wordIndex_eq, wordIndex_eq, toNat_clearLow]
  omega

theorem Machine.lineOffset_clearLow : lineOffset (a &&& ~~~(3 : Word)) = lineOffset a := by
  apply Fin.ext
  rw [lineOffset_val, lineOffset_val, toNat_clearLow]
  omega

theorem Machine.clearLow_inRange {n : Nat} {a : Word} (ha : a.toNat < n) : (a &&& ~~~(3 : Word)).toNat < n := by
  rw [toNat_clearLow]
  omega

end

/-- Settles O14: the tag, the word index and the line offset are those of the cleared address, which is in range too. -/
theorem lowAddressBitsIgnored : Obligations.LowAddressBitsIgnored := by
  intro p m a d k ha
  have hb := clearLow_inRange ha
  have htag := tagOf_clearLow a
  refine ⟨fun m' h => ?_, fun m' h => ?_, ?_, ?_, ?_⟩
  · obtain ⟨-, ⟨hf, rfl⟩ | ⟨ic, dc, hf, hhit, rfl⟩ | ⟨ic, dc, ic', o, hf, hmiss, hal, rfl⟩⟩ := requestFetch_done h
    · exact requestFetch_uncached hf hb
    · rw [← htag] at hhit ⊢
      exact requestFetch_hit hf hb hhit
    · rw [← htag] at hmiss hal ⊢
      exact requestFetch_miss hf hb hmiss hal
  · by_cases hk : k = .other
    · subst hk
      cases h
      rfl
    obtain ⟨-, ⟨hf, rfl⟩ | ⟨ic, dc, hf, hhit, rfl⟩ | ⟨ic, dc, dc', o, hf, hmiss, hal, rfl⟩⟩ := requestData_done hk h
    · exact requestData_uncached hk hf hb
    · rw [← htag] at hhit ⊢
      exact requestData_hit hk hf hb hhit
    · rw [← htag] at hmiss hal ⊢
      exact requestData_miss hk hf hb hmiss hal
  all_goals
    simp only [pollFetch, completeLoad, completeStore, backingRead, backingWrite, htag, wordIndex_clearLow,
      lineOffset_clearLow, Nat.not_le.2 ha, Nat.not_le.2 hb, if_false]

end Sys2Proof
end

section
/-! PROOF. Addresses, the BackingStore and what stands in it before the first edge (20_memory.md), and the core as it is
created and reset (70_reset_and_hazards.md). -/

namespace Sys2Proof

open Machine Safety

/-! ## Addresses and Words -/

theorem Machine.toNat_wordOffset (a : Word) : (wordOffset a).toNat = a.toNat / 4 := wordIndex_eq a

theorem Machine.toNat_lineTag (a : Word) : (lineTag a).toNat = a.toNat / 64 * 64 := tagOf_eq a

/-- Settles O11: both reconstructions put a multiple of 64 and a multiple of 4 below 64 together. -/
theorem addressDecomposition : Obligations.AddressDecomposition := by
  intro a
  have ha := a.isLt
  have hoff := lineOffset_val a
  refine ⟨toNat_wordOffset a, rfl, tagOf_mod a, by rw [hoff, toNat_wordOffset], ?_, ?_⟩
  · apply BitVec.eq_of_toNat_eq
    have hsum := Nat.shiftLeft_add_eq_or_of_lt (show a.toNat / 4 % 16 * 4 < 2 ^ 6 by omega) (a.toNat / 64)
    rw [Nat.shiftLeft_eq] at hsum
    rw [BitVec.toNat_or, toNat_lineTag, BitVec.toNat_ofNat, hoff, toNat_clearLow,
      Nat.mod_eq_of_lt (show a.toNat / 4 % 16 * 4 < 2 ^ 32 by omega), ← hsum]
    omega
  · apply BitVec.eq_of_toNat_eq
    rw [BitVec.toNat_add, toNat_lineTag, BitVec.toNat_ofNat, toNat_wordOffset, toNat_clearLow]
    omega

theorem toNat_append_byte {n : Nat} (x : BitVec n) (b : Byte) : (x ++ b).toNat = 256 * x.toNat + b.toNat := by
  rw [BitVec.toNat_append, ← Nat.shiftLeft_add_eq_or_of_lt b.isLt, Nat.shiftLeft_eq]
  omega

/-- Settles O13: a Word is four bytes appended. -/
theorem wordIsLittleEndian : Obligations.WordIsLittleEndian := by
  intro m w
  simp only [Memory.word, toNat_append_byte]
  omega

theorem Machine.wordIndex_eq_iff (a b : Word) : wordIndex b = wordIndex a ↔ b >>> 2 = a >>> 2 := BitVec.toNat_inj

/-- Settles O12: by the bound test, and read after write for Words. -/
theorem backingStoreAccess : Obligations.BackingStoreAccess := by
  intro n m a v
  refine ⟨fun h => ⟨if_pos h, if_pos h⟩, fun ha => ⟨?_, _, if_neg (Nat.not_le.2 ha), fun b hb => ?_⟩⟩
  · rw [backingRead, if_neg (Nat.not_le.2 ha), wordIndex_eq]
  · rw [backingRead, if_neg (Nat.not_le.2 hb), Memory.word_setWord]
    simp only [wordIndex_eq_iff]
    rw [wordIndex_eq]

/-! ## Image loading (R66) -/

theorem Memory.wf_writeBytes {m : Memory} (h : m.wf = true) (a : Nat) (bs : List Byte) :
    (Memory.writeBytes m a bs).wf = true := by
  induction bs generalizing m a with
  | nil => exact h
  | cons b bs ih => exact ih (Memory.wf_write h a b) _

/-- The bytes after consecutive bytes are written. -/
theorem Memory.read_writeBytes (m : Memory) (a : Nat) (bs : List Byte) (x : Nat) :
    (Memory.writeBytes m a bs).read x = if a ≤ x ∧ x < a + bs.length then bs.getD (x - a) 0 else m.read x := by
  induction bs generalizing m a with
  | nil => rw [if_neg (by simp)]; rfl
  | cons b bs ih =>
    rw [Memory.writeBytes, ih, Memory.read_write, List.length_cons]
    by_cases hx : x = a
    · subst hx
      rw [if_neg (by omega), if_pos rfl, if_pos (by omega), Nat.sub_self]
      rfl
    · by_cases hin : a + 1 ≤ x ∧ x < a + 1 + bs.length
      · rw [if_pos hin, if_pos (by omega), show x - a = x - (a + 1) + 1 by omega]
        rfl
      · rw [if_neg hin, if_neg hx, if_neg (by omega)]

/-- The addresses listed after bytes are written stay below any bound that holds before and above the last byte. -/
theorem Memory.bound_writeBytes {m : Memory} {n a : Nat} {bs : List Byte} (h : ∀ e ∈ m, e.1 < n)
    (ha : a + bs.length ≤ n) : ∀ e ∈ Memory.writeBytes m a bs, e.1 < n := by
  induction bs generalizing m a with
  | nil => exact h
  | cons b bs ih =>
    rw [List.length_cons] at ha
    refine ih (fun e he => ?_) (by omega)
    obtain he | he := Memory.mem_write he
    · omega
    · exact h e he

/-- What a segment becomes in memory: its file part, then zeros (R66). -/
def Machine.Segment.image (g : Segment) : List Byte :=
  g.bytes.take g.fileSize ++ List.replicate (g.memSize - g.fileSize) 0

/-- A segment that loads passed the three tests (R66, R67). -/
theorem Machine.loadSegment_ok {n : Nat} {m m' : Memory} {g : Segment} (h : loadSegment n m g = .ok m') :
    g.fileSize ≤ g.memSize ∧ g.paddr + g.memSize ≤ n ∧ g.fileSize ≤ g.bytes.length ∧
      m' = Memory.writeBytes m g.paddr g.image := by
  unfold loadSegment at h
  split_ifs at h with h1 h2 h3
  cases h
  exact ⟨by omega, by omega, by omega, rfl⟩

theorem Machine.Segment.length_image {g : Segment} (h1 : g.fileSize ≤ g.memSize) (h2 : g.fileSize ≤ g.bytes.length) :
    g.image.length = g.memSize := by
  simp [Segment.image]
  omega

/-- Settles O3: the segment's image is written from its physical address on. -/
theorem loadedSegmentBytes : Obligations.LoadedSegmentBytes := by
  intro n m m' g h
  obtain ⟨hsize, hbound, hdata, rfl⟩ := loadSegment_ok h
  refine ⟨fun hm => Memory.wf_writeBytes hm _ _, hbound, hsize, fun a => ?_⟩
  rw [Memory.read_writeBytes, Segment.length_image hsize hdata]
  by_cases hfile : g.paddr ≤ a ∧ a < g.paddr + g.fileSize
  · have hpart : a - g.paddr < (g.bytes.take g.fileSize).length := by
      rw [List.length_take]
      omega
    rw [if_pos hfile, if_pos (by omega), Segment.image, List.getD_append _ _ _ _ hpart]
    simp [List.getD, show a - g.paddr < g.fileSize by omega]
  · rw [if_neg hfile]
    by_cases hzero : g.paddr ≤ a ∧ a < g.paddr + g.memSize
    · have hpart : (g.bytes.take g.fileSize).length ≤ a - g.paddr := by
        rw [List.length_take]
        omega
      rw [if_pos hzero, if_pos hzero, Segment.image, List.getD_append_right _ _ _ _ hpart]
      simp [List.getD]
    · rw [if_neg hzero, if_neg hzero]

/-! ## A placed word (notes/assumptions 9) -/

/-- The lines of a patched cache: the address's own line, if it is resident, with the Word replaced. -/
theorem Machine.Cache.patchWord_line? (c : Cache) (a v : Word) :
    (c.patchWord a v).line? (tagOf a) = (c.line? (tagOf a)).map fun ln => ln.set (lineOffset a) v := by
  unfold Cache.patchWord
  cases hl : c.line? (tagOf a) with
  | none => simp only [hl, Option.map_none]
  | some ln => simp only [Cache.storeWord_line?, if_true, Option.map_some]

theorem Machine.Cache.patchWord_capacity (c : Cache) (a v : Word) : (c.patchWord a v).capacity = c.capacity := by
  unfold Cache.patchWord
  split <;> rfl

theorem Safety.CacheOk.patchWord {p : Params} {c : Cache} (h : CacheOk p c) (a v : Word) :
    CacheOk p (c.patchWord a v) := by
  unfold Cache.patchWord
  split
  · exact h
  · next hl => exact h.storeWord hl

/-- A write to a Word of a line that is not resident keeps the cache coherent. -/
theorem Safety.Coherent.setWord_of_miss {p : Params} {m : Memory} {dc : Cache} (hcoh : Coherent m dc) (h : CacheOk p dc)
    {a : Word} (hl : dc.line? (tagOf a) = none) (v : Word) : Coherent (m.setWord (wordIndex a) v) dc := by
  intro e he
  have hkey := List.mem_map_of_mem (f := Prod.fst) he
  have htag : e.1 ≠ tagOf a := fun heq => by
    obtain ⟨ln, hln⟩ := Assoc.exists_find?_of_mem hkey
    rw [heq] at hln
    exact absurd (hl.symm.trans hln) (by simp)
  rw [hcoh e he]
  apply fillLine_congr
  intro i hi
  rw [Memory.word_setWord, if_neg]
  rw [wordIndex_iff hi (h.tags _ hkey).1]
  exact fun hx => htag hx.1

/-- A patched data cache agrees with the memory that holds the placed word. -/
theorem Safety.Coherent.patchWord {p : Params} {m : Memory} {dc : Cache} (hcoh : Coherent m dc) (h : CacheOk p dc)
    (a v : Word) : Coherent (m.setWord (wordIndex a) v) (dc.patchWord a v) := by
  unfold Cache.patchWord
  split
  · next hl => exact hcoh.setWord_of_miss h hl v
  · next hl => exact hcoh.store h hl

theorem ofNat_mod_word (w : Nat) : BitVec.ofNat 32 (w % 2 ^ 32) = BitVec.ofNat 32 w :=
  BitVec.eq_of_toNat_eq (by simp)

section
variable (s : State) (w : Nat)

@[simp] theorem Machine.State.withFetchWord_ip : (s.withFetchWord 32 w).ip = s.ip := rfl

theorem Machine.State.withFetchWord_mem :
    (s.withFetchWord 32 w).memc.mem = s.memc.mem.setWord (wordIndex s.ip) (BitVec.ofNat 32 w) := by
  rw [← ofNat_mod_word]
  rfl

theorem Machine.State.withFetchWord_front :
    (s.withFetchWord 32 w).memc.front = s.memc.front.patchWord s.ip (BitVec.ofNat 32 w) := by
  rw [← ofNat_mod_word]
  rfl

theorem Machine.State.withFetchWord_word :
    (s.withFetchWord 32 w).memc.mem.word (wordIndex s.ip) = BitVec.ofNat 32 w := by
  rw [State.withFetchWord_mem, Memory.word_setWord, if_pos rfl]

end

/-- Settles O4: the placed word stands in memory and in each resident line of its address. -/
theorem placedWordIsFetched : Obligations.PlacedWordIsFetched := by
  intro s w
  refine ⟨?_, State.withFetchWord_word s w, fun h hin hp => ⟨?_, ?_, ?_⟩⟩
  · show wordFetched (s.withFetchWord 32 w).ip (s.withFetchWord 32 w).memc = _
    have hfront := State.withFetchWord_front s w
    cases hf : s.memc.front with
    | uncached =>
      rw [hf] at hfront
      rw [wordFetched_uncached hfront]
      exact State.withFetchWord_word s w
    | cached ic dc =>
      rw [hf] at hfront
      rw [wordFetched_cached hfront, State.withFetchWord_ip, Cache.patchWord_line?]
      cases hl : ic.line? (tagOf s.ip) with
      | none => simp only [Option.map_none, Option.getD_none, fillLine_lineOffset, State.withFetchWord_word]
      | some ln => simp
  · rw [State.withFetchWord_mem]
    exact Memory.wf_setWord h.wf _ _
  · rw [State.withFetchWord_mem]
    exact Memory.bound_setWord h.bound (slot_inRange hp hin)
  · rw [State.withFetchWord_front, State.withFetchWord_mem]
    have hfront := h.front
    cases hf : s.memc.front with
    | uncached =>
      rw [hf] at hfront
      exact hfront
    | cached ic dc =>
      rw [hf] at hfront
      obtain ⟨hmodel, hicap, hdcap, hic, hdc, hcoh⟩ := hfront
      exact ⟨hmodel, (Cache.patchWord_capacity ..).trans hicap, (Cache.patchWord_capacity ..).trans hdcap,
        hic.patchWord .., hdc.patchWord .., hcoh.patchWord hdc _ _⟩

/-! ## Power-on, boot and reset (R280 to R282) -/

/-- The launch values: REG_INIT for every register but `x0` (R26). -/
theorem Machine.RegFile.launch_read (p : Params) {i : RegId} (hi : i ≠ 0) :
    (RegFile.launch p).read i = p.regInit[i] := by
  have h0 : ¬(0 : Nat) = i.val := fun e => hi (Fin.ext e.symm)
  have hcell : (RegFile.launch p).cells[i] = p.regInit[i].getD 0 := by
    simp [RegFile.launch, h0]
  have hflag : (RegFile.launch p).noValue[i] = p.regInit[i].isNone := by
    simp [RegFile.launch, h0]
  rw [RegFile.read, if_neg hi, hcell, hflag]
  cases p.regInit[i] <;> rfl

/-- Settles O1: field by field of the state as it is created. -/
theorem powerOnState : Obligations.PowerOnState := by
  intro p
  refine ⟨rfl, rfl, rfl, rfl, rfl, fun i hi => RegFile.launch_read p hi, fun _ => rfl, rfl, fun _ => rfl, rfl, rfl, rfl,
    rfl, rfl, fun h => ?_, fun h => ?_⟩
  · show Front.create p = _
    rw [Front.create, h]
  · refine ⟨Cache.empty p.icacheLines, Cache.empty p.dcacheLines, ?_, rfl, rfl, rfl, rfl, rfl, rfl⟩
    show Front.create p = _
    rw [Front.create, h]

/-- Settles O2: field by field; the fetch after the reset waits as any fetch does (R162). -/
theorem cpuResetEffects : Obligations.CpuResetEffects := by
  intro s v
  refine ⟨rfl, rfl, rfl, fun _ => rfl, rfl, fun _ => rfl, rfl, rfl, rfl, fun ic dc u hf _ hu => ?_⟩
  obtain ⟨m, hreq, rfl⟩ := fetchStep_done hu
  exact (requestFetch_wait hreq).trans (waitAfterFetch_cached hf)

theorem Safety.cacheOk_empty {p : Params} {n : Nat} (hn : CapacityLegal p n) : CacheOk p (Cache.empty n) where
  sorted := List.Pairwise.nil
  nodup := List.Pairwise.nil
  same _ := Iff.rfl
  tags _ ht := absurd ht List.not_mem_nil
  size := Nat.zero_le _
  reach _ := hn.1

/-- The caches a core is created with are in order, whatever memory an image gives it (R44, R281). -/
theorem Safety.memOk_create {p : Params} (hp : p.Legal) {mem : Memory} (hwf : mem.wf = true)
    (hbound : ∀ e ∈ mem, e.1 < p.memBytes) : MemOk p { MemComponent.create p with mem := mem } := by
  obtain ⟨hi, hd⟩ := capacityLegal_of hp
  refine ⟨hwf, hbound, ?_⟩
  show FrontOk p mem (Front.create p)
  unfold Front.create
  cases hm : p.memModel with
  | uncached => exact hm
  | cached => exact ⟨hm, rfl, rfl, cacheOk_empty hi, cacheOk_empty hd, fun _ he => absurd he List.not_mem_nil⟩

/-- Loading an image keeps memory canonical and below its bound (R66). -/
theorem Machine.loadImage_ok {n : Nat} {m m' : Memory} {gs : List Segment} (h : loadImage n m gs = .ok m')
    (hwf : m.wf = true) (hbound : ∀ e ∈ m, e.1 < n) : m'.wf = true ∧ ∀ e ∈ m', e.1 < n := by
  induction gs generalizing m with
  | nil =>
    cases h
    exact ⟨hwf, hbound⟩
  | cons g gs ih =>
    rw [loadImage] at h
    cases hg : loadSegment n m g with
    | error e => simp [hg] at h
    | ok m1 =>
      rw [hg] at h
      obtain ⟨hsize, hfit, hdata, rfl⟩ := loadSegment_ok hg
      refine ih h (Memory.wf_writeBytes hwf _ _) (Memory.bound_writeBytes hbound ?_)
      rw [Segment.length_image hsize hdata]
      exact hfit

/-- A boot that does not fail loaded its image into the memory of the core as created, and reset it (R282). -/
theorem Machine.boot_ok {p : Params} {image : List Segment} {s : State} (h : boot p image = .ok s) :
    ∃ mem, loadImage p.memBytes [] image = .ok mem ∧
      s = ({ State.powerOn p with memc := { MemComponent.create p with mem := mem } }).cpuReset p.resetIp := by
  unfold boot bootSegments at h
  cases hm : loadImage p.memBytes [] image with
  | error e => simp [hm] at h
  | ok mem =>
    rw [hm] at h
    cases h
    exact ⟨mem, rfl, rfl⟩

/-- Settles O39: the created caches are empty, and an image leaves memory canonical and in bounds. -/
theorem bootGivesInv : Obligations.BootGivesInv := by
  refine ⟨fun p hp => ⟨hp, rfl, memOk_create hp rfl fun _ he => absurd he List.not_mem_nil, trivial⟩,
    fun p image s hp h => ?_⟩
  obtain ⟨mem, hload, rfl⟩ := boot_ok h
  obtain ⟨hwf, hbound⟩ := loadImage_ok hload rfl fun _ he => absurd he List.not_mem_nil
  exact ⟨⟨hp, rfl, memOk_create hp hwf hbound, trivial⟩, rfl, rfl, rfl, rfl⟩

end Sys2Proof
end

section
/-! PROOF. The clock edges of the CPU Controller (45_cpu_controller.md), for any collaborators: the DecodeExecute edge
(R233, R234), what a faulting edge leaves as it is (R250), and a step as the edges of one instruction (R231). -/

namespace Sys2Proof

open Machine Safety

section
variable {ρ κ : Type} {K : Collaborators ρ κ} {s u : State ρ κ} {r r1 : Record} {f : Fault} {w : Word}

/-! ## Operand read, forward (R234, R255) -/

theorem Machine.readOperands_of_sources {v1 v2 : Word} (h1 : s.readSource K r.rs1 = .ok v1)
    (h2 : s.readSource K r.rs2 = .ok v2) :
    s.readOperands K r = .ok { r with v1 := v1, v2 := v2, csrVal := s.readCsrValue K r.csr } := by
  simp only [State.readOperands, h1, h2]

theorem Machine.readSource_unset {i : RegId} (h : K.regs.read s.regs i = none) :
    s.readSource K (some i) = .error (.uninit i) := State.readReg_none h

/-- The first source without a value is the one the operand read names. -/
theorem Machine.readOperands_unset_rs1 {i : RegId} (hi : r.rs1 = some i) (h : K.regs.read s.regs i = none) :
    s.readOperands K r = .error (.uninit i) := by
  simp only [State.readOperands, hi, readSource_unset h]

/-- A source with a value, or an absent one, is read. -/
theorem Machine.readSource_total {o : Option RegId} (h : ∀ i, o = some i → K.regs.read s.regs i ≠ none) :
    ∃ v, s.readSource K o = .ok v := by
  cases o with
  | none => exact ⟨0, rfl⟩
  | some i =>
    obtain ⟨v, hv⟩ := Option.ne_none_iff_exists'.1 (h i rfl)
    exact ⟨v, readSource_some hv⟩

theorem Machine.readOperands_unset_rs2 {j : RegId} (h1 : ∀ i, r.rs1 = some i → K.regs.read s.regs i ≠ none)
    (hj : r.rs2 = some j) (h : K.regs.read s.regs j = none) : s.readOperands K r = .error (.uninit j) := by
  obtain ⟨v, hv⟩ := readSource_total h1
  simp only [State.readOperands, hv, hj, readSource_unset h]

/-! ## The DecodeExecute edge (R233) -/

theorem Machine.issue_of_error (h : s.readOperands K r = .error f) : issue K r s = .raised f s := by
  simp only [issue, h]

/-- The DecodeExecute work whose data request raises. -/
theorem Machine.issue_of_raised {m : MemComponent} (hr : s.readOperands K r = .ok r1)
    (hm : requestData s.params (execute r1 s.ip).addr r.kind.opKind s.memc = .raised f m) :
    issue K r s = .raised f { s with memc := m } := by
  have hk : r1.kind = r.kind := by
    obtain ⟨_, _, _, _, rfl⟩ := readOperands_ok hr
    rfl
  simp only [issue, hr]
  rw [execute_kind, hk, hm]

/-- A load or store request at or above MEM_BYTES (R134, R150, R251). -/
theorem Machine.requestData_outOfRange {p : Params} {a : Word} {k : OpKind} {m : MemComponent} (hk : k ≠ .other)
    (ha : p.memBytes ≤ a.toNat) :
    requestData p a k m = .raised (.addr a) { m with dataReq := some (a, k), noMem := false } := by
  cases k with
  | other => exact absurd rfl hk
  | load => cases hf : m.front <;> simp [requestData, hf, requestDataU, requestDataC, ha]
  | store => cases hf : m.front <;> simp [requestData, hf, requestDataU, requestDataC, ha]

section
variable (hp : s.phase = .decodeExecute) (hpoll : pollFetch s.params s.memc = .ok (some w))
include hp hpoll

/-- The edge on which the decoder refuses the delivered word (R253). -/
theorem Machine.clockEdgeWith_refused (hr : s.fault = none) (hd : K.decoder w = none) :
    clockEdgeWith K s = (s.tick K).raise (.decode w) := by
  apply clockEdgeWith_raised hr
  rw [cpuStep_decodeExecute (s := s.tick K) hp]
  simp only [decodeExecuteStep, State.tick_params, State.tick_memc, hpoll, hd]

/-- The edge on which the decoder returns a malformed record (R254). -/
theorem Machine.clockEdgeWith_malformed (hr : s.fault = none) (hd : K.decoder w = some r) (hw : r.wellFormed = false) :
    clockEdgeWith K s = (s.tick K).raise (.record w) := by
  apply clockEdgeWith_raised hr
  rw [cpuStep_decodeExecute (s := s.tick K) hp]
  simp [decodeExecuteStep, hpoll, hd, hw]

theorem Machine.cpuStep_issue (hd : K.decoder w = some r) (hw : r.wellFormed = true) :
    cpuStep K (s.tick K) = issue K r (s.tick K) := by
  rw [cpuStep_decodeExecute (s := s.tick K) hp]
  simp [decodeExecuteStep, hpoll, hd, hw]

/-- The edge on which the delivered instruction is issued. -/
theorem Machine.clockEdgeWith_issue (hr : s.fault = none) (hd : K.decoder w = some r) (hw : r.wellFormed = true)
    (h : issue K r (s.tick K) = .done u) : clockEdgeWith K s = u.advance :=
  clockEdgeWith_done hr ((cpuStep_issue hp hpoll hd hw).trans h)

/-- The edge on which the delivered instruction faults. -/
theorem Machine.clockEdgeWith_issue_raised (hr : s.fault = none) (hd : K.decoder w = some r) (hw : r.wellFormed = true)
    (h : issue K r (s.tick K) = .raised f u) : clockEdgeWith K s = u.raise f :=
  clockEdgeWith_raised hr ((cpuStep_issue hp hpoll hd hw).trans h)

end

end

/-- Settles O60: the operands are those of the declared sources, and the edge is the issue of the record. -/
theorem decodeExecuteEdge : Obligations.DecodeExecuteEdge := by
  intro ρ κ K s w v1 v2 cv r m hr hp hpoll hd hw h1n h1 h2n h2 hcn hc e hreq
  have src : ∀ {o : Option RegId} {v : Word}, (o = none → v = 0) → (∀ i, o = some i → K.regs.read s.regs i = some v) →
      (s.tick K).readSource K o = .ok v := by
    intro o v hn hs
    cases o with
    | none => rw [readSource_none, hn rfl]
    | some i => exact readSource_some (s := s.tick K) (hs i rfl)
  have hcsr : (s.tick K).readCsrValue K r.csr = cv := by
    cases hrc : r.csr with
    | none => exact (hcn hrc).symm
    | some c => exact (hc c hrc).symm
  have hops := readOperands_of_sources (src h1n h1) (src h2n h2)
  rw [hcsr] at hops
  rw [clockEdgeWith_issue hp hpoll hr hd hw (issue_of_parts (s := s.tick K) hops hreq)]
  rfl

/-- Settles O32: each fault is raised at its place in the order, before what comes after it is looked at. -/
theorem faultPriority : Obligations.FaultPriority := by
  intro ρ κ K s hr
  refine ⟨fun hp hip => ?_, fun w hp hpoll => ⟨fun hd => ?_, fun r hd => ⟨fun hw => ?_, fun hw => ⟨fun i hi hun => ?_,
    fun h1 => ⟨fun j hj hun => ?_, fun h2 r1 hops hk ha => ?_⟩⟩⟩⟩⟩
  · have hfetch : fetchStep (s.tick K) = .raised (.addr s.ip) { s.tick K with instr := none } := by
      cases hf : s.memc.front <;> simp [fetchStep, requestFetch, requestFetchU, requestFetchC, hf, hip, State.tick]
    rw [clockEdgeWith_raised hr ((cpuStep_fetch (s := s.tick K) hp).trans hfetch), State.raise_fault]
  · rw [clockEdgeWith_refused hp hpoll hr hd, State.raise_fault]
  · rw [clockEdgeWith_malformed hp hpoll hr hd hw, State.raise_fault]
  · rw [clockEdgeWith_issue_raised hp hpoll hr hd hw (issue_of_error (readOperands_unset_rs1 (s := s.tick K) hi hun)),
      State.raise_fault]
  · rw [clockEdgeWith_issue_raised hp hpoll hr hd hw
      (issue_of_error (readOperands_unset_rs2 (s := s.tick K) h1 hj hun)), State.raise_fault]
  · have hkind : r.kind.opKind ≠ .other := by
      obtain hk | hk := hk <;> simp [hk, Kind.opKind]
    rw [clockEdgeWith_issue_raised hp hpoll hr hd hw
      (issue_of_raised (s := s.tick K) hops (requestData_outOfRange hkind ha)), State.raise_fault]
    rfl

/-! ## A fault leaves the rest as it is (R250) -/

section
variable {ρ κ : Type} {K : Collaborators ρ κ} {s u : State ρ κ} {f : Fault}

/-- `u` is `s` but for the in-flight record and the data latch and flag. -/
def Machine.DiffersInLatches (s u : State ρ κ) : Prop :=
  ∃ i q b, u = { s with instr := i, memc := { s.memc with dataReq := q, noMem := b } }

theorem Machine.DiffersInLatches.refl (s : State ρ κ) : DiffersInLatches s s :=
  ⟨s.instr, s.memc.dataReq, s.memc.noMem, rfl⟩

/-- A DecodeExecute step that raises (R233): in the poll, in the decoder, or in the issue of a well-formed record. -/
theorem Machine.decodeExecuteStep_raised (h : decodeExecuteStep K s = .raised f u) :
    (u = s ∧ pollFetch s.params s.memc = .error f) ∨
    ∃ w, pollFetch s.params s.memc = .ok (some w) ∧
      ((u = s ∧ K.decoder w = none ∧ f = .decode w) ∨
       ∃ r, K.decoder w = some r ∧ ((u = s ∧ r.wellFormed = false ∧ f = .record w) ∨
         (r.wellFormed = true ∧ issue K r s = .raised f u))) := by
  unfold decodeExecuteStep at h
  split at h
  · next hpoll =>
    cases h
    exact .inl ⟨rfl, hpoll⟩
  · cases h
  · next w hpoll =>
    refine .inr ⟨w, hpoll, ?_⟩
    split at h
    · next hd =>
      cases h
      exact .inl ⟨rfl, hd, rfl⟩
    · next r hd =>
      refine .inr ⟨r, hd, ?_⟩
      split at h
      · next hw => exact .inr ⟨hw, h⟩
      · next hw =>
        cases h
        exact .inl ⟨rfl, by simpa using hw, rfl⟩

/-- What a step that raises has changed: the in-flight record and the data latch and flag, at most (R250). -/
theorem Machine.cpuStep_raised (h : cpuStep K s = .raised f u) : DiffersInLatches s u := by
  cases hp : s.phase with
  | fetch =>
    rw [cpuStep_fetch hp] at h
    obtain ⟨m, hreq, rfl⟩ := fetchStep_raised h
    obtain ⟨rfl, -⟩ := requestFetch_raised hreq
    exact ⟨none, _, _, rfl⟩
  | decodeExecute =>
    rw [cpuStep_decodeExecute hp] at h
    obtain ⟨rfl, -⟩ | ⟨w, -, ⟨rfl, -⟩ | ⟨r, -, ⟨rfl, -⟩ | ⟨-, hissue⟩⟩⟩ := decodeExecuteStep_raised h
    · exact .refl _
    · exact .refl _
    · exact .refl _
    · obtain ⟨-, rfl⟩ | ⟨_, m, -, hreq, rfl⟩ := issue_raised hissue
      · exact .refl _
      · obtain ⟨-, rfl, -⟩ := requestData_raised hreq
        exact ⟨s.instr, _, _, rfl⟩
  | writeback =>
    rw [cpuStep_writeback hp] at h
    obtain ⟨rfl, -⟩ := writebackStep_raised h
    exact .refl _

/-- A DecodeExecute step that is done waited, or issued a well-formed record (R233). -/
theorem Machine.decodeExecuteStep_done_cases (h : decodeExecuteStep K s = .done u) :
    (pollFetch s.params s.memc = .ok none ∧ u = s) ∨
    ∃ w r, pollFetch s.params s.memc = .ok (some w) ∧ K.decoder w = some r ∧ r.wellFormed = true ∧
      issue K r s = .done u := by
  unfold decodeExecuteStep at h
  split at h
  · cases h
  · next hpoll =>
    cases h
    exact .inl ⟨hpoll, rfl⟩
  · next w hpoll =>
    split at h
    · cases h
    · next r hd =>
      split at h
      · next hw => exact .inr ⟨w, r, hpoll, hd, hw, h⟩
      · cases h

/-- A step that is done changes neither the parameters nor the recorded fault. -/
theorem Machine.cpuStep_done_keeps (h : cpuStep K s = .done u) : u.params = s.params ∧ u.fault = s.fault := by
  cases hp : s.phase with
  | fetch =>
    rw [cpuStep_fetch hp] at h
    obtain ⟨_, -, rfl⟩ := fetchStep_done h
    exact ⟨rfl, rfl⟩
  | decodeExecute =>
    rw [cpuStep_decodeExecute hp] at h
    obtain ⟨-, rfl⟩ | ⟨_, _, -, -, -, hissue⟩ := decodeExecuteStep_done_cases h
    · exact ⟨rfl, rfl⟩
    · obtain ⟨_, _, -, -, rfl⟩ := issue_done hissue
      exact ⟨rfl, rfl⟩
  | writeback =>
    rw [cpuStep_writeback hp] at h
    obtain ⟨_, -, ⟨_, _, -, rfl⟩ | ⟨_, _, -, rfl⟩⟩ := writebackStep_done h
    · exact ⟨rfl, rfl⟩
    · exact ⟨State.commit_params .., State.commit_fault ..⟩

/-- The edge of a running state that faults has raised. -/
theorem Machine.clockEdgeWith_fault (hr : s.fault = none) (h : (clockEdgeWith K s).fault = some f) :
    ∃ u, cpuStep K (s.tick K) = .raised f u ∧ clockEdgeWith K s = u.raise f := by
  cases hstep : cpuStep K (s.tick K) with
  | raised g u =>
    have hu := clockEdgeWith_raised hr hstep
    rw [hu, State.raise_fault] at h
    cases h
    exact ⟨u, rfl, hu⟩
  | done u =>
    rw [clockEdgeWith_done hr hstep, State.advance_fault, (cpuStep_done_keeps hstep).2, State.tick_fault, hr] at h
    cases h

theorem Machine.clockEdgeWith_stopped (h : s.fault = some f) : clockEdgeWith K s = s := by
  unfold clockEdgeWith
  rw [h]

theorem Machine.clockEdgesWith_stopped (h : s.fault = some f) (n : Nat) : clockEdgesWith K n s = s := by
  induction n with
  | zero => rfl
  | succ n ih => rw [clockEdgesWith, clockEdgeWith_stopped h, ih]

end

/-- Settles O29: a stopped state is looked at no further, and a raise leaves out all that comes after it. -/
theorem stoppedModelStays : Obligations.StoppedModelStays := by
  refine ⟨fun ρ κ K s f n v h => ⟨clockEdgeWith_stopped h, clockEdgesWith_stopped h n, stepBy_stopped h, h⟩,
    fun s f n h => ⟨clockEdgesWith_stopped h n, stepBy_stopped h⟩, fun ρ κ K s hr h => ?_, fun a w v i =>
    ⟨rfl, rfl, rfl, rfl, rfl⟩⟩
  obtain ⟨f, hf⟩ := Option.ne_none_iff_exists'.1 h
  obtain ⟨u, hstep, hedge⟩ := clockEdgeWith_fault hr hf
  obtain ⟨_, _, _, rfl⟩ := cpuStep_raised hstep
  rw [hedge]
  exact ⟨rfl, rfl, rfl, rfl, rfl⟩

/-! ## A step is the edges of one instruction (R231, R237) -/

section
variable {ρ κ : Type} (K : Collaborators ρ κ)

/-- Neither at a Fetch phase nor in fault: the state inside an instruction. -/
def Machine.Inside (s : State ρ κ) : Prop := s.phase ≠ .fetch ∧ s.fault = none

/-- The `n`-th edge from `s` is the first that retires an instruction or faults, and it ends in the outcome `o`. -/
def Machine.EndsAfter (n : Nat) (s : State ρ κ) (o : Host.Outcome (State ρ κ) Fault Refusal) : Prop :=
  0 < n ∧ (∀ k, 0 < k → k < n → Inside (clockEdgesWith K k s)) ∧
    match o with
    | .next t => clockEdgesWith K n s = t ∧ t.phase = .fetch ∧ t.fault = none
    | .fault f => (clockEdgesWith K n s).fault = some f
    | .refused _ => False

variable {K} {s u t : State ρ κ} {f : Fault} {o : Host.Outcome (State ρ κ) Fault Refusal}

theorem Machine.EndsAfter.fault_one (h : (clockEdgeWith K s).fault = some f) : EndsAfter K 1 s (.fault f) :=
  ⟨Nat.one_pos, fun _ _ _ => by omega, h⟩

theorem Machine.EndsAfter.next_one (h : clockEdgeWith K s = t) (hp : t.phase = .fetch) (hf : t.fault = none) :
    EndsAfter K 1 s (.next t) :=
  ⟨Nat.one_pos, fun _ _ _ => by omega, h, hp, hf⟩

/-- What the edges after the first `m` end in, when those stay inside the instruction. -/
theorem Machine.EndsAfter.after {m n : Nat} (h : EndsAfter K n (clockEdgesWith K m s) o)
    (hm : ∀ k, 0 < k → k ≤ m → Inside (clockEdgesWith K k s)) : EndsAfter K (m + n) s o := by
  obtain ⟨hpos, hquiet, hend⟩ := h
  simp only [← clockEdgesWith_add] at hquiet hend
  refine ⟨by omega, fun k hk hkn => ?_, hend⟩
  by_cases hkm : k ≤ m
  · exact hm k hk hkm
  · have hlater := hquiet (k - m) (by omega) (by omega)
    rwa [show m + (k - m) = k by omega] at hlater

/-- The same after one edge. -/
theorem Machine.EndsAfter.after_one {n : Nat} (h : EndsAfter K n (clockEdgeWith K s) o)
    (hin : Inside (clockEdgeWith K s)) : EndsAfter K (1 + n) s o :=
  EndsAfter.after (m := 1) h fun k hk hk1 => by
    obtain rfl : k = 1 := by omega
    exact hin

/-- The same after stall edges. -/
theorem Machine.EndsAfter.after_stall {m n : Nat} (h : EndsAfter K n (stall K m s) o) (hin : Inside s)
    (hstall : ∀ k ≤ m, clockEdgesWith K k s = stall K k s) : EndsAfter K (m + n) s o := by
  rw [← hstall m le_rfl] at h
  refine h.after fun k _ hk => ?_
  rw [hstall k hk]
  exact ⟨by rw [stall_phase]; exact hin.1, by rw [stall_fault]; exact hin.2⟩

/-! ### The Writeback phase -/

/-- The ready Writeback edge ends the instruction as `finish` says. -/
theorem Machine.finish_edge (hr : s.fault = none) (hp : s.phase = .writeback) (hready : dataStalls s = 0) :
    EndsAfter K 1 s (finish K s) := by
  have hw := cpuStep_writeback (K := K) (s := s.tick K) hp
  simp only [finish, hready, stall, edge]
  cases hstep : writebackStep K (s.tick K) with
  | raised f v => exact .fault_one (by rw [clockEdgeWith_raised hr (hw.trans hstep), State.raise_fault])
  | done v =>
    refine .next_one (clockEdgeWith_done hr (hw.trans hstep)) ?_ ?_
    · obtain ⟨r, -, ⟨d, m, hpoll, -⟩ | ⟨d, m, -, rfl⟩⟩ := writebackStep_done hstep
      · obtain ⟨-, -, hno, hwait⟩ := pollData_unready hpoll
        rw [State.tick_memc] at hno hwait
        simp [dataStalls, hno] at hready
        omega
      · rfl
    · rw [State.advance_fault, (cpuStep_done_keeps (hw.trans hstep)).2]
      exact hr

/-- A Writeback phase whose record, or whose data request, is missing faults on its first edge, and `finish` says so. -/
theorem Machine.finish_of_raised (hr : s.fault = none) (hp : s.phase = .writeback)
    (h : ∀ n, writebackStep K ((stall K n s).tick K) = .raised f ((stall K n s).tick K)) :
    EndsAfter K 1 s (finish K s) := by
  have hfirst := cpuStep_writeback (K := K) (s := s.tick K) hp
  simp only [finish, edge, h]
  exact .fault_one (by rw [clockEdgeWith_raised hr (hfirst.trans (h 0)), State.raise_fault])

/-- The Writeback phase of a record whose data request is latched: its stall edges and its ready edge (R235, R237). -/
theorem Machine.finish_edges_latched {r : Record} (hr : s.fault = none) (hp : s.phase = .writeback)
    (hi : s.instr = some r) (hm : pollMatches r.addr r.kind.opKind s.memc = true) :
    EndsAfter K (dataStalls s + 1) s (finish K s) := by
  have hready : dataStalls (stall K (dataStalls s) s) = 0 := by
    cases hno : s.memc.noMem <;> simp [dataStalls, hno]
  have hlast := finish_edge (K := K) (s := stall K (dataStalls s) s) (by rw [stall_fault, hr]) (by rw [stall_phase, hp])
    hready
  have hsame : finish K (stall K (dataStalls s) s) = finish K s := by simp only [finish, hready, stall]
  rw [hsame] at hlast
  exact hlast.after_stall ⟨by rw [hp]; simp, hr⟩ fun k hk => clockEdgesWith_writeback_stall hr hp hi hm hk

/-- The Writeback phase of any state ends as `finish` says. -/
theorem Machine.finish_edges (hr : s.fault = none) (hp : s.phase = .writeback) :
    ∃ n, EndsAfter K n s (finish K s) ∧ n ≤ dataStalls s + 1 := by
  cases hi : s.instr with
  | none =>
    refine ⟨1, finish_of_raised (f := .impossible) hr hp fun n => ?_, by omega⟩
    simp only [writebackStep, State.tick_instr, stall_instr, hi]
  | some r =>
    by_cases hm : pollMatches r.addr r.kind.opKind s.memc = true
    · exact ⟨_, finish_edges_latched hr hp hi hm, le_rfl⟩
    · refine ⟨1, finish_of_raised (f := .poll) hr hp fun n => ?_, by omega⟩
      have hm' : pollMatches r.addr r.kind.opKind (stall K n s).memc = false := by
        rw [stall_memc]
        simpa [pollMatches] using hm
      simp only [writebackStep, State.tick_instr, stall_instr, hi, pollData, State.tick_memc, hm', Bool.not_false,
        if_true]

/-! ### The DecodeExecute phase -/

/-- How many Writeback edges stall after the issue of a record, at most. -/
def Machine.stallBound (p : Params) : Nat := p.lineLatency + p.uncachedLatency + p.dhitPenalty

theorem Machine.waitAfterData_le (p : Params) (a : Word) (m : MemComponent) :
    waitAfterData p a m ≤ m.wait + stallBound p := by
  unfold waitAfterData stallBound
  split
  · omega
  · split_ifs <;> omega

theorem Machine.waitAfterFetch_le (p : Params) (a : Word) (m : MemComponent) :
    waitAfterFetch p a m ≤ m.wait + p.lineLatency + p.uncachedLatency := by
  unfold waitAfterFetch
  split
  · omega
  · split_ifs <;> omega

/-- The stalls after the issue: none for kind `Other`, else one less than the wait after the data request (R149,
R150). -/
theorem Machine.issue_dataStalls {r : Record} (h : issue K r (s.tick K) = .done u) :
    ∃ r1, (s.tick K).readOperands K r = .ok r1 ∧ dataStalls u.advance =
      if r.kind.opKind = .other then 0 else waitAfterData s.params (execute r1 s.ip).addr s.memc - 1 := by
  obtain ⟨r1, m, hops, hreq, rfl⟩ := issue_done h
  refine ⟨r1, hops, ?_⟩
  by_cases hk : r.kind.opKind = .other
  · rw [hk, requestData_other] at hreq
    cases hreq
    simp [dataStalls, hk]
  · have hwait := requestData_wait hk hreq
    obtain ⟨-, ⟨-, rfl⟩ | ⟨_, _, -, -, rfl⟩ | ⟨_, _, _, _, -, -, -, rfl⟩⟩ := requestData_done hk hreq <;>
      simpa [dataStalls, hk] using congrArg (· - 1) hwait

/-- The issued record is held and its data request is latched. -/
theorem Machine.issue_latched {r : Record} (h : issue K r s = .done u) :
    ∃ r2, u.instr = some r2 ∧ u.phase = .writeback ∧ u.fault = s.fault ∧
      pollMatches r2.addr r2.kind.opKind u.memc = true := by
  obtain ⟨r1, m, hops, hreq, rfl⟩ := issue_done h
  have hkind : (execute r1 s.ip).kind = r.kind := by
    obtain ⟨_, _, _, _, rfl⟩ := readOperands_ok hops
    exact execute_kind ..
  refine ⟨_, rfl, rfl, rfl, pollMatches_iff.2 ⟨(execute r1 s.ip).addr, ?_, .inr rfl⟩⟩
  rw [hkind]
  by_cases hk : r.kind.opKind = .other
  · rw [hk, requestData_other] at hreq
    cases hreq
    rw [hk]
  · obtain ⟨-, ⟨-, rfl⟩ | ⟨_, _, -, -, rfl⟩ | ⟨_, _, _, _, -, -, -, rfl⟩⟩ := requestData_done hk hreq <;> rfl

/-- The edge that issues a well-formed record, and its Writeback phase. -/
theorem Machine.runRecordWith_edges {r : Record} {w : Word} (hr : s.fault = none) (hp : s.phase = .decodeExecute)
    (hpoll : pollFetch s.params s.memc = .ok (some w)) (hd : K.decoder w = some r) (hw : r.wellFormed = true)
    (h : issue K r (s.tick K) = .done u) :
    EndsAfter K (1 + (dataStalls u.advance + 1)) s (runRecordWith K r s) := by
  obtain ⟨r2, hi, hpu, hfu, hm⟩ := issue_latched h
  have hedge := clockEdgeWith_issue hp hpoll hr hd hw h
  have hfin := finish_edges_latched (K := K) (s := u.advance) (hfu.trans hr) hpu hi hm
  rw [runRecordWith_of_issue hr h]
  refine EndsAfter.after_one (by rwa [hedge]) ?_
  rw [hedge]
  exact ⟨by rw [State.advance_phase, hpu]; simp, hfu.trans hr⟩

/-- The edges from the delivery of a word on. -/
theorem Machine.runWord_edges {w : Word} (hr : s.fault = none) (hp : s.phase = .decodeExecute)
    (hpoll : pollFetch s.params s.memc = .ok (some w)) :
    ∃ n, EndsAfter K n s (runWord K w s) ∧ n ≤ 2 + stallBound s.params := by
  unfold runWord
  cases hd : K.decoder w with
  | none => exact ⟨1, .fault_one (by rw [clockEdgeWith_refused hp hpoll hr hd, State.raise_fault]), by omega⟩
  | some r =>
    cases hw : r.wellFormed with
    | false =>
      simp only [hw, Bool.false_eq_true, if_false]
      exact ⟨1, .fault_one (by rw [clockEdgeWith_malformed hp hpoll hr hd hw, State.raise_fault]), by omega⟩
    | true =>
      simp only [hw, if_true]
      cases hissue : issue K r (s.tick K) with
      | raised f v =>
        rw [runRecordWith_of_raised hr hissue]
        exact ⟨1, .fault_one (by rw [clockEdgeWith_issue_raised hp hpoll hr hd hw hissue, State.raise_fault]), by omega⟩
      | done u =>
        refine ⟨_, runRecordWith_edges hr hp hpoll hd hw hissue, ?_⟩
        obtain ⟨r1, -, hstalls⟩ := issue_dataStalls hissue
        have hwait : s.memc.wait = 0 := by
          obtain ⟨_, -, ⟨-, hnone⟩ | ⟨hwait, -⟩ | ⟨hwait, -⟩⟩ := pollFetch_ok hpoll
          · cases hnone
          · exact hwait
          · exact hwait
        have hle := waitAfterData_le s.params (execute r1 s.ip).addr s.memc
        rw [hstalls]
        split_ifs <;> omega

/-- The edges of the DecodeExecute phase, stalls included, and those of the Writeback phase. -/
theorem Machine.deliver_edges (hr : s.fault = none) (hp : s.phase = .decodeExecute) :
    ∃ n, EndsAfter K n s (deliver K (runWord K) s) ∧ n ≤ s.memc.wait + (2 + stallBound s.params) := by
  unfold deliver
  by_cases ha : s.memc.fetchAddr = none
  · have hpoll : ∀ m : MemComponent, m.fetchAddr = none → pollFetch s.params m = .error .poll := fun m hm => by
      simp [pollFetch, hm]
    rw [hpoll _ (by rw [stall_memc]; exact ha)]
    refine ⟨1, .fault_one ?_, by omega⟩
    have hstep : cpuStep K (s.tick K) = .raised .poll (s.tick K) := by
      rw [cpuStep_decodeExecute (s := s.tick K) hp]
      simp only [decodeExecuteStep, State.tick_params, State.tick_memc, hpoll _ ha]
    rw [clockEdgeWith_raised hr hstep, State.raise_fault]
  · have hr' : (stall K s.memc.wait s).fault = none := by rw [stall_fault, hr]
    have hp' : (stall K s.memc.wait s).phase = .decodeExecute := by rw [stall_phase, hp]
    have hstall : ∀ {n o}, EndsAfter K n (stall K s.memc.wait s) o → EndsAfter K (s.memc.wait + n) s o := fun h =>
      h.after_stall ⟨by rw [hp]; simp, hr⟩ fun k hk => clockEdgesWith_decodeExecute_stall hr hp ha hk
    cases hpoll : pollFetch s.params (stall K s.memc.wait s).memc with
    | error f =>
      refine ⟨_, hstall (.fault_one ?_), Nat.add_le_add_left (by omega) _⟩
      have hstep : cpuStep K ((stall K s.memc.wait s).tick K) = .raised f ((stall K s.memc.wait s).tick K) := by
        rw [cpuStep_decodeExecute (s := (stall K s.memc.wait s).tick K) hp']
        simp only [decodeExecuteStep, State.tick_params, stall_params, State.tick_memc, hpoll]
      rw [clockEdgeWith_raised hr' hstep, State.raise_fault]
    | ok o =>
      cases o with
      | none =>
        have hwait := pollFetch_unready hpoll
        simp at hwait
      | some w =>
        obtain ⟨n, hn, hle⟩ := runWord_edges (K := K) hr' hp' (by rwa [stall_params])
        rw [stall_params] at hle
        exact ⟨_, hstall hn, Nat.add_le_add_left hle _⟩

/-! ### A step -/

/-- A step of a running state is its edges up to the first that retires or faults (R231). -/
theorem Machine.stepWith_edges (hr : s.fault = none) :
    ∃ n, EndsAfter K n s (stepWith K s) ∧
      n ≤ 3 + s.memc.wait + 2 * s.params.lineLatency + 2 * s.params.uncachedLatency + s.params.dhitPenalty := by
  have hbound : stallBound s.params = s.params.lineLatency + s.params.uncachedLatency + s.params.dhitPenalty := rfl
  unfold stepWith stepBy
  simp only [hr]
  cases hp : s.phase with
  | fetch =>
    have hfirst := cpuStep_fetch (K := K) (s := s.tick K) hp
    simp only [edge]
    cases hstep : fetchStep (s.tick K) with
    | raised f v =>
      exact ⟨1, .fault_one (by rw [clockEdgeWith_raised hr (hfirst.trans hstep), State.raise_fault]), by omega⟩
    | done u =>
      have hedge := clockEdgeWith_done hr (hfirst.trans hstep)
      obtain ⟨m, hreq, hu⟩ := fetchStep_done hstep
      have hwait := requestFetch_wait hreq
      have hle := waitAfterFetch_le s.params s.ip s.memc
      have hru : u.advance.fault = none := by rw [hu]; exact hr
      have hpu : u.advance.phase = .decodeExecute := by rw [hu]; rfl
      have hparams : u.advance.params = s.params := by rw [hu]; rfl
      have hwu : u.advance.memc.wait = m.wait - 1 := by rw [hu]; rfl
      obtain ⟨n, hn, hle'⟩ := deliver_edges (K := K) hru hpu
      refine ⟨_, EndsAfter.after_one (by rwa [hedge]) (by rw [hedge]; exact ⟨by rw [hpu]; simp, hru⟩), ?_⟩
      rw [hparams, hwu, hwait] at hle'
      simp only [State.tick_params, State.tick_ip, State.tick_memc] at hle'
      omega
  | decodeExecute =>
    obtain ⟨n, hn, hle⟩ := deliver_edges (K := K) hr hp
    exact ⟨n, hn, by omega⟩
  | writeback =>
    obtain ⟨n, hn, hle⟩ := finish_edges (K := K) hr hp
    have hstalls : dataStalls s ≤ s.memc.wait := by
      unfold dataStalls
      split <;> omega
    exact ⟨n, hn, by omega⟩

/-- An edge never changes the parameters (R10). -/
theorem Machine.clockEdgeWith_params (K : Collaborators ρ κ) (s : State ρ κ) :
    (clockEdgeWith K s).params = s.params := by
  cases hf : s.fault with
  | some f => rw [clockEdgeWith_stopped hf]
  | none =>
    cases hstep : cpuStep K (s.tick K) with
    | raised f u =>
      obtain ⟨_, _, _, rfl⟩ := cpuStep_raised hstep
      rw [clockEdgeWith_raised hf hstep]
      rfl
    | done u =>
      rw [clockEdgeWith_done hf hstep, State.advance_params, (cpuStep_done_keeps hstep).1, State.tick_params]

end

/-- The machine's step is the step with the reference collaborators (R6). -/
theorem Machine.step_eq_stepWith (s : State) : step s = stepWith (Collaborators.reference s.params) s := by
  have hrun : ∀ t : State, t.params = s.params →
      deliver (Collaborators.reference s.params) runDecoded t =
        deliver (Collaborators.reference s.params) (runWord (Collaborators.reference s.params)) t := by
    intro t ht
    simp only [deliver, runDecoded_eq, stall_params, ht]
  unfold step stepWith stepBy
  split
  · rfl
  · split
    · split
      · rfl
      · next u hu =>
        obtain ⟨v, hv, rfl⟩ := edge_done hu
        obtain ⟨m, -, rfl⟩ := fetchStep_done hv
        exact hrun _ rfl
    · exact hrun s rfl
    · rfl

theorem Machine.clockEdge_params (s : State) : (clockEdge s).params = s.params := clockEdgeWith_params _ s

theorem Machine.clockEdges_succ (n : Nat) (s : State) : clockEdges (n + 1) s = clockEdges n (clockEdge s) := by
  unfold clockEdges
  rw [clockEdge_params]
  rfl

/-- Settles O35: a step is its edges up to the first that retires or faults, and the machine's collaborators are the
reference ones. -/
theorem stepIsClockEdges : Obligations.StepIsClockEdges := by
  refine ⟨fun ρ κ K s hr => ?_, fun s => ⟨step_eq_stepWith s, fun n => clockEdges_succ n s⟩⟩
  obtain ⟨n, ⟨hpos, hquiet, hend⟩, -⟩ := stepWith_edges (K := K) hr
  refine ⟨fun t ht => ?_, fun f hf => ?_, fun x hx => ?_⟩
  · rw [ht] at hend
    obtain ⟨hn, hp, hf⟩ := hend
    exact ⟨n, hpos, hn, hp, hf, hquiet⟩
  · rw [hf] at hend
    exact ⟨n, hpos, hend, hquiet⟩
  · rw [hx] at hend
    exact hend

/-- Settles O37: the edges of a step end in one of the two, within their bound. -/
theorem controllerNeverHangs : Obligations.ControllerNeverHangs := by
  intro ρ κ K s hr
  obtain ⟨n, ⟨hpos, -, hend⟩, hle⟩ := stepWith_edges (K := K) hr
  refine ⟨n, hpos, hle, ?_⟩
  cases hstep : stepWith K s with
  | next t =>
    rw [hstep] at hend
    obtain ⟨rfl, hp, -⟩ := hend
    exact .inr hp
  | fault f =>
    rw [hstep] at hend
    exact .inl (by simp [show (clockEdgesWith K n s).fault = some f from hend])
  | refused x =>
    rw [hstep] at hend
    exact hend.elim

end Sys2Proof
end

section
/-! PROOF. The invariant of the machine (10_state.md sections 6 and 7, 45_cpu_controller.md sections 1 and 2): every
clock edge, every CPU reset and every step keeps it, and what it says of faults (60_exceptions.md section 1); the clock
edges that an instruction takes (R238). -/

namespace Sys2Proof

open Machine Safety

section
variable {s u : State} {f : Fault}

/-! ## Polls in a state in order (R147, R155) -/

/-- The fetch that a DecodeExecute phase in order has requested: its poll waits, or delivers a Word. -/
theorem Safety.FetchPending.pollFetch (h : FetchPending s) : ∃ o, Machine.pollFetch s.params s.memc = .ok o := by
  by_cases hw : 0 < s.memc.wait
  · exact ⟨none, pollFetch_waiting h.latched hw⟩
  · cases hf : s.memc.front with
    | uncached =>
      refine ⟨some (s.memc.mem.word (wordIndex s.ip)), ?_⟩
      simp [Machine.pollFetch, h.latched, hf, hw, backingRead, Nat.not_le.2 h.inRange, Except.map]
    | cached ic dc =>
      have hthere := h.there
      rw [hf] at hthere
      obtain ⟨ln, hl⟩ := Assoc.exists_find?_of_mem hthere
      exact ⟨_, pollFetch_resident h.latched (by omega) hf hl⟩

/-- A load whose line is there, or which needs none, completes. -/
theorem Machine.completeLoad_there {p : Params} {a : Word} {m : MemComponent} (ha : a.toNat < p.memBytes)
    (hthere : DataLineThere m.front a) : ∃ v, completeLoad p a m = .ok v := by
  cases hf : m.front with
  | uncached => exact ⟨m.mem.word (wordIndex a), by simp [completeLoad, hf, backingRead, Nat.not_le.2 ha]⟩
  | cached ic dc =>
    rw [hf] at hthere
    obtain ⟨ln, hl⟩ := Assoc.exists_find?_of_mem hthere
    exact ⟨_, completeLoad_cached hf hl⟩

/-- A store whose line is there, or which needs none, completes. -/
theorem Machine.completeStore_there {p : Params} {a : Word} {m : MemComponent} (ha : a.toNat < p.memBytes)
    (hthere : DataLineThere m.front a) (d : Word) : ∃ m', completeStore p a d m = .ok m' := by
  cases hf : m.front with
  | uncached =>
    refine ⟨{ m with mem := m.mem.setWord (wordIndex a) d }, ?_⟩
    simp [completeStore, hf, backingWrite, Nat.not_le.2 ha, Except.map]
  | cached ic dc =>
    rw [hf] at hthere
    obtain ⟨ln, hl⟩ := Assoc.exists_find?_of_mem hthere
    exact ⟨_, completeStore_cached hf ha hl⟩

/-- The data request that a Writeback phase in order has made: its poll answers. -/
theorem Safety.DataPending.pollData {r : Record} (h : DataPending s r) :
    ∃ x, Machine.pollData s.params r.addr r.kind.opKind r.data s.memc = .ok x := by
  have hmatch : pollMatches r.addr r.kind.opKind s.memc = true := pollMatches_iff.2 ⟨_, h.latched, .inr rfl⟩
  cases hno : s.memc.noMem with
  | true => exact ⟨_, pollData_noMem hmatch hno⟩
  | false =>
    have hk : r.kind.opKind ≠ .other := by simpa [hno] using h.flag
    by_cases hw : 0 < s.memc.wait
    · exact ⟨_, pollData_waiting hmatch hno hw⟩
    · have hready : s.memc.wait = 0 := by omega
      cases hkind : r.kind.opKind with
      | load =>
        obtain ⟨v, hv⟩ := completeLoad_there (h.inRange hk) (h.there hk)
        exact ⟨_, pollData_load_ready (hkind ▸ h.latched) hno hready hv _⟩
      | store =>
        obtain ⟨m', hm⟩ := completeStore_there (h.inRange hk) (h.there hk) r.data
        exact ⟨_, pollData_store (hkind ▸ hmatch) hno hready hm⟩
      | other => exact absurd hkind hk

/-! ## The invariant over a step of the controller -/

/-- The CSR file (in canonical form), the wait counter and a recorded fault are free: what the tick, the memory advance
and a raise change. -/
theorem Safety.Inv.frame (h : Inv s) {c : CsrFile} (hc : c.wf = true) (w : Nat) (o : Option Fault) :
    Inv { s with csr := c, memc := { s.memc with wait := w }, fault := o } := by
  obtain ⟨hlegal, -, hmem, hphase⟩ := h
  refine ⟨hlegal, hc, hmem.congr rfl rfl, ?_⟩
  cases hp : s.phase with
  | fetch => simp [PhaseOk]
  | decodeExecute =>
    simp only [PhaseOk, hp] at hphase ⊢
    exact ⟨hphase.noInstr, hphase.latched, hphase.inRange, hphase.there⟩
  | writeback =>
    simp only [PhaseOk, hp] at hphase ⊢
    obtain ⟨r, hr⟩ := hphase
    exact ⟨r, hr.held, hr.shape, hr.latched, hr.flag, hr.inRange, hr.there⟩

theorem Safety.Inv.tick (h : Inv s) : Inv (s.tick (Collaborators.reference s.params)) :=
  h.frame (CsrFile.wf_clockTick h.csr _) s.memc.wait s.fault

theorem Safety.Inv.advance (h : Inv s) : Inv s.advance := h.frame h.csr (s.memc.wait - 1) s.fault

theorem Safety.Inv.raise (h : Inv s) (f : Fault) : Inv (s.raise f) := h.frame h.csr s.memc.wait (some f)

theorem Safety.Inv.fetchPending (h : Inv s) (hp : s.phase = .decodeExecute) : FetchPending s := by
  simpa only [PhaseOk, hp] using h.phase

theorem Safety.Inv.dataPending (h : Inv s) (hp : s.phase = .writeback) : ∃ r, DataPending s r := by
  simpa only [PhaseOk, hp] using h.phase

/-- The invariant in the Fetch phase asks nothing of the latches. -/
theorem Safety.inv_of_fetch {t : State} (hlegal : t.params.Legal) (hcsr : t.csr.wf = true)
    (hmem : MemOk t.params t.memc) (hp : t.phase = .fetch) : Inv t :=
  ⟨hlegal, hcsr, hmem, by simp [PhaseOk, hp]⟩

/-- The state after a Fetch step waits for its fetch (R232). -/
theorem Safety.Inv.fetchStep (h : Inv s) (hs : fetchStep s = .done u) : Inv u := by
  obtain ⟨m, hreq, rfl⟩ := fetchStep_done hs
  have hdone := h.mem.fetchDone h.legal hreq
  obtain ⟨ha, -⟩ := requestFetch_done hreq
  exact ⟨h.legal, h.csr, hdone.ok, rfl, hdone.fetchAddr, ha, hdone.there⟩

/-- The state after the issue of a well-formed record waits for its data request (R233, R234). -/
theorem Safety.Inv.issue {K : Collaborators RegFile CsrFile} {r : Record} (h : Inv s) (hw : r.wellFormed = true)
    (hs : issue K r s = .done u) : Inv u := by
  obtain ⟨r1, m, hops, hreq, rfl⟩ := issue_done hs
  obtain ⟨_, _, -, -, rfl⟩ := readOperands_ok hops
  set e := execute _ s.ip with he
  have hkind : e.kind = r.kind := by rw [he, execute_kind]
  have hshape : e.wellFormed = true := by
    rw [he, execute_wellFormed]
    exact hw
  rw [← hkind] at hreq
  refine ⟨h.legal, h.csr, h.mem.of_requestData h.legal hreq, e, ?_⟩
  by_cases hk : e.kind.opKind = .other
  · rw [hk, requestData_other] at hreq
    cases hreq
    exact ⟨rfl, hshape, by rw [hk], by simp [hk], fun hne => absurd hk hne, fun hne => absurd hk hne⟩
  · have hdone := h.mem.dataDone h.legal hk hreq
    obtain ⟨ha, -⟩ := requestData_done hk hreq
    exact ⟨rfl, hshape, hdone.dataReq, by simp [hk, hdone.noMem], fun _ => ha, fun _ => hdone.there⟩

/-- A commit of the machine keeps the CSR file's canonical form (R236). -/
theorem Machine.State.commit_csr_wf (p : Params) (s : State) (r : Record) (h : s.csr.wf = true) :
    (s.commit (Collaborators.reference p) r).csr.wf = true := by
  have hwrite : ((s.writeDest (Collaborators.reference p) r).writeCsr (Collaborators.reference p) r).csr.wf = true := by
    unfold State.writeCsr
    split
    · rw [State.writeDest_csr]
      exact CsrFile.wf_write h _ _ _
    · rwa [State.writeDest_csr]
  exact CsrFile.wf_instructionRetired hwrite p

/-- A step of the controller that is done keeps the invariant. -/
theorem Safety.Inv.cpuStep_done (h : Inv s) {p : Params} (hs : cpuStep (Collaborators.reference p) s = .done u) :
    Inv u := by
  cases hp : s.phase with
  | fetch =>
    rw [cpuStep_fetch hp] at hs
    exact h.fetchStep hs
  | decodeExecute =>
    rw [cpuStep_decodeExecute hp] at hs
    obtain ⟨-, rfl⟩ | ⟨_, _, -, -, hw, hissue⟩ := decodeExecuteStep_done_cases hs
    · exact h
    · exact h.issue hw hissue
  | writeback =>
    rw [cpuStep_writeback hp] at hs
    obtain ⟨r, -, ⟨_, _, -, rfl⟩ | ⟨_, m, hpoll, rfl⟩⟩ := writebackStep_done hs
    · exact h
    · refine inv_of_fetch ?_ (State.commit_csr_wf p _ _ h.csr) ?_ (State.commit_phase ..)
      · rw [State.commit_params]
        exact h.legal
      · rw [State.commit_params, State.commit_memc]
        exact h.mem.of_pollData h.legal hpoll

/-! ## Faults in a state in order (R251 to R257) -/

/-- How a step of the controller raises in a state in order: F_ADDR of `ip` in the Fetch phase, or in the DecodeExecute
phase F_DECODE, F_UNINIT or the data request's F_ADDR, which has set the latch and flag of the data side. -/
inductive Safety.RaisedAs (s : State) : Fault → State → Prop where
  | fetch : s.phase = .fetch → s.params.memBytes ≤ s.ip.toNat → RaisedAs s (.addr s.ip) { s with instr := none }
  | decode (w : Word) : s.phase = .decodeExecute → referenceDecoder w = none → RaisedAs s (.decode w) s
  | uninit (i : RegId) : s.phase = .decodeExecute → s.reg i = none → RaisedAs s (.uninit i) s
  | addr (a : Word) (q : Option (Word × OpKind)) (b : Bool) : s.phase = .decodeExecute → s.params.memBytes ≤ a.toNat →
      RaisedAs s (.addr a) { s with memc := { s.memc with dataReq := q, noMem := b } }

/-- The reference decoder's records are well formed (R83, R254). -/
theorem Machine.referenceDecoder_wellFormed {w : Word} {r : Record} (h : referenceDecoder w = some r) :
    r.wellFormed = true := by
  rw [referenceDecoder_eq, Option.map_eq_some_iff] at h
  obtain ⟨i, -, rfl⟩ := h
  exact toRecord_wellFormed i

/-- The fault of an issue in a state in order: F_UNINIT, or F_ADDR of an address out of range. -/
theorem Safety.Inv.issue_raised (h : Inv s) (hp : s.phase = .decodeExecute) {p : Params} {r : Record}
    (hs : Machine.issue (Collaborators.reference p) r s = .raised f u) : RaisedAs s f u := by
  obtain ⟨herr, rfl⟩ | ⟨r1, m, -, hreq, rfl⟩ := Machine.issue_raised hs
  · obtain ⟨i, rfl, hi, -⟩ := readOperands_error herr
    exact .uninit i hp hi
  · obtain ⟨hk, rfl, ⟨rfl, ha⟩ | ⟨rfl, ha⟩⟩ := requestData_raised hreq
    · exact .addr _ _ _ hp ha
    · obtain ⟨_, hdone, -⟩ := h.mem.requestData h.legal ha hk
      cases hreq.symm.trans hdone

/-- Every fault of a step of the controller in a state in order. -/
theorem Safety.Inv.cpuStep_raised (h : Inv s) {p : Params} (hs : cpuStep (Collaborators.reference p) s = .raised f u) :
    RaisedAs s f u := by
  cases hp : s.phase with
  | fetch =>
    rw [cpuStep_fetch hp] at hs
    obtain ⟨m, hreq, rfl⟩ := fetchStep_raised hs
    obtain ⟨rfl, ⟨rfl, ha⟩ | ⟨-, ha⟩⟩ := requestFetch_raised hreq
    · exact .fetch hp ha
    · obtain ⟨_, hdone, -⟩ := h.mem.requestFetch h.legal ha
      cases hreq.symm.trans hdone
  | decodeExecute =>
    rw [cpuStep_decodeExecute hp] at hs
    obtain ⟨-, hpoll⟩ | ⟨w, -, ⟨rfl, hd, rfl⟩ | ⟨r, hd, ⟨-, hw, -⟩ | ⟨-, hissue⟩⟩⟩ := decodeExecuteStep_raised hs
    · obtain ⟨_, hok⟩ := (h.fetchPending hp).pollFetch
      cases hpoll.symm.trans hok
    · exact .decode w hp hd
    · rw [referenceDecoder_wellFormed hd] at hw
      cases hw
    · exact h.issue_raised hp hissue
  | writeback =>
    rw [cpuStep_writeback hp] at hs
    obtain ⟨r, hr⟩ := h.dataPending hp
    obtain ⟨-, ⟨hnone, -⟩ | ⟨r', hi, hpoll⟩⟩ := writebackStep_raised hs
    · cases hnone.symm.trans hr.held
    · cases hi.symm.trans hr.held
      obtain ⟨_, hok⟩ := hr.pollData
      cases hpoll.symm.trans hok

theorem Safety.RaisedAs.inv (hr : RaisedAs s f u) (h : Inv s) : Inv u := by
  cases hr with
  | fetch hp => exact inv_of_fetch h.legal h.csr h.mem hp
  | decode => exact h
  | uninit => exact h
  | addr _ q b hp =>
    obtain ⟨hi, ha, hn, hl⟩ := h.fetchPending hp
    refine ⟨h.legal, h.csr, h.mem.congr rfl rfl, ?_⟩
    simp only [PhaseOk, hp]
    exact ⟨hi, ha, hn, hl⟩

/-! ## Clock edges and resets -/

/-- A clock edge keeps the invariant: the tick, the step, and then the memory advance or the raise. -/
theorem Safety.Inv.clockEdge (h : Inv s) : Inv (clockEdge s) := by
  unfold Machine.clockEdge
  cases hr : s.fault with
  | some f => rwa [clockEdgeWith_stopped hr]
  | none =>
    cases hstep : cpuStep (Collaborators.reference s.params) (s.tick (Collaborators.reference s.params)) with
    | done u =>
      rw [clockEdgeWith_done hr hstep]
      exact (h.tick.cpuStep_done hstep).advance
    | raised f u =>
      rw [clockEdgeWith_raised hr hstep]
      exact ((h.tick.cpuStep_raised hstep).inv h.tick).raise f

theorem Safety.Inv.cpuReset (h : Inv s) (v : Word) : Inv (s.cpuReset v) :=
  inv_of_fetch h.legal CsrFile.wf_reset h.mem rfl

theorem Safety.Inv.clockEdges (h : Inv s) (n : Nat) : Inv (clockEdges n s) := by
  induction n generalizing s with
  | zero => exact h
  | succ n ih =>
    rw [clockEdges_succ]
    exact ih h.clockEdge

end

/-- Settles O40: the edge by its tick, its step and what comes after it; the reset starts a Fetch phase. -/
theorem invKeptByClockEdge : Obligations.InvKeptByClockEdge := fun _ h => ⟨h.clockEdge, h.cpuReset⟩

section
variable {s t : State} {f : Fault}

/-! ## Steps, runs and reachable states -/

theorem Machine.clockEdges_params (n : Nat) (s : State) : (clockEdges n s).params = s.params := by
  induction n generalizing s with
  | zero => rfl
  | succ n ih => rw [clockEdges_succ, ih, clockEdge_params]

theorem Machine.clockEdges_add (a b : Nat) (s : State) : clockEdges (a + b) s = clockEdges b (clockEdges a s) := by
  unfold clockEdges
  rw [clockEdgesWith_add]
  show _ = clockEdgesWith (Collaborators.reference (clockEdges a s).params) b _
  rw [clockEdges_params]

/-- A step of the machine that answers a next state is its edges up to that state. -/
theorem Machine.step_next (h : step s = .next t) : ∃ n, 0 < n ∧ clockEdges n s = t ∧ t.phase = .fetch ∧ Running t := by
  have hr : s.fault = none := (stepBy_next h).1
  obtain ⟨n, ⟨hpos, -, hend⟩, -⟩ := stepWith_edges (K := Collaborators.reference s.params) hr
  rw [← step_eq_stepWith, h] at hend
  obtain ⟨hn, hp, hf⟩ := hend
  exact ⟨n, hpos, hn, hp, hf⟩

/-- A run of `n + 1` instructions that completes is a step and then a run of `n`. -/
theorem Machine.run_succ_next {M : Host.Core} {n : Nat} {s t : M.State} (h : M.run (n + 1) s = .next t) :
    ∃ u, M.step s = .next u ∧ M.run n u = .next t := by
  rw [Host.Core.run] at h
  split at h
  · exact ⟨_, ‹_›, h⟩
  · cases h
  · cases h

end

/-- Settles O41: a step is a run of clock edges, each of which keeps the invariant. -/
theorem invKeptByStep : Obligations.InvKeptByStep := by
  intro s t h hstep
  obtain ⟨n, -, rfl, hp, hr⟩ := step_next hstep
  exact ⟨h.clockEdges n, hr, clockEdges_params n s, hp⟩

/-- Settles O43, by induction on the number of instructions. -/
theorem safeRunKeepsInv : Obligations.SafeRunKeepsInv := by
  intro n
  induction n with
  | zero =>
    intro s t h hr hp hrun
    cases hrun
    exact ⟨h, hr, hp, rfl, 0, le_rfl, rfl⟩
  | succ n ih =>
    intro s t h hr hp hrun
    obtain ⟨u, hstep, hrest⟩ := run_succ_next (M := core) hrun
    obtain ⟨k, hk, rfl, hpu, hru⟩ := step_next hstep
    obtain ⟨ht, hrt, hpt, hparams, j, hj, hedges⟩ := ih _ t (h.clockEdges k) hru hpu hrest
    exact ⟨ht, hrt, hpt, hparams.trans (clockEdges_params k s), k + j, by omega, (clockEdges_add k j s).trans hedges⟩

/-- Every state that a core of this hardware can be in meets the invariant (R12, R230, R280, R282). -/
theorem Safety.Reachable.inv {s : State} (h : Reachable s) : Inv s := by
  induction h with
  | boot hp hboot => exact (bootGivesInv.2 _ _ _ hp hboot).1
  | edge _ ih => exact ih.clockEdge
  | reset v _ ih => exact ih.cpuReset v

/-- Settles O42: the invariant's coherence, for the Words and for the write-back. -/
theorem dataCacheCoherent : Obligations.DataCacheCoherent := by
  intro s ic dc h hf t ln hl
  obtain ⟨-, -, hcoh⟩ := h.inv.mem.cached h.inv.legal hf
  have hline := hcoh.line hl
  refine ⟨fun o ho => ?_, writeBackLine_coherent h.inv.mem.wf hline⟩
  rw [hline, fillLine_getElem]

/-! ## Faults -/

theorem Machine.decode_of_refused {w : Word} (h : referenceDecoder w = none) : ∃ x, decode w = .error x := by
  cases hd : decode w with
  | error x => exact ⟨x, rfl⟩
  | ok i => simp [referenceDecoder, hd, Except.toOption] at h

/-- A step from a DecodeExecute phase whose poll delivers a Word runs that Word. -/
theorem Machine.step_of_delivered {s : State} {w : Word} (hr : Running s) (hp : s.phase = .decodeExecute)
    (hpoll : pollFetch s.params s.memc = .ok (some w)) : step s = runDecoded w s := by
  have hwait : s.memc.wait = 0 := by
    obtain ⟨_, -, ⟨-, hnone⟩ | ⟨hwait, -⟩ | ⟨hwait, -⟩⟩ := pollFetch_ok hpoll
    · cases hnone
    · exact hwait
    · exact hwait
  have hfault : s.fault = none := hr
  simp only [step, stepBy, hfault, hp, deliver, hwait, stall, hpoll]

/-- Settles O10: the edge on which the decoder refuses the delivered word. -/
theorem refusedWordFaults : Obligations.RefusedWordFaults := by
  intro s w hr hp hpoll hrows
  have hd := referenceDecoder_of_no_match hrows
  have hedge : clockEdge s = (s.tick (Collaborators.reference s.params)).raise (.decode w) :=
    clockEdgeWith_refused hp hpoll hr hd
  obtain ⟨x, hx⟩ := decode_of_refused hd
  rw [hedge]
  refine ⟨rfl, ?_, fun _ => rfl, rfl, rfl, rfl, rfl⟩
  rw [step_of_delivered hr hp hpoll, runDecoded, hx]

/-- An edge of a state in order that faults: it raised in one of the ways of `RaisedAs`, after the edge's CSR tick. -/
theorem Safety.Inv.clockEdge_fault {s : State} {f : Fault} (h : Inv s) (hr : Running s)
    (hf : (Machine.clockEdge s).fault = some f) :
    ∃ u, RaisedAs (s.tick (Collaborators.reference s.params)) f u ∧ Machine.clockEdge s = u.raise f := by
  obtain ⟨u, hstep, hedge⟩ := clockEdgeWith_fault hr hf
  exact ⟨u, h.tick.cpuStep_raised hstep, hedge⟩

/-- Settles O30: in each of the ways an edge can raise, the raise is the edge's first change beside the data latch and
flag. -/
theorem faultsArePrecise : Obligations.FaultsArePrecise := by
  intro s f h hr hf
  obtain ⟨u, hraised, hedge⟩ := h.clockEdge_fault hr hf
  rw [hedge]
  cases hraised with
  | fetch hp => exact ⟨fun _ => rfl, rfl, rfl, rfl, rfl, .inl ⟨hp, rfl⟩⟩
  | decode w hp => exact ⟨fun _ => rfl, rfl, rfl, rfl, rfl, .inr hp⟩
  | uninit i hp => exact ⟨fun _ => rfl, rfl, rfl, rfl, rfl, .inr hp⟩
  | addr a q b hp => exact ⟨fun _ => rfl, rfl, rfl, rfl, rfl, .inr hp⟩

/-- Settles O31: each of the ways an edge can raise has its fault and its cause. -/
theorem controllerFaultKinds : Obligations.ControllerFaultKinds := by
  intro s f h hr hf
  obtain ⟨u, hraised, -⟩ := h.clockEdge_fault hr hf
  cases hraised with
  | fetch hp ha => exact .inl ⟨_, rfl, ha⟩
  | decode w hp hd =>
    obtain ⟨x, hx⟩ := decode_of_refused hd
    exact .inr (.inl ⟨w, x, rfl, hx⟩)
  | uninit i hp hi =>
    refine .inr (.inr ⟨i, rfl, ?_, hi⟩)
    rintro rfl
    simp at hi
  | addr a q b hp ha => exact .inl ⟨a, rfl, ha⟩

/-! ## F_POLL (R131, R252) -/

section
variable {p : Params} {m : MemComponent} {a d : Word} {k : OpKind}

theorem Machine.pollFetch_poll_iff : pollFetch p m = .error .poll ↔ m.fetchAddr = none := by
  cases hf : m.fetchAddr with
  | none => simp [pollFetch, hf]
  | some a =>
    simp only [reduceCtorEq, iff_false]
    simp only [pollFetch, hf]
    split_ifs
    · simp
    · split
      · unfold backingRead
        split_ifs <;> simp [Except.map]
      · split <;> simp

theorem Machine.completeLoad_ne_poll : completeLoad p a m ≠ .error .poll := by
  unfold completeLoad
  split
  · unfold backingRead
    split_ifs <;> simp
  · split <;> simp

theorem Machine.completeStore_ne_poll : completeStore p a d m ≠ .error .poll := by
  unfold completeStore
  split
  · unfold backingWrite
    split_ifs <;> simp [Except.map]
  · unfold backingWrite
    split
    · simp
    · split_ifs <;> simp [Except.map]

theorem Machine.map_ne_error {α β : Type} {f : Fault} {e : Except Fault α} {g : α → β}
    (h : e ≠ .error f) : e.map g ≠ .error f := by
  cases e with
  | error x => simpa [Except.map] using h
  | ok x => simp [Except.map]

theorem Machine.pollData_poll_iff : pollData p a k d m = .error .poll ↔ pollMatches a k m = false := by
  cases hm : pollMatches a k m with
  | false => simp [pollData, hm]
  | true =>
    simp only [Bool.true_eq_false, iff_false]
    simp only [pollData, hm, Bool.not_true, Bool.false_eq_true, if_false]
    split_ifs
    · simp
    · simp
    · cases k with
      | load => exact map_ne_error completeLoad_ne_poll
      | store => exact map_ne_error completeStore_ne_poll
      | other => simp

end

/-- Settles O24: a poll raises F_POLL in its first test alone, and no edge of a state in order raises it. -/
theorem unmatchedPollFaults : Obligations.UnmatchedPollFaults := by
  refine ⟨fun p m a d k => ⟨pollFetch_poll_iff.symm, ?_⟩, fun s h hr hf => ?_⟩
  · rw [Ne, pollData_poll_iff, Bool.not_eq_false, pollMatches_iff]
    simp only [or_comm]
  · obtain ⟨u, hraised, -⟩ := h.clockEdge_fault hr hf
    cases hraised

/-! ## The fetch of a step (R232, R233, R237) -/

section
variable {s t : State} {m : MemComponent} {w : Word}

/-- `s` after `k` edges of its instruction, the Fetch edge among them, when the fetch request left `m`. -/
def Machine.fetched (s : State) (m : MemComponent) (k : Nat) : State :=
  { s with
    csr := (CsrFile.clockTick s.params)^[k] s.csr
    instr := none
    phase := .decodeExecute
    memc := { m with wait := m.wait - k } }

/-- The Fetch edge and the stall edges after it. -/
theorem Machine.stall_fetched (k : Nat) :
    stall (Collaborators.reference s.params) k (fetched s m 1) = fetched s m (1 + k) := by
  rw [stall_eq]
  simp only [fetched, reference_clockTick, ← Function.iterate_add_apply, Nat.sub_sub, Nat.add_comm k 1]

theorem Machine.edge_fetchStep (hreq : requestFetch s.params s.ip s.memc = .done m) :
    edge (Collaborators.reference s.params) fetchStep s = .done (fetched s m 1) := by
  simp only [edge, fetchStep, State.tick_params, State.tick_ip, State.tick_memc, hreq]
  rfl

/-- The edges of a fetch up to the one before the delivery. -/
theorem Machine.clockEdges_fetched (hr : Running s) (hp : s.phase = .fetch)
    (hreq : requestFetch s.params s.ip s.memc = .done m) {k : Nat} (hk : 0 < k) (hle : k ≤ max m.wait 1) :
    clockEdges k s = fetched s m k := by
  obtain ⟨j, rfl⟩ : ∃ j, k = 1 + j := ⟨k - 1, by omega⟩
  obtain ⟨u, hu, hadv⟩ := edge_done (edge_fetchStep hreq)
  have hedge : clockEdges 1 s = fetched s m 1 := by
    rw [hadv]
    exact clockEdgeWith_done hr ((cpuStep_fetch (s := s.tick _) hp).trans hu)
  have hlatch : m.fetchAddr ≠ none := by
    obtain ⟨-, ⟨-, rfl⟩ | ⟨_, _, -, -, rfl⟩ | ⟨_, _, _, _, -, -, -, rfl⟩⟩ := requestFetch_done hreq <;> simp
  rw [clockEdges_add, hedge, ← stall_fetched]
  exact clockEdgesWith_decodeExecute_stall (s := fetched s m 1) hr rfl hlatch (show j ≤ m.wait - 1 by omega)

/-- The edge that takes the delivered Word starts in `s` after the fetch's edges. -/
def Machine.delivered (s : State) (m : MemComponent) : State := fetched s m (max m.wait 1)

theorem Machine.delivered_memc (s : State) (m : MemComponent) : (delivered s m).memc = { m with wait := 0 } := by
  simp [delivered, fetched]

/-- A step from a Fetch phase in order, `ip` in range: the fetch, and the run of the Word it delivers. -/
theorem Safety.Inv.step_of_fetch (h : Inv s) (hr : Running s) (hp : s.phase = .fetch)
    (ha : s.ip.toNat < s.params.memBytes) :
    ∃ m, requestFetch s.params s.ip s.memc = .done m ∧ FetchDone s.params s.ip s.memc m ∧
      pollFetch s.params (delivered s m).memc = .ok (some (fetchedWord s)) ∧
      step s = runDecoded (fetchedWord s) (delivered s m) := by
  obtain ⟨m, hreq, hdone⟩ := h.mem.requestFetch h.legal ha
  have hpoll : pollFetch s.params (delivered s m).memc = .ok (some (fetchedWord s)) := by
    rw [delivered_memc]
    exact hdone.pollFetch ha 0
  have hstall : stall (Collaborators.reference s.params) (fetched s m 1).memc.wait (fetched s m 1) = delivered s m := by
    rw [stall_fetched, delivered]
    congr 1
    show 1 + (m.wait - 1) = max m.wait 1
    omega
  refine ⟨m, hreq, hdone, hpoll, ?_⟩
  have hfault : s.fault = none := hr
  simp only [step, stepBy, hfault, hp, edge_fetchStep hreq, deliver, hstall]
  rw [show (fetched s m 1).params = s.params from rfl, hpoll]

/-- A step from a Fetch phase that answers a next state had `ip` in range (R251). -/
theorem Machine.ip_inRange_of_step (h : step s = .next t) (hp : s.phase = .fetch) :
    s.ip.toNat < s.params.memBytes := by
  obtain ⟨-, ⟨-, u, hu, -⟩ | ⟨hde, -⟩ | ⟨hwb, -⟩⟩ := stepBy_next h
  · obtain ⟨m, hreq, -⟩ := fetchStep_done hu
    exact (requestFetch_done hreq).1
  · cases hp.symm.trans hde
  · cases hp.symm.trans hwb

/-- The wait after the fetch request, as the statements count it (R162). -/
theorem Safety.FetchDone.fetchWait (h : FetchDone s.params s.ip s.memc m) : m.wait = fetchWait s := h.wait

end

/-- Settles O38: the step is the fetch and the run of its Word, and the state of that run is `s` after the fetch's
edges. -/
theorem stepRunsDecoded : Obligations.StepRunsDecoded := by
  intro s h hr hp ha
  obtain ⟨m, hreq, hdone, -, hstep⟩ := h.step_of_fetch hr hp ha
  refine ⟨fun x hx => by rw [hstep, runDecoded, hx], fun i hi => ⟨delivered s m, by rw [hstep, runDecoded, hi], ?_⟩⟩
  have hinv : Inv (delivered s m) := by
    rw [delivered, ← clockEdges_fetched hr hp hreq (by omega) le_rfl]
    exact h.clockEdges _
  have hcsr : (delivered s m).csr = (CsrFile.clockTick s.params)^[max (fetchWait s) 1] s.csr := by
    rw [← hdone.fetchWait]
    rfl
  refine ⟨rfl, rfl, fun _ => rfl, rfl, rfl, hr, hinv, fun c => ?_, ?_, hdone.mem, ?_, hdone.fetchAddr, hdone.dataReq,
    hdone.noMem, hdone.uncached, fun ic dc hf => ?_⟩
  · rw [hcsr, CsrFile.read_ticks]
  · rw [hcsr, CsrFile.msg_ticks]
  · rw [delivered_memc]
  · obtain ⟨ic', hf', hreq'⟩ := hdone.cached ic dc hf
    obtain ⟨l, hl, -⟩ := hreq'.recency
    exact ⟨ic', hf', by rw [hl]; rfl⟩

/-! ## The edges of an instruction (R238) -/

section
variable {i : Instr} {s t u : State}

/-- The data wait of a state depends on its parameters and the data cache, not on the instruction cache (R162). -/
theorem Safety.FetchDone.dataWait {m : MemComponent} (h : FetchDone s.params s.ip s.memc m) (w : Nat) (a : Word) :
    dataWait (delivered s m) w a = dataWait s w a := by
  have hfront : (delivered s m).memc.front = m.front := rfl
  unfold Safety.dataWait
  cases hf : s.memc.front with
  | uncached =>
    rw [hfront, h.uncached hf]
    rfl
  | cached ic dc =>
    obtain ⟨ic', hf', -⟩ := h.cached ic dc hf
    rw [hfront, hf']
    rfl

theorem Safety.FetchDone.accessWait {m : MemComponent} (h : FetchDone s.params s.ip s.memc m) (w : Nat) (i : Instr) :
    accessWait (delivered s m) w i = accessWait s w i := by
  cases i with
  | lw rd rs1 imm => exact h.dataWait w _
  | sw rs1 rs2 imm => exact h.dataWait w _
  | _ => rfl

/-- The Writeback stalls after an instruction's issue are one less than the wait of its access (R162, R235). -/
theorem Machine.dataStalls_eq_accessWait {p : Params}
    (h : issue (Collaborators.reference p) i.toRecord (s.tick (Collaborators.reference p)) = .done u) :
    dataStalls u.advance = accessWait s s.memc.wait i - 1 := by
  obtain ⟨r1, hops, hstalls⟩ := issue_dataStalls h
  rw [hstalls]
  obtain ⟨v1, v2, hv1, -, rfl⟩ := readOperands_ok hops
  have base : ∀ {rs1 : RegId}, s.readSource (Collaborators.reference p) (some rs1) = .ok v1 →
      (s.reg rs1).getD 0 = v1 := by
    intro rs1 hrs
    simp only [State.readSource, State.readReg, reference_regs_read, State.regs_read] at hrs
    split at hrs
    · next v hv =>
      cases hrs
      rw [hv]
      rfl
    · cases hrs
  rw [readSource_tick] at hv1
  cases i with
  | lw rd rs1 imm =>
    simp only [accessWait, base hv1]
    rfl
  | sw rs1 rs2 imm =>
    simp only [accessWait, base hv1]
    rfl
  | _ => rfl

/-- The Writeback phase leaves of the wait counter what its stalls and its ready edge leave. -/
theorem Machine.finish_next_wait {ρ κ : Type} {K : Collaborators ρ κ} {s t : State ρ κ} (h : finish K s = .next t) :
    t.memc.wait = s.memc.wait - dataStalls s - 1 := by
  obtain ⟨u, hu, rfl⟩ := finish_next h
  have hkept : u.memc.wait = s.memc.wait - dataStalls s := by
    obtain ⟨r, -, ⟨_, _, -, rfl⟩ | ⟨_, m, hpoll, rfl⟩⟩ := writebackStep_done hu
    · simp
    · rw [State.commit_memc]
      obtain ⟨-, ⟨-, -, rfl⟩ | ⟨-, -, -, -, rfl⟩ | ⟨-, -, -, -, hs⟩⟩ := pollData_ready hpoll
      · simp
      · simp
      · obtain ⟨-, ⟨-, rfl⟩ | ⟨_, _, _, -, -, rfl⟩⟩ := completeStore_ok hs <;> simp
  rw [State.advance_memc, advanceCycle_wait, hkept]

/-- From `wait = 0` on, an issue leaves a wait that its Writeback phase waits for whole. -/
theorem Machine.issue_wait_le {ρ κ : Type} {K : Collaborators ρ κ} {s u : State ρ κ} {r : Record} (hw : s.memc.wait = 0)
    (h : issue K r s = .done u) : u.advance.memc.wait ≤ dataStalls u.advance := by
  obtain ⟨r1, m, -, hreq, rfl⟩ := issue_done h
  by_cases hk : r.kind.opKind = .other
  · rw [hk, requestData_other] at hreq
    cases hreq
    simp [hw]
  · obtain ⟨-, ⟨-, rfl⟩ | ⟨_, _, -, -, rfl⟩ | ⟨_, _, _, _, -, -, -, rfl⟩⟩ := requestData_done hk hreq <;>
      simp [dataStalls]

end

/-- Settles O36: the fetch's edges, the delivering edge and the Writeback phase, counted. -/
theorem edgesPerInstruction : Obligations.EdgesPerInstruction := by
  intro s t i h hr hp hw hi hstep
  obtain ⟨m, hreq, hdone, hpoll, hrun⟩ := h.step_of_fetch hr hp (ip_inRange_of_step hstep hp)
  rw [hrun, runDecoded, hi] at hstep
  have hexec : runRecordWith (Collaborators.reference s.params) i.toRecord (delivered s m) = .next t :=
    (exec_eq_runRecord i _).symm.trans hstep
  obtain ⟨-, u, hissue, hfin⟩ := runRecordWith_next hexec
  have hedges := runRecordWith_edges (K := Collaborators.reference s.params) (s := delivered s m) hr rfl hpoll
    (by rw [reference_decoder, referenceDecoder_eq, hi]; rfl) (toRecord_wellFormed i) hissue
  have hstalls := dataStalls_eq_accessWait hissue
  rw [hdone.accessWait, show (delivered s m).memc.wait = 0 by rw [delivered_memc]] at hstalls
  have hcount : max (fetchWait s) 1 + (1 + (dataStalls u.advance + 1)) =
      1 + max (fetchWait s) 1 + max (accessWait s 0 i) 1 := by
    rw [hstalls]
    omega
  have hfetched : ∀ {k}, 0 < k → k ≤ max (fetchWait s) 1 → clockEdges k s = fetched s m k := fun hk hle =>
    clockEdges_fetched hr hp hreq hk (hdone.fetchWait ▸ hle)
  have hdelivered : clockEdges (max (fetchWait s) 1) s = delivered s m := by
    rw [hfetched (by omega) le_rfl, delivered, hdone.fetchWait]
  rw [← hdelivered] at hedges
  obtain ⟨-, hquiet, hend⟩ := hedges.after fun k hk hle => by
    show Inside (clockEdges k s)
    rw [hfetched hk hle]
    exact ⟨by simp [fetched], hr⟩
  rw [hcount] at hquiet hend
  rw [hdelivered, hexec] at hend
  refine ⟨hend.1.symm, ?_, fun k hk hlt => (hquiet k hk hlt).1⟩
  have hle := issue_wait_le (show ((delivered s m).tick _).memc.wait = 0 by rw [State.tick_memc, delivered_memc]) hissue
  rw [finish_next_wait hfin]
  omega

end Sys2Proof
end

section
/-! PROOF. The Executor (42_executor_alu.md, 43_executor_control.md, 44_executor_mem_csr.md): the ALU and comparison
functions on the numbers their operands stand for, and what each kind computes. -/

namespace Sys2Proof

open Machine Safety

section
variable (a b : Word)

/-! ## The ALU functions (R171, R172) -/

theorem Machine.shiftAmount_eq : shiftAmount b = b.toNat % 32 := by
  simp [shiftAmount, BitVec.extractLsb'_toNat]

theorem Machine.toNat_aluFn_sub : (aluFn .sub a b).toNat = (a.toNat + (2 ^ 32 - b.toNat)) % 2 ^ 32 := by
  rw [aluFn, BitVec.toNat_sub, Nat.add_comm]

theorem Machine.toNat_aluFn_sll : (aluFn .sll a b).toNat = a.toNat * 2 ^ (b.toNat % 32) % 2 ^ 32 := by
  rw [aluFn, shiftAmount_eq, BitVec.toNat_shiftLeft, Nat.shiftLeft_eq]

theorem Machine.toNat_aluFn_srl : (aluFn .srl a b).toNat = a.toNat / 2 ^ (b.toNat % 32) := by
  rw [aluFn, shiftAmount_eq, BitVec.toNat_ushiftRight, Nat.shiftRight_eq_div_pow]

theorem Machine.toInt_aluFn_sra : (aluFn .sra a b).toInt = a.toInt / 2 ^ (b.toNat % 32) := by
  rw [aluFn, shiftAmount_eq, BitVec.toInt_sshiftRight, Int.shiftRight_eq_div_pow, Nat.cast_pow, Nat.cast_ofNat]

theorem Machine.aluFn_slt : aluFn .slt a b = if a.toInt < b.toInt then 1 else 0 := by
  simp only [aluFn, boolWord, decide_eq_true_eq]

theorem Machine.aluFn_sltu : aluFn .sltu a b = if a.toNat < b.toNat then 1 else 0 := by
  simp only [aluFn, boolWord, decide_eq_true_eq]

/-! The shifts as Words, as the instructions' rules state them (R175, R179, R180). -/

theorem Machine.aluFn_sll : aluFn .sll a b = BitVec.ofNat 32 (a.toNat * 2 ^ (b.toNat % 32)) :=
  BitVec.eq_of_toNat_eq (by rw [toNat_aluFn_sll, BitVec.toNat_ofNat])

theorem Machine.aluFn_srl : aluFn .srl a b = BitVec.ofNat 32 (a.toNat / 2 ^ (b.toNat % 32)) := by
  rw [← toNat_aluFn_srl, BitVec.ofNat_toNat, BitVec.setWidth_eq]

theorem Machine.aluFn_sra : aluFn .sra a b = BitVec.ofInt 32 (a.toInt / 2 ^ (b.toNat % 32)) := by
  rw [← toInt_aluFn_sra, BitVec.ofInt_toInt]

end

/-- Settles O26: one fact per function. -/
theorem aluFunctions : Obligations.AluFunctions := fun a b =>
  ⟨BitVec.toNat_add a b, toNat_aluFn_sub a b, toNat_aluFn_sll a b, toNat_aluFn_srl a b, toInt_aluFn_sra a b,
    aluFn_slt a b, aluFn_sltu a b, fun _ => ⟨BitVec.getLsbD_xor, BitVec.getLsbD_and, BitVec.getLsbD_or⟩⟩

/-- Settles O27: each function is the decision of its comparison. -/
theorem branchFunctions : Obligations.BranchFunctions := by
  intro a b
  simp [brFn]

/-- The second operand (R85). -/
theorem Machine.op2_eq (r : Record) : Machine.Record.op2 r = r.imm.getD r.v2 := by
  unfold Machine.Record.op2
  cases r.imm <;> rfl

/-- Settles O28: the record's kind selects the Executor's entry. -/
theorem executorKinds : Obligations.ExecutorKinds := by
  intro r ip o
  refine ⟨fun hk => ?_, fun hk => ?_, fun hk => ?_, fun hk => ?_, fun hk => ?_, fun hk hi => ?_, fun hk hi => ?_,
    fun hk hi => ?_, fun hk hi => ?_⟩
  · simp only [execute, hk, execAluKind, op2_eq]
  · simp only [execute, hk, execLdKind, op2_eq]
  · simp only [execute, hk, execStKind, op2_eq]
  · simp only [execute, hk, execCsrrKind]
  · simp only [execute, hk, execCsrwKind]
  · simp only [execute, hk, execBrKind, Record.offset, hi, Option.getD_some]
  · simp only [execute, hk, execJKind, Record.offset, hi, Option.getD_some]
  · simp only [execute, hk, execJrKind, Record.offset, hi, Option.getD_some]
  · simp only [execute, hk, execAuipcKind, Record.offset, hi, Option.getD_some]

end Sys2Proof
end

section
/-! PROOF. The instructions (42_executor_alu.md, 43_executor_control.md, 44_executor_mem_csr.md): what a completed one
leaves, said once for every record, and then the results, frames and faults of each. -/

namespace Sys2Proof

open Machine Safety

/-! ## What an instruction commits (R233 to R237) -/

/-- `s` after the commit of `e`, `n` edges after the delivery of its word, when its access left `m`. -/
def Machine.committed (s : State) (n : Nat) (m : MemComponent) (e : Record) : State :=
  ({ s with csr := (CsrFile.clockTick s.params)^[n] s.csr, memc := m }.commit
    (Collaborators.reference s.params) e).advance

section
variable {s t : State} {n : Nat} {m m' : MemComponent} {e : Record}

@[simp] theorem Machine.committed_ip : (committed s n m e).ip = e.nextIp := rfl

@[simp] theorem Machine.committed_mem : (committed s n m e).memc.mem = m.mem := by simp [committed]

@[simp] theorem Machine.committed_front : (committed s n m e).memc.front = m.front := by simp [committed]

/-- The destination register holds the record's data; a write to `x0` is discarded (R25, R236). -/
theorem Machine.committed_reg (i : RegId) :
    (committed s n m e).reg i = if e.rd = some i ∧ i ≠ 0 then some e.data else s.reg i := by
  rw [committed, State.advance_reg, State.commit_reg]
  rfl

theorem Machine.committed_writesReg {rd : RegId} (h : e.rd = some rd) : WritesReg s (committed s n m e) rd e.data := by
  intro i
  simp only [committed_reg, h, Option.some_inj, eq_comm]

theorem Machine.committed_keepsRegs (h : e.rd = none) : KeepsRegs s (committed s n m e) := by
  intro i
  rw [committed_reg, h, if_neg (by simp)]

theorem Machine.committed_retired (hr : Running s) : Retired s (committed s n m e) :=
  ⟨State.commit_params .., (State.commit_fault ..).trans hr, rfl⟩

theorem Machine.committed_csr (h : e.kind ≠ .csrw) :
    (committed s n m e).csr = ((CsrFile.clockTick s.params)^[n] s.csr).instructionRetired s.params :=
  State.commit_csr_of_ne (Collaborators.reference s.params) _ e h

theorem Machine.committed_csr_write {c : CsrId} (h : e.kind = .csrw) (hc : e.csr = some c) :
    (committed s n m e).csr =
      (((CsrFile.clockTick s.params)^[n] s.csr).write s.params c e.data).instructionRetired s.params :=
  State.commit_csr_write (Collaborators.reference s.params) _ e c h hc

/-- A record that is no CSR write leaves the two counts alone: the edges and the retirement (R266, R267). -/
theorem Machine.committed_countsOnly (hp : s.params.Legal) (h : e.kind ≠ .csrw) :
    CountsOnly s (committed s n m e) n := by
  obtain ⟨-, -, -, -, -, -, -, hne, -⟩ := hp
  refine ⟨fun c => ?_, ?_⟩
  · rw [committed_csr h, CsrFile.read_instructionRetired, CsrFile.read_ticks]
    by_cases hc : c = s.params.cycleCsr
    · rw [if_neg (hc ▸ hne), if_pos hc, if_pos hc]
    · simp only [if_neg hc]
  · rw [committed_csr h, CsrFile.msg_instructionRetired, CsrFile.msg_ticks]

end

/-! ## The run of an instruction -/

/-- The reference collaborators that an instruction of `s` runs with. -/
abbrev Machine.ref (s : State) : Collaborators RegFile CsrFile := Collaborators.reference s.params

/-- The component in which the poll of its data request is ready (R154, R237). -/
def Machine.atReady (m : MemComponent) : MemComponent := { m with wait := if m.noMem then m.wait - 1 else 0 }

theorem Machine.atReady_wait {m : MemComponent} (h : m.noMem = false) : (atReady m).wait = 0 := by
  simp [atReady, h]

section
variable {i : Instr} {s t : State} {r1 : Record} {m m' : MemComponent} {d : Word} {f : Fault}

/-- Commit looks at neither the in-flight record nor the phase. -/
theorem Machine.State.commit_congr {ρ κ : Type} (K : Collaborators ρ κ) (s : State ρ κ) (r : Record)
    (o : Option Record) (p : Phase) : ({ s with instr := o, phase := p } : State ρ κ).commit K r = s.commit K r := by
  have hdest : ({ s with instr := o, phase := p } : State ρ κ).writeDest K r =
      { s.writeDest K r with instr := o, phase := p } := by
    unfold State.writeDest
    split <;> rfl
  have hcsr : ({ s.writeDest K r with instr := o, phase := p } : State ρ κ).writeCsr K r =
      { (s.writeDest K r).writeCsr K r with instr := o, phase := p } := by
    unfold State.writeCsr
    split <;> rfl
  rw [State.commit, hdest, hcsr]
  rfl

/-- `s` after the delivering edge, whose data request left `m` and whose executed record is `e`. -/
def Machine.issued (s : State) (m : MemComponent) (e : Record) : State :=
  ({ s.tick (ref s) with memc := m, instr := some e, phase := .writeback } : State).advance

/-- `s` on the ready Writeback edge, after its CSR tick: `n` edges on. -/
def Machine.polling (s : State) (n : Nat) (m : MemComponent) (e : Record) : State :=
  { s with csr := (CsrFile.clockTick s.params)^[n] s.csr, memc := atReady m, instr := some e, phase := .writeback }

/-- What the ready Writeback edge of the polling state leaves. -/
theorem Machine.commit_polling (n : Nat) (e e' : Record) :
    (({ polling s n m e with memc := m' } : State).commit (ref s) e').advance = committed s n m' e' :=
  congrArg State.advance (State.commit_congr (ref s)
    { s with csr := (CsrFile.clockTick s.params)^[n] s.csr, memc := m' } e' (some e) .writeback)

/-- The Writeback stalls lead from the issued state to the polling one (R237). -/
theorem Machine.stall_issued (e : Record) :
    (stall (ref s) (dataStalls (issued s m e)) (issued s m e)).tick (ref s) =
      polling s (1 + (1 + dataStalls (issued s m e))) m e := by
  have hready : (issued s m e).memc.wait - dataStalls (issued s m e) = if m.noMem then m.wait - 1 else 0 := by
    show m.wait - 1 - (if m.noMem then 0 else m.wait - 1) = _
    split <;> omega
  rw [stall_eq, hready, Nat.add_comm 1 (dataStalls _), Nat.add_comm 1 (dataStalls _ + 1), polling,
    Function.iterate_succ_apply', Function.iterate_succ_apply]
  rfl

/-- An instruction whose operands hold values, whose data request is done and whose ready poll answers commits what the
poll gave (R233 to R236). -/
theorem Machine.exec_of_poll (hr : Running s) (hops : (s.tick (ref s)).readOperands (ref s) i.toRecord = .ok r1)
    (hreq : requestData s.params (execute r1 s.ip).addr i.toRecord.kind.opKind s.memc = .done m)
    (hpoll : pollData s.params (execute r1 s.ip).addr i.toRecord.kind.opKind (execute r1 s.ip).data (atReady m) =
      .ok (true, d, m')) :
    exec i s =
      .next (committed s (1 + max (accessWait s s.memc.wait i) 1) m' { execute r1 s.ip with data := d }) := by
  have hkind : (execute r1 s.ip).kind = i.toRecord.kind := by
    obtain ⟨_, _, -, -, rfl⟩ := readOperands_ok hops
    exact execute_kind ..
  have hissue := issue_of_parts (s := s.tick (ref s)) hops hreq
  have hcount : dataStalls (issued s m (execute r1 s.ip)) = accessWait s s.memc.wait i - 1 :=
    dataStalls_eq_accessWait hissue
  have hstep : writebackStep (ref s) (polling s (1 + max (accessWait s s.memc.wait i) 1) m (execute r1 s.ip)) =
      .done (({ polling s (1 + max (accessWait s s.memc.wait i) 1) m (execute r1 s.ip) with memc := m' } : State).commit
        (ref s) { execute r1 s.ip with data := d }) := by
    simp only [writebackStep, polling, hkind, hpoll]
  have hstall := stall_issued (s := s) (m := m) (execute r1 s.ip)
  rw [hcount, show 1 + (1 + (accessWait s s.memc.wait i - 1)) = 1 + max (accessWait s s.memc.wait i) 1 by omega]
    at hstall
  rw [exec_eq_runRecord, runRecord, runRecordWith_of_issue hr hissue]
  show finish (ref s) (issued s m (execute r1 s.ip)) = _
  simp only [finish, edge, hcount, hstall, hstep]
  rw [commit_polling]

/-- An instruction that completes was not stopped, its operands held values, its data request was done and its ready
poll answered. -/
theorem Machine.exec_next (h : exec i s = .next t) :
    Running s ∧ ∃ r1 m d m', (s.tick (ref s)).readOperands (ref s) i.toRecord = .ok r1 ∧
      requestData s.params (execute r1 s.ip).addr i.toRecord.kind.opKind s.memc = .done m ∧
      pollData s.params (execute r1 s.ip).addr i.toRecord.kind.opKind (execute r1 s.ip).data (atReady m) =
        .ok (true, d, m') ∧
      t = committed s (1 + max (accessWait s s.memc.wait i) 1) m' { execute r1 s.ip with data := d } := by
  have hrun := h
  rw [exec_eq_runRecord, runRecord] at hrun
  obtain ⟨hr, u, hissue, hfin⟩ := runRecordWith_next hrun
  obtain ⟨r1, m, hops, hreq, rfl⟩ := issue_done hissue
  have hkind : (execute r1 s.ip).kind = i.toRecord.kind := by
    obtain ⟨_, _, -, -, rfl⟩ := readOperands_ok hops
    exact execute_kind ..
  obtain ⟨v, hv, -⟩ := finish_next hfin
  have hstep : writebackStep (ref s) (polling s (1 + (1 + dataStalls (issued s m (execute r1 s.ip)))) m
      (execute r1 s.ip)) = .done v := by
    rw [← stall_issued]
    exact hv
  obtain ⟨e, he, ⟨d, m', hpoll, -⟩ | ⟨d, m', hpoll, -⟩⟩ := writebackStep_done hstep
  all_goals
    cases he
    simp only [hkind] at hpoll
  · obtain ⟨-, -, hno, hwait⟩ := pollData_unready hpoll
    exact absurd (atReady_wait (m := m) hno) (Nat.ne_of_gt hwait)
  · exact ⟨hr, r1, m, d, m', hops, hreq, hpoll,
      Host.Outcome.next.inj (h.symm.trans (exec_of_poll hr hops hreq hpoll))⟩

theorem Machine.accessWait_other (hk : i.toRecord.kind.opKind = .other) (w : Nat) : accessWait s w i = 0 := by
  cases i with
  | lw => cases hk
  | sw => cases hk
  | _ => rfl

/-- An instruction that accesses no memory completes once its operands hold values (R149). -/
theorem Machine.exec_other (hr : Running s) (hk : i.toRecord.kind.opKind = .other)
    (hops : (s.tick (ref s)).readOperands (ref s) i.toRecord = .ok r1) :
    ∃ m', m'.mem = s.memc.mem ∧ m'.front = s.memc.front ∧ exec i s = .next (committed s 2 m' (execute r1 s.ip)) := by
  have hreq : requestData s.params (execute r1 s.ip).addr i.toRecord.kind.opKind s.memc =
      .done { s.memc with dataReq := some ((execute r1 s.ip).addr, .other), noMem := true } := by
    rw [hk, requestData_other]
  have hexec := exec_of_poll hr hops hreq (by rw [hk]; exact pollData_other rfl rfl)
  rw [accessWait_other hk] at hexec
  exact ⟨atReady { s.memc with dataReq := some ((execute r1 s.ip).addr, .other), noMem := true }, rfl, rfl, hexec⟩

/-- A load in range of a component in order completes with the BackingStore's Word (R69, R155). -/
theorem Safety.MemOk.completeLoad {p : Params} {a : Word} (h : MemOk p m) (hp : p.Legal) (ha : a.toNat < p.memBytes)
    (hthere : DataLineThere m.front a) : Machine.completeLoad p a m = .ok (m.mem.word (wordIndex a)) := by
  obtain ⟨v, hv⟩ := completeLoad_there ha hthere
  obtain ⟨-, -, rfl⟩ | ⟨ic, dc, ln, hf, hl, rfl⟩ := completeLoad_ok hv
  · exact hv
  · obtain ⟨-, -, hcoh⟩ := h.cached hp hf
    rw [hv, hcoh.line hl, fillLine_lineOffset]

variable (hr : Running s) (hp : s.params.Legal) (hm : MemOk s.params s.memc)
  (hops : (s.tick (ref s)).readOperands (ref s) i.toRecord = .ok r1)
  (ha : (execute r1 s.ip).addr.toNat < s.params.memBytes)
include hr hp hm hops ha

/-- A load in range completes with the BackingStore's Word (R155, R220). -/
theorem Machine.exec_load (hk : i.toRecord.kind.opKind = .load) :
    ∃ m', DataDone s.params (execute r1 s.ip).addr .load s.memc m' ∧
      exec i s = .next (committed s (1 + max (accessWait s s.memc.wait i) 1) (atReady m')
        { execute r1 s.ip with data := s.memc.mem.word (wordIndex (execute r1 s.ip).addr) }) := by
  obtain ⟨m', hreq, hdone⟩ := hm.requestData (k := .load) hp ha (by simp)
  refine ⟨m', hdone, exec_of_poll hr hops (hk ▸ hreq) ?_⟩
  have hload := hdone.ok.completeLoad hp ha hdone.there
  rw [hdone.mem] at hload
  rw [hk]
  exact pollData_load_ready (m := atReady m') hdone.dataReq hdone.noMem (atReady_wait hdone.noMem)
    ((completeLoad_congr rfl rfl).trans hload) _

/-- A store in range completes its store in the component that its request left (R155, R221). -/
theorem Machine.exec_store (hk : i.toRecord.kind.opKind = .store) :
    ∃ m m', DataDone s.params (execute r1 s.ip).addr .store s.memc m ∧
      completeStore s.params (execute r1 s.ip).addr (execute r1 s.ip).data (atReady m) = .ok m' ∧
      exec i s = .next (committed s (1 + max (accessWait s s.memc.wait i) 1) m' (execute r1 s.ip)) := by
  obtain ⟨m, hreq, hdone⟩ := hm.requestData (k := .store) hp ha (by simp)
  obtain ⟨m', hstore⟩ := completeStore_there (m := atReady m) ha hdone.there (execute r1 s.ip).data
  refine ⟨m, m', hdone, hstore, exec_of_poll hr hops (hk ▸ hreq) ?_⟩
  rw [hk]
  exact pollData_store (pollMatches_iff.2 ⟨_, hdone.dataReq, .inr rfl⟩) hdone.noMem (atReady_wait hdone.noMem)
    hstore

end

/-! ## Instructions that access no memory -/

/-- The instruction completes with `v` in `rd` and `ip'` next, and changes nothing but the two counters beside: the
frame of the register, jump and CSR read instructions. -/
def Safety.CompletesWith (i : Instr) (s : State) (rd : RegId) (v ip' : Word) : Prop :=
  ∃ t, exec i s = .next t ∧ WritesReg s t rd v ∧ t.ip = ip' ∧ KeepsMemoryAndCaches s t ∧ CountsOnly s t 2 ∧ Retired s t

/-- The same of a branch, which declares no destination. -/
def Safety.BranchesTo (i : Instr) (s : State) (taken : Bool) (imm : Word) : Prop :=
  ∃ t, exec i s = .next t ∧ KeepsRegs s t ∧ t.ip = (if taken = true then s.ip + imm else s.ip + 4) ∧
    KeepsMemoryAndCaches s t ∧ CountsOnly s t 2 ∧ Retired s t

/-- The operand read fills `v1`, `v2` and `csrVal` and nothing else (R234). -/
theorem Machine.readOperands_keeps {ρ κ : Type} {K : Collaborators ρ κ} {s : State ρ κ} {r r1 : Record}
    (h : s.readOperands K r = .ok r1) : r1.kind = r.kind ∧ r1.rd = r.rd ∧ r1.csr = r.csr := by
  obtain ⟨_, _, -, -, rfl⟩ := readOperands_ok h
  exact ⟨rfl, rfl, rfl⟩

section
variable {i : Instr} {s : State} {r r1 : Record} {rd rs1 rs2 : RegId} {a b imm : Word}
variable (hr : Running s) (hp : s.params.Legal)
include hr hp

/-- An instruction of kind `Other` with a destination, CSR writes apart. -/
theorem Machine.completesWith (hi : i.toRecord = r) (hk : r.kind.opKind = .other) (hne : r.kind ≠ .csrw)
    (hrd : r.rd = some rd) (hops : (s.tick (ref s)).readOperands (ref s) r = .ok r1) :
    CompletesWith i s rd (execute r1 s.ip).data (execute r1 s.ip).nextIp := by
  subst hi
  obtain ⟨hkind, hdest, -⟩ := readOperands_keeps hops
  obtain ⟨m, hmem, hfront, hexec⟩ := exec_other hr hk hops
  exact ⟨_, hexec, committed_writesReg (by rw [execute_rd, hdest, hrd]), rfl,
    ⟨committed_mem.trans hmem, committed_front.trans hfront⟩,
    committed_countsOnly hp (by rwa [execute_kind, hkind]), committed_retired hr⟩

theorem Machine.aluReg_completes {op : AluOp} (hi : i.toRecord = recAluReg op rd rs1 rs2) (h1 : s.reg rs1 = some a)
    (h2 : s.reg rs2 = some b) : CompletesWith i s rd (aluFn op a b) (s.ip + 4) :=
  completesWith hr hp hi rfl (by simp [recAluReg]) rfl
    (readOperands_of_sources (s := s.tick (ref s)) (readSource_some h1) (readSource_some h2))

theorem Machine.aluImm_completes {op : AluOp} (hi : i.toRecord = recAluImm op rd rs1 imm) (h1 : s.reg rs1 = some a) :
    CompletesWith i s rd (aluFn op a imm) (s.ip + 4) :=
  completesWith hr hp hi rfl (by simp [recAluImm]) rfl
    (readOperands_of_sources (s := s.tick (ref s)) (readSource_some h1) rfl)

/-- LUI adds its immediate to the 0 of `x0` (R192). -/
theorem Machine.lui_completes : CompletesWith (.lui rd imm) s rd imm (s.ip + 4) := by
  have hlui := aluImm_completes (i := .lui rd imm) hr hp rfl (State.reg_zero s)
  rwa [show aluFn .add 0 imm = imm from BitVec.zero_add imm] at hlui

theorem Machine.branch_completes {op : BrOp} (hi : i.toRecord = recBranch op rs1 rs2 imm) (h1 : s.reg rs1 = some a)
    (h2 : s.reg rs2 = some b) : BranchesTo i s (brFn op a b) imm := by
  have hops := readOperands_of_sources (K := ref s) (s := s.tick (ref s)) (r := recBranch op rs1 rs2 imm)
    (readSource_some h1) (readSource_some h2)
  obtain ⟨m, hmem, hfront, hexec⟩ := exec_other (i := i) hr (by rw [hi]; rfl) (by rw [hi]; exact hops)
  exact ⟨_, hexec, committed_keepsRegs rfl, rfl, ⟨committed_mem.trans hmem, committed_front.trans hfront⟩,
    committed_countsOnly hp (by simp [execute_kind, recBranch]), committed_retired hr⟩

end

/-- Settles O44: each row is the ALU function of its record. -/
theorem registerAluResults : Obligations.RegisterAluResults := by
  intro s rd rs1 rs2 a b hr hp h1 h2
  have key : ∀ {i op v}, i.toRecord = recAluReg op rd rs1 rs2 → aluFn op a b = v →
      CompletesWith i s rd v (s.ip + 4) := fun hi hv => hv ▸ aluReg_completes hr hp hi h1 h2
  show ∀ row ∈ (_ : List (Instr × Word)), CompletesWith row.1 s rd row.2 (s.ip + 4)
  simp only [List.forall_mem_cons]
  exact ⟨key rfl rfl, key rfl rfl, key rfl (aluFn_sll a b), key rfl (aluFn_slt a b), key rfl (aluFn_sltu a b),
    key rfl rfl, key rfl (aluFn_srl a b), key rfl (aluFn_sra a b), key rfl rfl, key rfl rfl, List.forall_mem_nil _⟩

/-- Settles O45: each row is the ALU function of its record, the immediate its second operand. -/
theorem immediateAluResults : Obligations.ImmediateAluResults := by
  intro s rd rs1 a v hr hp h1
  have key : ∀ {i op x}, i.toRecord = recAluImm op rd rs1 v → aluFn op a v = x →
      CompletesWith i s rd x (s.ip + 4) := fun hi hx => hx ▸ aluImm_completes hr hp hi h1
  show ∀ row ∈ (_ : List (Instr × Word)), CompletesWith row.1 s rd row.2 (s.ip + 4)
  simp only [List.forall_mem_cons]
  exact ⟨key rfl rfl, key rfl (aluFn_slt a v), key rfl (aluFn_sltu a v), key rfl rfl, key rfl rfl, key rfl rfl,
    key rfl (aluFn_sll a v), key rfl (aluFn_srl a v), key rfl (aluFn_sra a v), lui_completes hr hp,
    List.forall_mem_nil _⟩

/-- Settles O46: LUI's source register is `x0`, which always holds 0. -/
theorem luiAlwaysCompletes : Obligations.LuiAlwaysCompletes := fun _ _ _ hr hp => lui_completes hr hp

/-- Settles O47: each row is the comparison function of its record. -/
theorem branchResults : Obligations.BranchResults := by
  intro s rs1 rs2 imm a b hr hp h1 h2
  have key : ∀ {i op c}, i.toRecord = recBranch op rs1 rs2 imm → brFn op a b = c → BranchesTo i s c imm :=
    fun hi hc => hc ▸ branch_completes hr hp hi h1 h2
  show ∀ row ∈ (_ : List (Instr × Bool)), BranchesTo row.1 s row.2 imm
  simp only [List.forall_mem_cons]
  exact ⟨key rfl rfl, key rfl (decide_not (p := a = b)).symm, key rfl rfl, key rfl rfl, key rfl rfl, key rfl rfl,
    List.forall_mem_nil _⟩

/-- Settles O48: the records' comparison function always holds. -/
theorem jumpResults : Obligations.JumpResults := by
  intro s rd rs1 imm a hr hp
  have hops : ∀ {r : Record}, r.rs1 = none → r.rs2 = none → (s.tick (ref s)).readOperands (ref s) r = .ok _ :=
    fun h1 h2 => readOperands_of_sources (by rw [h1]; rfl) (by rw [h2]; rfl)
  refine ⟨completesWith (r := recJump rd imm) hr hp rfl rfl (by simp [recJump]) rfl (hops rfl rfl),
    completesWith (r := recAuipc rd imm) hr hp rfl rfl (by simp [recAuipc]) rfl (hops rfl rfl), fun h1 => ?_⟩
  have hjr := completesWith (i := .jalr rd rs1 imm) hr hp rfl rfl (by simp [Instr.toRecord, recJumpReg]) rfl
    (readOperands_of_sources (s := s.tick (ref s)) (readSource_some h1) rfl)
  rw [BitVec.add_comm a imm]
  exact hjr

/-- Settles O51: the Word read is that of the CSR file after the tick of the reading edge. -/
theorem csrReadResult : Obligations.CsrReadResult := by
  intro s rd c hr hp
  have hread := completesWith (i := .csrrs rd c) hr hp rfl rfl (by simp [Instr.toRecord, recCsrRead]) rfl
    (readOperands_of_sources (s := s.tick (ref s)) rfl rfl)
  rw [← CsrFile.read_clockTick s.params s.csr c]
  exact hread

/-- Settles O52: the write of the CSR file, between its two ticks and the retirement. -/
theorem csrWriteResult : Obligations.CsrWriteResult := by
  intro s c rs1 a hr hp h1
  have hops : (s.tick (ref s)).readOperands (ref s) (recCsrWrite c rs1) = .ok _ :=
    readOperands_of_sources (readSource_some h1) rfl
  obtain ⟨m, hmem, hfront, hexec⟩ := exec_other (i := .csrrw c rs1) hr rfl hops
  refine ⟨_, hexec, committed_keepsRegs rfl, rfl, ⟨committed_mem.trans hmem, committed_front.trans hfront⟩,
    committed_retired hr, fun d => ?_, ?_⟩
  · rw [committed_csr_write rfl rfl, CsrFile.read_instructionRetired, CsrFile.read_write, CsrFile.read_ticks]
    obtain ⟨-, -, -, -, -, -, -, hne, -⟩ := hp
    by_cases hd : d = c
    · simp only [if_pos hd]
      rfl
    · simp only [if_neg hd]
      by_cases hcycle : d = s.params.cycleCsr
      · rw [if_neg (hcycle ▸ hne), if_pos hcycle, if_pos hcycle]
        rfl
      · simp only [if_neg hcycle]
  · show CsrFile.msg _ = _
    rw [committed_csr_write rfl rfl, CsrFile.msg_instructionRetired, CsrFile.msg_write, CsrFile.msg_ticks]
    rfl

/-! ## Faults of an instruction (R251, R255, R257) -/

section
variable {i : Instr} {s : State} {r1 : Record} {f : Fault}

/-- An instruction whose operand read fails stops with that fault. -/
theorem Machine.exec_of_operands_error (hr : Running s)
    (h : (s.tick (ref s)).readOperands (ref s) i.toRecord = .error f) : exec i s = .fault f := by
  rw [exec_eq_runRecord]
  exact runRecordWith_of_raised hr (issue_of_error h)

/-- A load or store out of range stops with F_ADDR of its address. -/
theorem Machine.exec_outOfRange (hr : Running s) (hops : (s.tick (ref s)).readOperands (ref s) i.toRecord = .ok r1)
    (hk : i.toRecord.kind.opKind ≠ .other) (ha : s.params.memBytes ≤ (execute r1 s.ip).addr.toNat) :
    exec i s = .fault (.addr (execute r1 s.ip).addr) := by
  rw [exec_eq_runRecord]
  exact runRecordWith_of_raised hr (issue_of_raised (s := s.tick (ref s)) hops (requestData_outOfRange hk ha))

theorem Machine.exec_unset_rs1 {j : RegId} (hr : Running s) (h1 : i.toRecord.rs1 = some j) (hj : s.reg j = none) :
    exec i s = .fault (.uninit j) :=
  exec_of_operands_error hr (readOperands_unset_rs1 (s := s.tick (ref s)) h1 hj)

theorem Machine.exec_unset_rs2 {j k : RegId} (hr : Running s) (h1 : i.toRecord.rs1 = some j) (hj : s.reg j ≠ none)
    (h2 : i.toRecord.rs2 = some k) (hk : s.reg k = none) : exec i s = .fault (.uninit k) := by
  refine exec_of_operands_error hr (readOperands_unset_rs2 (s := s.tick (ref s)) (fun x hx => ?_) h2 hk)
  cases h1.symm.trans hx
  exact hj

end

/-- Settles O53: the sources of the listed instructions' records. -/
theorem unsetSourceFaults : Obligations.UnsetSourceFaults := by
  intro s rd i j v c hr
  refine ⟨fun hi x hx => exec_unset_rs1 hr ?_ hi, fun hi hj x hx => exec_unset_rs2 hr ?_ hi ?_ hj⟩
  · exact (List.map_eq_replicate_iff (f := fun x : Instr => x.toRecord.rs1) (b := some i)).1 rfl x hx
  · exact (List.map_eq_replicate_iff (f := fun x : Instr => x.toRecord.rs1) (b := some i)).1 rfl x hx
  · exact (List.map_eq_replicate_iff (f := fun x : Instr => x.toRecord.rs2) (b := some j)).1 rfl x hx

/-! ## Loads and stores (R220, R221) -/

section
variable {s : State} {rd rs1 rs2 : RegId} {imm a v : Word}

/-- LW's record as executed: its address is the base and the immediate. -/
theorem Machine.readOperands_load (h1 : s.reg rs1 = some a) :
    (s.tick (ref s)).readOperands (ref s) (recLoad rd rs1 imm) = .ok { recLoad rd rs1 imm with v1 := a } :=
  readOperands_of_sources (readSource_some h1) rfl

/-- SW's record as executed: beside the address, its data is the second source. -/
theorem Machine.readOperands_store (h1 : s.reg rs1 = some a) (h2 : s.reg rs2 = some v) :
    (s.tick (ref s)).readOperands (ref s) (recStore rs1 rs2 imm) =
      .ok { recStore rs1 rs2 imm with v1 := a, v2 := v } :=
  readOperands_of_sources (readSource_some h1) (readSource_some h2)

end

/-- Settles O54: the operands hold values, and the data request is the one that raises. -/
theorem outOfRangeAccessFaults : Obligations.OutOfRangeAccessFaults := by
  intro s rd rs1 rs2 imm a v hr h1 ha
  exact ⟨exec_outOfRange (i := .lw rd rs1 imm) hr (readOperands_load h1)
      (by simp [Instr.toRecord, recLoad, Kind.opKind]) ha,
    fun h2 => exec_outOfRange (i := .sw rs1 rs2 imm) hr (readOperands_store h1 h2)
      (by simp [Instr.toRecord, recStore, Kind.opKind]) ha⟩

/-- Settles O49: the load in range, and what its request leaves of the component. -/
theorem loadResult : Obligations.LoadResult := by
  intro s rd rs1 imm a hr hp hm h1 ha
  obtain ⟨m, hdone, hexec⟩ := exec_load (i := .lw rd rs1 imm) hr hp hm (readOperands_load h1) ha rfl
  have hwait : accessWait s s.memc.wait (.lw rd rs1 imm) = dataWait s s.memc.wait (a + imm) := by
    rw [accessWait, h1]
    rfl
  rw [hwait] at hexec
  refine ⟨_, hexec, ?_, rfl, fun b => ?_, committed_countsOnly hp (by simp [execute_kind, recLoad]),
    committed_retired hr, fun hf => ?_, fun ic dc hf => ?_⟩
  · rw [← wordIndex_eq]
    exact committed_writesReg rfl
  · rw [committed_mem]
    exact congrArg (fun mem : Memory => mem.read b) hdone.mem
  · rw [committed_front]
    exact hdone.uncached hf
  · rw [committed_front]
    obtain ⟨dc', hf', hreq⟩ := hdone.cached ic dc hf
    exact ⟨dc', hf', hreq.mem_keys⟩

theorem Machine.completeStore_mem {p : Params} {a d : Word} {m m' : MemComponent} (h : completeStore p a d m = .ok m') :
    m'.mem = m.mem.setWord (wordIndex a) d := by
  obtain ⟨-, ⟨-, rfl⟩ | ⟨_, _, _, -, -, rfl⟩⟩ := completeStore_ok h <;> rfl

/-- Settles O50: the store in range, in what its request leaves of the component. -/
theorem storeResult : Obligations.StoreResult := by
  intro s rs1 rs2 imm a v hr hp hm h1 h2 ha
  obtain ⟨m, m', hdone, hstore, hexec⟩ :=
    exec_store (i := .sw rs1 rs2 imm) hr hp hm (readOperands_store h1 h2) ha rfl
  have hwait : accessWait s s.memc.wait (.sw rs1 rs2 imm) = dataWait s s.memc.wait (a + imm) := by
    rw [accessWait, h1]
    rfl
  rw [hwait] at hexec
  change completeStore s.params (a + imm) v (atReady m) = .ok m' at hstore
  refine ⟨_, hexec, committed_keepsRegs rfl, rfl, ?_, fun b hb => ?_,
    committed_countsOnly hp (by simp [execute_kind, recStore]), committed_retired hr, fun hf => ?_, fun ic dc hf => ?_⟩
  · rw [committed_mem, completeStore_word hstore]
  · rw [committed_mem, completeStore_mem hstore, Memory.read_setWord, if_neg (by omega)]
    exact congrArg (fun mem : Memory => mem.read b) hdone.mem
  · rw [committed_front]
    obtain ⟨-, ⟨hu, rfl⟩ | ⟨_, _, _, hc, -, -⟩⟩ := completeStore_ok hstore
    · exact hu
    · cases (hdone.uncached hf).symm.trans hc
  · rw [committed_front]
    obtain ⟨dc', hf', -⟩ := hdone.cached ic dc hf
    obtain ⟨-, ⟨hu, -⟩ | ⟨_, dc1, ln, hc, hl, rfl⟩⟩ := completeStore_ok hstore
    · cases hf'.symm.trans hu
    · cases hf'.symm.trans hc
      exact ⟨_, ln.set (lineOffset (a + imm)) v, rfl, (Cache.storeWord_line? ..).trans (if_pos rfl), by simp⟩

/-! ## Every instruction -/

/-- The destination of an instruction is its record's. -/
theorem Safety.destReg_eq (i : Instr) : destReg i = i.toRecord.rd := by cases i <;> rfl

/-- Settles O56: the commit writes the record's destination alone. -/
theorem onlyDestinationChanges : Obligations.OnlyDestinationChanges := by
  intro i s t h
  obtain ⟨hr, r1, m, d, m', hops, -, -, rfl⟩ := exec_next h
  obtain ⟨-, hrd, -⟩ := readOperands_keeps hops
  have hreg : ∀ j, (committed s (1 + max (accessWait s s.memc.wait i) 1) m' { execute r1 s.ip with data := d }).reg j =
      if destReg i = some j ∧ j ≠ 0 then some d else s.reg j := fun j => by
    rw [committed_reg, destReg_eq, ← hrd, ← execute_rd r1 s.ip]
  refine ⟨fun j hj => ?_, State.reg_zero _, fun j hj => ?_, committed_retired hr |>.1, rfl, committed_retired hr |>.2.1⟩
  · rw [hreg, if_neg fun hc => hj hc.1.symm]
  · by_cases h0 : j = 0
    · rw [h0, State.reg_zero]
      simp
    · rw [hreg, if_pos ⟨hj, h0⟩]
      simp

theorem Machine.csrrw_of_kind {i : Instr} (h : i.toRecord.kind = .csrw) : ∃ c rs1, i = .csrrw c rs1 := by
  cases i with
  | csrrw c rs1 => exact ⟨c, rs1, rfl⟩
  | _ => cases h

/-- Settles O58: the commit of a record that is no CSR write. -/
theorem onlyCsrWriteChangesCsrs : Obligations.OnlyCsrWriteChangesCsrs := by
  intro i s t hp h hi
  obtain ⟨-, r1, m, d, m', hops, -, -, rfl⟩ := exec_next h
  obtain ⟨hkind, -, -⟩ := readOperands_keeps hops
  refine committed_countsOnly hp fun hk => ?_
  obtain ⟨c, rs1, rfl⟩ := csrrw_of_kind (hkind.symm.trans ((execute_kind ..).symm.trans hk))
  exact hi c rs1 rfl

/-- The Word that a record in range commits, given memory (R155, R220). -/
def Machine.dataAfter (mem : Memory) (e : Record) : Word :=
  if e.kind.opKind = .load then mem.word (wordIndex e.addr) else e.data

/-- Memory after a record in range (R155, R221). -/
def Machine.memAfter (mem : Memory) (e : Record) : Memory :=
  if e.kind.opKind = .store then mem.setWord (wordIndex e.addr) e.data else mem

section
variable {i : Instr} {s : State} {r1 : Record} (hr : Running s) (hp : s.params.Legal) (hm : MemOk s.params s.memc)
include hr hp hm

/-- An instruction whose operands hold values and whose access, if it makes one, is in range completes; what it leaves
does not depend on the caches but for the edges and the caches themselves (R39, R69). -/
theorem Machine.exec_inRange (hops : (s.tick (ref s)).readOperands (ref s) i.toRecord = .ok r1)
    (ha : i.toRecord.kind.opKind ≠ .other → (execute r1 s.ip).addr.toNat < s.params.memBytes) :
    ∃ n m', m'.mem = memAfter s.memc.mem (execute r1 s.ip) ∧ exec i s =
      .next (committed s n m' { execute r1 s.ip with data := dataAfter s.memc.mem (execute r1 s.ip) }) := by
  have hkind := (readOperands_keeps hops).1
  cases hk : i.toRecord.kind.opKind with
  | other =>
    obtain ⟨m', hmem, -, hexec⟩ := exec_other hr hk hops
    have hdata : dataAfter s.memc.mem (execute r1 s.ip) = (execute r1 s.ip).data := by simp [dataAfter, hkind, hk]
    exact ⟨_, m', by simp [memAfter, hkind, hk, hmem], hexec.trans (by rw [hdata])⟩
  | load =>
    obtain ⟨m', hdone, hexec⟩ := exec_load hr hp hm hops (ha (by simp [hk])) hk
    have hdata : dataAfter s.memc.mem (execute r1 s.ip) = s.memc.mem.word (wordIndex (execute r1 s.ip).addr) := by
      simp [dataAfter, hkind, hk]
    exact ⟨_, atReady m', by simp [memAfter, hkind, hk, hdone.mem, atReady], hexec.trans (by rw [hdata])⟩
  | store =>
    obtain ⟨m, m', hdone, hstore, hexec⟩ := exec_store hr hp hm hops (ha (by simp [hk])) hk
    have hdata : dataAfter s.memc.mem (execute r1 s.ip) = (execute r1 s.ip).data := by simp [dataAfter, hkind, hk]
    exact ⟨_, m', by simp [memAfter, hkind, hk, completeStore_mem hstore, hdone.mem, atReady],
      hexec.trans (by rw [hdata])⟩

/-- How an instruction of a state in order ends. -/
theorem Machine.exec_cases (i : Instr) :
    (∃ f, (s.tick (ref s)).readOperands (ref s) i.toRecord = .error f ∧ exec i s = .fault f) ∨
    ∃ r1, (s.tick (ref s)).readOperands (ref s) i.toRecord = .ok r1 ∧
      ((i.toRecord.kind.opKind ≠ .other ∧ s.params.memBytes ≤ (execute r1 s.ip).addr.toNat ∧
          exec i s = .fault (.addr (execute r1 s.ip).addr)) ∨
        ((i.toRecord.kind.opKind ≠ .other → (execute r1 s.ip).addr.toNat < s.params.memBytes) ∧
          ∃ n m', m'.mem = memAfter s.memc.mem (execute r1 s.ip) ∧ exec i s =
            .next (committed s n m' { execute r1 s.ip with data := dataAfter s.memc.mem (execute r1 s.ip) }))) := by
  cases hops : (s.tick (ref s)).readOperands (ref s) i.toRecord with
  | error f => exact .inl ⟨f, rfl, exec_of_operands_error hr hops⟩
  | ok r1 =>
    refine .inr ⟨r1, rfl, ?_⟩
    by_cases ha : i.toRecord.kind.opKind ≠ .other → (execute r1 s.ip).addr.toNat < s.params.memBytes
    · exact .inr ⟨ha, exec_inRange hr hp hm hops ha⟩
    · obtain ⟨hk, ha⟩ := Classical.not_imp.1 ha
      exact .inl ⟨hk, Nat.not_lt.1 ha, exec_outOfRange hr hops hk (Nat.not_lt.1 ha)⟩

end

/-- The instructions that access memory. -/
theorem Machine.access_cases {i : Instr} (h : i.toRecord.kind.opKind ≠ .other) :
    (∃ rd rs1 imm, i = .lw rd rs1 imm) ∨ ∃ rs1 rs2 imm, i = .sw rs1 rs2 imm := by
  cases i with
  | lw rd rs1 imm => exact .inl ⟨rd, rs1, imm, rfl⟩
  | sw rs1 rs2 imm => exact .inr ⟨rs1, rs2, imm, rfl⟩
  | _ => exact absurd rfl h

/-- Settles O55: the cases of an instruction's end. -/
theorem execStopsOnlyAsSpecified : Obligations.ExecStopsOnlyAsSpecified := by
  intro i s hr hp hm
  obtain ⟨f, hops, hexec⟩ | ⟨r1, -, ⟨hk, ha, hexec⟩ | ⟨-, _, _, -, hexec⟩⟩ := exec_cases hr hp hm i
  · obtain ⟨j, rfl, hj, -⟩ := readOperands_error hops
    exact .inr (.inl ⟨j, hj, hexec⟩)
  · exact .inr (.inr ⟨_, ha, hexec, access_cases hk⟩)
  · exact .inl ⟨_, hexec⟩

/-- Settles O57: memory after a record that is no store is memory before it. -/
theorem onlyStoreChangesMemory : Obligations.OnlyStoreChangesMemory := by
  intro i s t hp hm h hi b
  obtain ⟨hr, r1, -, -, -, hops, -⟩ := exec_next h
  obtain ⟨f, -, hexec⟩ | ⟨r1, hops, ⟨-, -, hexec⟩ | ⟨-, n, m', hmem, hexec⟩⟩ := exec_cases hr hp hm i
  · cases h.symm.trans hexec
  · cases h.symm.trans hexec
  · cases h.symm.trans hexec
    have hk : (execute r1 s.ip).kind.opKind ≠ .store := by
      rw [execute_kind, (readOperands_keeps hops).1]
      intro hk
      obtain ⟨_, _, _, rfl⟩ | ⟨rs1, rs2, imm, rfl⟩ := access_cases (i := i) (by simp [hk])
      · cases hk
      · exact hi rs1 rs2 imm rfl
    rw [committed_mem, hmem, memAfter, if_neg hk]

/-! ## The caches are invisible but for time (R39, R41, R69) -/

/-- `u` is the machine of `s` on the Uncached port: parameters but for the component, memory, registers, `ip`, CSRs. -/
structure Safety.UncachedTwin (s u : State) : Prop where
  params : u.params = { s.params with memModel := .uncached }
  mem : u.memc.mem = s.memc.mem
  ip : u.ip = s.ip
  regs : KeepsRegs s u
  csr : u.csr = s.csr

section
variable {s u : State} {n k : Nat} {m m' : MemComponent} {e r : Record}

/-- The twins read the same operands. -/
theorem Safety.UncachedTwin.readOperands (h : UncachedTwin s u) (r : Record) :
    (u.tick (ref u)).readOperands (ref u) r = (s.tick (ref s)).readOperands (ref s) r := by
  have hsource : ∀ o, (u.tick (ref u)).readSource (ref u) o = (s.tick (ref s)).readSource (ref s) o := by
    intro o
    cases o with
    | none => rfl
    | some i =>
      have hi : u.regs.read i = s.regs.read i := h.regs i
      simp only [State.readSource, State.readReg, State.tick_regs, reference_regs_read, hi]
  have hcsr : ∀ o, (u.tick (ref u)).readCsrValue (ref u) o = (s.tick (ref s)).readCsrValue (ref s) o := by
    intro o
    cases o with
    | none => rfl
    | some c =>
      simp only [State.readCsrValue, State.tick_csr, reference_clockTick, reference_csrs_read, h.csr, h.params,
        CsrFile.read_clockTick]
  simp only [State.readOperands, hsource, hcsr]

/-- The CSR of a well-formed CSR write (R83). -/
theorem Machine.csr_of_wellFormed (hw : e.wellFormed = true) (hk : e.kind = .csrw) : ∃ c, e.csr = some c := by
  simp only [Record.wellFormed, hk, Bool.and_eq_true] at hw
  exact Option.isSome_iff_exists.1 hw.2

/-- The twins' commits of one record agree on the CSR file but for the cycle counter, whatever edges each took. -/
theorem Safety.UncachedTwin.committed_csr (h : UncachedTwin s u) (hw : e.wellFormed = true) :
    (committed u k m' e).csr.msg = (committed s n m e).csr.msg ∧
      ∀ c, c ≠ s.params.cycleCsr → (committed u k m' e).csr.read c = (committed s n m e).csr.read c := by
  by_cases hk : e.kind = .csrw
  · obtain ⟨c, hc⟩ := csr_of_wellFormed hw hk
    rw [committed_csr_write hk hc, committed_csr_write hk hc, h.csr, h.params]
    refine ⟨by simp only [CsrFile.msg_instructionRetired, CsrFile.msg_write, CsrFile.msg_ticks], fun d hd => ?_⟩
    simp only [CsrFile.read_instructionRetired, CsrFile.read_write, CsrFile.read_ticks, if_neg hd]
  · rw [Machine.committed_csr hk, Machine.committed_csr hk, h.csr, h.params]
    refine ⟨by simp only [CsrFile.msg_instructionRetired, CsrFile.msg_ticks], fun d hd => ?_⟩
    simp only [CsrFile.read_instructionRetired, CsrFile.read_ticks, if_neg hd]

/-- The twins' commits of one record leave the same registers. -/
theorem Safety.UncachedTwin.committed_regs (h : UncachedTwin s u) :
    KeepsRegs (committed s n m e) (committed u k m' e) := by
  intro i
  rw [committed_reg, committed_reg, h.regs i]

end

/-- Settles O59: the twins read the same operands, so their instruction ends in the same case; where it completes, both
commit the same record over the same memory. -/
theorem cachesInvisibleButForTime : Obligations.CachesInvisibleButForTime := by
  intro i s u hp hcached hm hparams hmu hmem hip hregs hcsr hr hru
  have htwin : UncachedTwin s u := ⟨hparams, hmem, hip, hregs, hcsr⟩
  have hpu : u.params.Legal := by
    rw [hparams]
    exact hp
  have hbytes : u.params.memBytes = s.params.memBytes := by rw [hparams]
  have hopsu := htwin.readOperands i.toRecord
  obtain ⟨f, hops, hexec⟩ | ⟨r1, hops, ⟨hk, ha, hexec⟩ | ⟨ha, n, m, hm', hexec⟩⟩ := exec_cases hr hp hm i <;>
    rw [hops] at hopsu
  · have hexecu := exec_of_operands_error hru hopsu
    exact ⟨fun t ht => (by cases ht.symm.trans hexec), fun g => by rw [hexec, hexecu]⟩
  · have hexecu := exec_outOfRange hru hopsu hk (by rwa [hip, hbytes])
    rw [hip] at hexecu
    exact ⟨fun t ht => (by cases ht.symm.trans hexec), fun g => by rw [hexec, hexecu]⟩
  · obtain ⟨k, mu, hmu', hexecu⟩ := exec_inRange hru hpu hmu hopsu (by rwa [hip, hbytes])
    rw [hip, hmem] at hexecu hmu'
    have hw : (execute r1 s.ip).wellFormed = true := by
      obtain ⟨_, _, -, -, rfl⟩ := readOperands_ok hops
      rw [execute_wellFormed]
      exact toRecord_wellFormed i
    refine ⟨fun t ht => ?_, fun g => by simp [hexec, hexecu]⟩
    cases ht.symm.trans hexec
    obtain ⟨hmsg, hread⟩ := htwin.committed_csr (n := n) (k := k) (m := m) (m' := mu)
      (e := { execute r1 s.ip with data := dataAfter s.memc.mem (execute r1 s.ip) }) hw
    refine ⟨_, hexecu, rfl, htwin.committed_regs, fun a => ?_, hmsg, hread⟩
    rw [committed_mem, committed_mem, hm', hmu']

end Sys2Proof
end
